-- ==== Sys2Proof/Word.lean ====
section
/-!
DEFINITION. The widths the spec gives its quantities (spec/00_scope.md R7): a byte is an unsigned
integer 0..255 with bit 7 the most significant, a septet is the low seven bits of a byte.
-/
namespace Sys2Proof

/-- A byte, 8 bits (spec/00_scope.md R7). -/
abbrev Byte := BitVec 8

/-- A 16-bit header quantity: an address or a command code (spec/30_encoding.md R64). -/
abbrev Half := BitVec 16

/-- Seven bits: a byte without bit 7 (spec/30_encoding.md R66), or a checksum (spec/40_checksum.md R90). -/
abbrev Septet := BitVec 7

/-- A field descriptor `FT[k]` as its 64 bits (spec/30_encoding.md R78). -/
abbrev DescWord := BitVec 64

end Sys2Proof
end

