-- ==== Sys2Proof/Config.lean ====
section
/-!
DEFINITION. The constants and parameters of the block (spec/00_scope.md R6) and the configuration
inputs (spec/10_state.md R13). No constant here is a free value: the spec leaves no value open.
-/
namespace Sys2Proof

/-- `DELIM`, the delimiter byte (R6). -/
abbrev delim : Byte := 0xAA#8

/-- `MIN_SEG`, the shortest segment that becomes a candidate (R6). -/
abbrev minSeg : Nat := 5

/-- `HDR_LEN`, the header length in bytes (R6). -/
abbrev hdrLen : Nat := 9

/-- `FRAME_LEN`, the wire-frame length in bytes (R6). -/
abbrev frameLen : Nat := 6

/-- `DATA_PER_FRAME`, the data bytes one wire frame gives (R6). -/
abbrev dataPerFrame : Nat := 4

/-- `CK_INIT`, the start value of the checksum (R6). -/
abbrev ckInit : Byte := 0x7F#8

/-- `CK_MASK`, the mask of the checksum (R6). -/
abbrev ckMask : Byte := 0x7F#8

/-- The size parameters of R6, fixed when the block is built; each default is R6's. -/
structure Params where
  /-- `MAX_N`, 0..255: the largest frame count the buffers hold. -/
  maxN : Nat := 255
  /-- `NUM_FIELDS`: how many descriptor slots there are. -/
  numFields : Nat := 16
  /-- `MAX_FIELD_LEN`, 1..7: the largest legal `LENGTH` of a field. -/
  maxFieldLen : Nat := 4
  deriving DecidableEq, Repr

/-- `RB_CAP = 9 + 6*MAX_N` (R6). -/
def Params.rbCap (p : Params) : Nat := hdrLen + frameLen * p.maxN

/-- `DB_CAP = 4*MAX_N` (R6). -/
def Params.dbCap (p : Params) : Nat := dataPerFrame * p.maxN

/-- `LEN_W`, the bits that hold `RB_CAP + 1` (R6): the width of `LEN` (spec/10_state.md R15). -/
def Params.lenW (p : Params) : Nat := Nat.log2 (p.rbCap + 1) + 1

/-- The parameters stay in the ranges R6 gives them. -/
abbrev Params.wf (p : Params) : Prop := p.maxN ≤ 255 ∧ 1 ≤ p.maxFieldLen ∧ p.maxFieldLen ≤ 7

/-- The configuration inputs `cfg_version`, `cfg_command` and `cfg_ft[k]` (spec/10_state.md R12). -/
structure Config where
  /-- `CFG_VERSION`, the accepted value of header byte 4. -/
  version : Byte := 0x10#8
  /-- `CFG_COMMAND`, the payload-push command code. -/
  command : Half := 0x0100#16
  /-- `FT`, the field table, slot 0 first. -/
  ft : List DescWord
  deriving DecidableEq, Repr

/-- The default configuration. `CFG_VERSION` and `CFG_COMMAND` have R6's defaults. `FT` has none in the
spec: every slot is inactive (`VALID = 0`). DESIGN CHOICE, log 4. -/
def Config.default (p : Params) : Config := { ft := List.replicate p.numFields 0#64 }

end Sys2Proof
end

