-- ==== Sys2Proof/Syntax.lean ====
section
/-!
DEFINITION. The operations of the block as syntax (spec/30_encoding.md R75): one constructor per row of
spec/opcode_table.json, each carrying the fields its format gives it. An operand is what the operation's
encoding holds: the bits of the input byte (format B, R61), a byte sequence (format B*), the header bytes
of a candidate (format H, R63), a wire frame (format W, R66) or a field descriptor (format F, R78).
-/
namespace Sys2Proof

/-- The beginning of a candidate as `HV1`, `HV2` and `OTHERVER` see it: bytes 0..4 and whatever of bytes
5..8 the candidate has. A candidate may be as short as 5 bytes (spec/42_header_validator.md R120), and after
a foreign version byte the layout is not interpreted (spec/91_not_in_source.md N5). DEDUCED, log 12. -/
structure HeaderHead where
  /-- Bytes 0 and 1, little-endian. -/
  dst : Half
  /-- Bytes 2 and 3, little-endian. -/
  src : Half
  /-- Byte 4, the version marker. -/
  ver : Byte
  /-- Bytes 5 to 8 as far as the candidate has them, not interpreted. -/
  tail : List Byte
  deriving DecidableEq, Repr

/-- A whole 9-byte header, format H (spec/30_encoding.md R63, R64). -/
structure Header where
  /-- Bytes 0 and 1, little-endian. -/
  dst : Half
  /-- Bytes 2 and 3, little-endian. -/
  src : Half
  /-- Byte 4. -/
  ver : Byte
  /-- Bytes 5 and 6, little-endian. -/
  cmd : Half
  /-- Byte 7, the frame count `N`. -/
  n : Byte
  /-- Byte 8, the stored header checksum. -/
  hck : Byte
  deriving DecidableEq, Repr

/-- A wire frame without its six clear top bits, format W (spec/30_encoding.md R66). -/
structure Frame where
  /-- Byte 0, bits 6..0. -/
  d0 : Septet
  /-- Byte 1, bits 6..0. -/
  d1 : Septet
  /-- Byte 2, bits 6..0. -/
  d2 : Septet
  /-- Byte 3, bits 6..0. -/
  d3 : Septet
  /-- Byte 4, bits 6..4: covered by the checksum, otherwise ignored (R67). -/
  spare : BitVec 3
  /-- Byte 4, bits 3..0: bit `j` is bit 7 of data byte `j`. -/
  mask : BitVec 4
  /-- Byte 5, bits 6..0: the stored frame checksum. -/
  fck : Septet
  deriving DecidableEq, Repr

/-- The operand fields of an active descriptor, format F (spec/30_encoding.md R78, R79); `SIGNED` tells
`FIELD.U` from `FIELD.S`. -/
structure Field where
  /-- Bits 9..0, a byte offset into the decoded bytes. -/
  offset : BitVec 10
  /-- Bits 12..10, a length in bytes. -/
  length : BitVec 3
  /-- Bits 31..16, the numerator of the scale factor. -/
  fnum : BitVec 16
  /-- Bits 47..32, the denominator of the scale factor. -/
  fden : BitVec 16
  deriving DecidableEq, Repr

/-- The operations, one constructor per row of spec/opcode_table.json, in the table's order. -/
inductive Instr where
  /-- `SYNC`: the delimiter byte 0xAA. -/
  | sync
  /-- `SEPTET`: a data byte 0x00..0x7F. -/
  | septet (d : Septet)
  /-- `HIGH`: a data byte 0x80..0xFF but 0xAA. -/
  | high (x : Septet)
  /-- `CKSUM`: the checksum of a byte sequence. -/
  | cksum (bytes : List Byte)
  /-- `HV1`: the version check. -/
  | hv1 (h : HeaderHead)
  /-- `HV2`: the minimum-length check. -/
  | hv2 (h : HeaderHead)
  /-- `HV3`: the command check. -/
  | hv3 (h : Header)
  /-- `HV4`: the header-checksum check. -/
  | hv4 (h : Header)
  /-- `HV5`: the check of the frame count against the length. -/
  | hv5 (h : Header)
  /-- `PUSH`: a payload-push record, evaluated whole. -/
  | push (h : Header)
  /-- `OTHERCMD`: a record with another command. -/
  | othercmd (h : Header)
  /-- `OTHERVER`: a record with another version marker. -/
  | otherver (h : HeaderHead)
  /-- `HIGHSCAN`: the scan of all payload bytes for bit 7. -/
  | highscan (payload : List Byte)
  /-- `FRAMECK`: the checksum check of one wire frame. -/
  | frameck (w : Frame)
  /-- `UNPACK`: the septet reversal of one wire frame. -/
  | unpack (w : Frame)
  /-- `FIELD.U`: an unsigned field. -/
  | fieldU (f : Field)
  /-- `FIELD.S`: a signed field. -/
  | fieldS (f : Field)
  deriving DecidableEq, Repr

/-- Where an operation's encoding is read from, which is what tells operations with the same bit pattern
apart: the table gives `SEPTET`, `CKSUM` and `HIGHSCAN` one byte pattern, `HV1` to `HV5` one header pattern
and `FRAMECK` and `UNPACK` one frame pattern; R75's column "selected by" and its fixed order select among
them. -/
inductive Level where
  | stream | checksum | hv1 | hv2 | hv3 | hv4 | hv5 | record | payload | frameCheck | frameUnpack | descriptor
  deriving DecidableEq, Repr

end Sys2Proof
end

