-- ==== Sys2Proof/WellFormed.lean ====
section
/-!
DEFINITION. Which operations are well-formed: those that some encoding stands for under a configuration.
The delimiter is no `HIGH` byte (spec/30_encoding.md R61), a candidate holds no delimiter (R62), the record
selection follows the version and the command (R65), a payload is whole wire frames, at most 255 of them
(R68), and a descriptor keeps R80.
-/
namespace Sys2Proof

/-- Neither byte of a 16-bit header quantity is the delimiter (spec/30_encoding.md R62). -/
def noDelim16 (v : Half) : Bool := v.extractLsb' 0 8 != delim && v.extractLsb' 8 8 != delim

/-- Bytes 5 to 8 are at most four, and no byte of the head is the delimiter (R62). -/
def HeaderHead.wf (h : HeaderHead) : Bool :=
  noDelim16 h.dst && noDelim16 h.src && h.ver != delim && decide (h.tail.length ≤ 4) && h.tail.all (· != delim)

/-- No byte of the header is the delimiter (R62). -/
def Header.wf (h : Header) : Bool :=
  noDelim16 h.dst && noDelim16 h.src && h.ver != delim && noDelim16 h.cmd && h.n != delim && h.hck != delim

/-- `LENGTH` is 1..`MAX_FIELD_LEN` and `FDEN` is not 0 (R80). -/
def Field.wf (p : Params) (f : Field) : Bool :=
  decide (1 ≤ f.length.toNat) && decide (f.length.toNat ≤ p.maxFieldLen) && f.fden != 0#16

/-- A payload is a whole number of wire frames, at most 255, with no delimiter in it (R62, R68). -/
def payloadWf (bytes : List Byte) : Bool :=
  decide (bytes.length % frameLen = 0) && decide (bytes.length ≤ frameLen * 255) && bytes.all (· != delim)

/-- The well-formed operations under parameters `p` and configuration `c`. -/
def Instr.wf (p : Params) (c : Config) : Instr → Bool
  | .sync => true
  | .septet _ => true
  | .high x => x != 0x2A#7
  | .cksum _ => true
  | .hv1 h => h.wf
  | .hv2 h => h.wf
  | .hv3 h => h.wf
  | .hv4 h => h.wf
  | .hv5 h => h.wf
  | .push h => h.wf && h.ver == c.version && h.cmd == c.command
  | .othercmd h => h.wf && h.ver == c.version && h.cmd != c.command
  | .otherver h => h.wf && h.ver != c.version
  | .highscan bytes => payloadWf bytes
  | .frameck _ => true
  | .unpack _ => true
  | .fieldU f => f.wf p
  | .fieldS f => f.wf p

end Sys2Proof
end

