-- ==== Sys2Proof/Decode.lean ====
section
/-!
DEFINITION. The decoder and the encoder, both from the format tables of spec/30_encoding.md. `decode` is
total: it reads an operation from the bytes of its encoding at the level the encoding stands at, and rejects
every other byte sequence by name. `encode` writes the bytes of an operation.
-/
namespace Sys2Proof

/-- Why a byte sequence is no encoding of an operation at a level. -/
inductive DecodeError where
  /-- Fewer bytes than the format has. -/
  | truncated
  /-- More bytes than the format has. -/
  | tooLong
  /-- A delimiter byte where a candidate stands (R62). -/
  | delimiterInCandidate
  /-- A payload that is no whole number of wire frames (R68). -/
  | notWholeFrames
  /-- A wire-frame byte with bit 7 set (R84). -/
  | highBit
  /-- A descriptor with `VALID = 0`, which is no operation (R78). -/
  | inactiveSlot
  /-- An active descriptor with a reserved bit set (R80). -/
  | reservedBits
  /-- An active descriptor whose `LENGTH` is 0 or over `MAX_FIELD_LEN` (R80). -/
  | badLength
  /-- An active descriptor with `FDEN = 0` (R80). -/
  | zeroDenominator
  deriving DecidableEq, Repr

/-! ### Bytes and fields -/

/-- The low byte of a 16-bit header quantity, which arrives first (R45, R63). -/
def loByte (v : Half) : Byte := v.extractLsb' 0 8

/-- The high byte of a 16-bit header quantity (R45, R63). -/
def hiByte (v : Half) : Byte := v.extractLsb' 8 8

/-- `LO + 256*HI` (R64). -/
def joinBytes (lo hi : Byte) : Half := hi ++ lo

/-- A byte with bit 7 clear: the septet as it is sent (R66). -/
def lowByte (d : Septet) : Byte := 0#1 ++ d

/-- A byte with bit 7 set (R61, class `HIGH`). -/
def highByte (x : Septet) : Byte := 1#1 ++ x

/-- Bits 6..0 of a byte. -/
def septetOf (b : Byte) : Septet := b.extractLsb' 0 7

/-- The eight bytes of a header in front of its checksum, `c[0..8)` (R63). -/
def Header.covered (h : Header) : List Byte :=
  [loByte h.dst, hiByte h.dst, loByte h.src, hiByte h.src, h.ver, loByte h.cmd, hiByte h.cmd, h.n]

/-- The nine bytes of a header, byte 0 first (R63). -/
def Header.bytes (h : Header) : List Byte := h.covered ++ [h.hck]

/-- The head of a whole header: bytes 0..4, and bytes 5..8 uninterpreted. -/
def Header.head (h : Header) : HeaderHead := ⟨h.dst, h.src, h.ver, [loByte h.cmd, hiByte h.cmd, h.n, h.hck]⟩

/-- The bytes of the beginning of a candidate (R63). -/
def HeaderHead.bytes (h : HeaderHead) : List Byte :=
  [loByte h.dst, hiByte h.dst, loByte h.src, hiByte h.src, h.ver] ++ h.tail

/-- The five bytes of a wire frame that its checksum covers (R66). -/
def Frame.covered (w : Frame) : List Byte :=
  [lowByte w.d0, lowByte w.d1, lowByte w.d2, lowByte w.d3, lowByte (w.spare ++ w.mask)]

/-- The six bytes of a wire frame (R66). -/
def Frame.bytes (w : Frame) : List Byte := w.covered ++ [lowByte w.fck]

/-- `OFFSET`, descriptor bits 9..0 (R78). -/
def descOffset (w : DescWord) : BitVec 10 := w.extractLsb' 0 10

/-- `LENGTH`, descriptor bits 12..10 (R78). -/
def descLength (w : DescWord) : BitVec 3 := w.extractLsb' 10 3

/-- `SIGNED`, descriptor bit 13 (R78). -/
def descSigned (w : DescWord) : Bool := w.getLsbD 13

/-- `VALID`, descriptor bit 15 (R78). -/
def descValid (w : DescWord) : Bool := w.getLsbD 15

/-- `FNUM`, descriptor bits 31..16 (R78). -/
def descFnum (w : DescWord) : BitVec 16 := w.extractLsb' 16 16

/-- `FDEN`, descriptor bits 47..32 (R78). -/
def descFden (w : DescWord) : BitVec 16 := w.extractLsb' 32 16

/-- Reserved bits 14 and 63..48 are 0 (R78). -/
def descReservedClear (w : DescWord) : Bool := !w.getLsbD 14 && w.extractLsb' 48 16 == 0#16

/-- The operand fields of a descriptor (R78). -/
def descField (w : DescWord) : Field := ⟨descOffset w, descLength w, descFnum w, descFden w⟩

/-- The 64 bits of an active descriptor (R78), bit 63 leftmost. -/
def fieldWord (signed : Bool) (f : Field) : DescWord :=
  0#16 ++ f.fden ++ f.fnum ++ 1#1 ++ 0#1 ++ BitVec.ofBool signed ++ f.length ++ f.offset

/-- The eight bytes of a descriptor, bits 7..0 first. DESIGN CHOICE, log 16: the descriptor is a 64-bit
input and has no byte order in the spec. -/
def wordBytes (w : DescWord) : List Byte :=
  [w.extractLsb' 0 8, w.extractLsb' 8 8, w.extractLsb' 16 8, w.extractLsb' 24 8,
   w.extractLsb' 32 8, w.extractLsb' 40 8, w.extractLsb' 48 8, w.extractLsb' 56 8]

/-- A descriptor from its eight bytes (log 16). -/
def wordOfBytes (b0 b1 b2 b3 b4 b5 b6 b7 : Byte) : DescWord :=
  b7 ++ b6 ++ b5 ++ b4 ++ b3 ++ b2 ++ b1 ++ b0

/-! ### Reading one operation -/

/-- The class of an input byte, tested in R61's order: the delimiter first. -/
def decodeByte (b : Byte) : Instr :=
  if b = delim then .sync else if b.getLsbD 7 then .high (septetOf b) else .septet (septetOf b)

/-- The beginning of a candidate: at least 5 bytes, at most the 9 of a header (R63). -/
def parseHead : List Byte → Except DecodeError HeaderHead
  | b0 :: b1 :: b2 :: b3 :: v :: tail =>
    if tail.length ≤ 4 then .ok ⟨joinBytes b0 b1, joinBytes b2 b3, v, tail⟩ else .error .tooLong
  | _ => .error .truncated

/-- The header of a candidate: exactly 9 bytes (R63, R64). -/
def parseHeader : List Byte → Except DecodeError Header
  | [b0, b1, b2, b3, v, b5, b6, n, k] => .ok ⟨joinBytes b0 b1, joinBytes b2 b3, v, joinBytes b5 b6, n, k⟩
  | bytes => .error (if bytes.length < hdrLen then .truncated else .tooLong)

/-- A wire frame: exactly 6 bytes, each below 0x80 (R66, R84). -/
def parseFrame : List Byte → Except DecodeError Frame
  | [b0, b1, b2, b3, m, k] =>
    if [b0, b1, b2, b3, m, k].any (·.getLsbD 7) then .error .highBit
    else .ok ⟨septetOf b0, septetOf b1, septetOf b2, septetOf b3, m.extractLsb' 4 3, m.extractLsb' 0 4, septetOf k⟩
  | bytes => .error (if bytes.length < frameLen then .truncated else .tooLong)

/-- The operation an active, well-formed descriptor stands for (R78, R80). -/
def decodeDescriptor (p : Params) (w : DescWord) : Except DecodeError Instr :=
  if descValid w = false then .error .inactiveSlot
  else if descReservedClear w = false then .error .reservedBits
  else if (descLength w).toNat < 1 ∨ p.maxFieldLen < (descLength w).toNat then .error .badLength
  else if descFden w = 0#16 then .error .zeroDenominator
  else .ok (if descSigned w then .fieldS (descField w) else .fieldU (descField w))

/-- Rejects a candidate's bytes that hold a delimiter (R62). -/
def guardDelim {α : Type} (bytes : List Byte) (r : Except DecodeError α) : Except DecodeError α :=
  if delim ∈ bytes then .error .delimiterInCandidate else r

/-- The record a candidate's header selects (R65): the version is looked at first, and only a candidate with
the accepted version and a whole header has a command. -/
def decodeRecord (c : Config) (bytes : List Byte) : Except DecodeError Instr :=
  match parseHead bytes with
  | .error e => .error e
  | .ok hd =>
    if hd.ver ≠ c.version then .ok (.otherver hd)
    else match parseHeader bytes with
      | .error e => .error e
      | .ok h => .ok (if h.cmd = c.command then .push h else .othercmd h)

/-- Reads the operation that `bytes` encode at `level`. -/
def decode (p : Params) (c : Config) : Level → List Byte → Except DecodeError Instr
  | .stream, [b] => .ok (decodeByte b)
  | .stream, [] => .error .truncated
  | .stream, _ => .error .tooLong
  | .checksum, bytes => .ok (.cksum bytes)
  | .hv1, bytes => guardDelim bytes ((parseHead bytes).map .hv1)
  | .hv2, bytes => guardDelim bytes ((parseHead bytes).map .hv2)
  | .hv3, bytes => guardDelim bytes ((parseHeader bytes).map .hv3)
  | .hv4, bytes => guardDelim bytes ((parseHeader bytes).map .hv4)
  | .hv5, bytes => guardDelim bytes ((parseHeader bytes).map .hv5)
  | .record, bytes => guardDelim bytes (decodeRecord c bytes)
  | .payload, bytes =>
    guardDelim bytes
      (if bytes.length % frameLen ≠ 0 then .error .notWholeFrames
       else if frameLen * 255 < bytes.length then .error .tooLong
       else .ok (.highscan bytes))
  | .frameCheck, bytes => (parseFrame bytes).map .frameck
  | .frameUnpack, bytes => (parseFrame bytes).map .unpack
  | .descriptor, [b0, b1, b2, b3, b4, b5, b6, b7] => decodeDescriptor p (wordOfBytes b0 b1 b2 b3 b4 b5 b6 b7)
  | .descriptor, bytes => .error (if bytes.length < 8 then .truncated else .tooLong)

/-! ### Writing one operation -/

/-- The level an operation's encoding stands at (R75, "selected by"). -/
def levelOf : Instr → Level
  | .sync => .stream
  | .septet _ => .stream
  | .high _ => .stream
  | .cksum _ => .checksum
  | .hv1 _ => .hv1
  | .hv2 _ => .hv2
  | .hv3 _ => .hv3
  | .hv4 _ => .hv4
  | .hv5 _ => .hv5
  | .push _ => .record
  | .othercmd _ => .record
  | .otherver _ => .record
  | .highscan _ => .payload
  | .frameck _ => .frameCheck
  | .unpack _ => .frameUnpack
  | .fieldU _ => .descriptor
  | .fieldS _ => .descriptor

/-- The bytes of an operation's encoding, first byte first (R61, R63, R66, R78). -/
def encode : Instr → List Byte
  | .sync => [delim]
  | .septet d => [lowByte d]
  | .high x => [highByte x]
  | .cksum bytes => bytes
  | .hv1 h => h.bytes
  | .hv2 h => h.bytes
  | .hv3 h => h.bytes
  | .hv4 h => h.bytes
  | .hv5 h => h.bytes
  | .push h => h.bytes
  | .othercmd h => h.bytes
  | .otherver h => h.bytes
  | .highscan bytes => bytes
  | .frameck w => w.bytes
  | .unpack w => w.bytes
  | .fieldU f => wordBytes (fieldWord false f)
  | .fieldS f => wordBytes (fieldWord true f)

/-! ### Well-formed configurations -/

/-- An inactive descriptor is well-formed whatever its other bits; an active one has a legal `LENGTH`, a
non-zero `FDEN` and clear reserved bits (R80). -/
def descriptorWf (p : Params) (w : DescWord) : Bool :=
  !descValid w ||
    (descReservedClear w && decide (1 ≤ (descLength w).toNat) && decide ((descLength w).toNat ≤ p.maxFieldLen)
      && descFden w != 0#16)

/-- A configuration is well-formed when it fills the `NUM_FIELDS` slots and every descriptor is (R80). -/
def configWf (p : Params) (c : Config) : Bool :=
  decide (c.ft.length = p.numFields) && c.ft.all (descriptorWf p)

/-! ### The host's entry point -/

/-- `k` bytes of a number, bits 7..0 first, as spec/opcode_table.json numbers them. -/
def bytesOfNat : Nat → Nat → List Byte
  | 0, _ => []
  | k + 1, w => BitVec.ofNat 8 w :: bytesOfNat k (w / 256)

/-- The level that the table's formats give a word of `nbits` bits: B, W, F and H. Where several rows have
one pattern (log 11) the level is the one that the bits alone can select at. DESIGN CHOICE. -/
def tableLevel : Nat → Option Level
  | 8 => some .stream
  | 48 => some .frameCheck
  | 64 => some .descriptor
  | 72 => some .record
  | _ => none

/-- The operation the decoder reads from a word of the opcode table, with the default parameters and the
default `CFG_VERSION` and `CFG_COMMAND` (spec/00_scope.md R6). -/
def decodeTableWord (nbits w : Nat) : Option Instr :=
  match tableLevel nbits with
  | none => none
  | some level =>
    match decode {} (Config.default {}) level (bytesOfNat (nbits / 8) w) with
    | .ok i => some i
    | .error _ => none

end Sys2Proof
end

