-- ==== Sys2Proof/Machine/State.lean ====
section
/-!
DEFINITION. The state of the block (spec/10_state.md R14 to R34), the reasons a step can stop, and reset.
The spec counts the configuration and the event output apart from its state (R13, R30); both are fields here
because a step of the host's interface takes and gives a state only (logs 3 and 9). `input` and `work` are the
model's own fields (logs 1 and 10).
-/
namespace Sys2Proof.Machine

/-- A byte space of the block: the elements that something has written, each with its index, in strictly
rising order. An index with no entry holds no value (spec/10_state.md R34, log 7). -/
abbrev Memory := List Host.Cell

/-- `SYNC_STATE` (R14). -/
inductive SyncState where
  /-- 0: no delimiter since reset. -/
  | hunt
  /-- 1: at least one delimiter since reset. -/
  | collect
  deriving DecidableEq, Repr

/-- The eight reject reasons (spec/60_exceptions.md R181), in the order of their codes 1 to 8. -/
inductive RejectCode where
  /-- 1 `BAD_VERSION`. -/
  | badVersion
  /-- 2 `INCOMPLETE`. -/
  | incomplete
  /-- 3 `BAD_COMMAND`. -/
  | badCommand
  /-- 4 `HDR_CHECKSUM`. -/
  | hdrChecksum
  /-- 5 `LENGTH`. -/
  | length
  /-- 6 `HIGH_BIT`. -/
  | highBit
  /-- 7 `FRAME_CHECKSUM`. -/
  | frameChecksum
  /-- 8 `FIELD_RANGE`. -/
  | fieldRange
  deriving DecidableEq, Repr

/-- `LAST_CODE`: exactly the nine values 0 to 8 (R22; spec/93_implementation_defined.md U2). -/
inductive ResultCode where
  /-- 0 `OK`. -/
  | ok
  /-- A reject reason. -/
  | rejected (r : RejectCode)
  deriving DecidableEq, Repr

/-- The event a step produces (R30). -/
inductive Event where
  /-- No candidate was evaluated. -/
  | none
  /-- A candidate was accepted. -/
  | accept
  /-- A candidate was rejected. -/
  | reject (r : RejectCode)
  deriving DecidableEq, Repr

/-- `DIAG_KIND` (R29). -/
inductive DiagKind where
  /-- 0: the header checksum. -/
  | header
  /-- 1: the checksum of a wire frame. -/
  | frame
  deriving DecidableEq, Repr

/-- The diagnostics a checksum reject carries (spec/44_field_mapper.md R168). -/
structure Diag where
  /-- The computed checksum. -/
  exp : Septet
  /-- The stored checksum byte. -/
  act : Byte
  /-- Header or wire frame. -/
  kind : DiagKind
  /-- The index of the wire frame, 0 for the header. -/
  idx : Byte
  deriving DecidableEq, Repr

/-- One field value register `FV[k]` (R21). -/
structure FieldVal where
  /-- `FV[k].PRESENT`. -/
  present : Bool
  /-- `FV[k].RAW`. -/
  raw : Int
  deriving DecidableEq, Repr

/-- The value of an inactive slot and of every slot after reset (R21, R34). -/
def FieldVal.absent : FieldVal := ⟨false, 0⟩

/-- What the host presents at the input ports for one step (R12). -/
structure Sample where
  /-- `rst`. -/
  rst : Bool := false
  /-- `in_valid`. -/
  inValid : Bool := false
  /-- `in_byte`. -/
  inByte : Byte := 0#8
  /-- `cfg_version`, `cfg_command`, `cfg_ft[k]`: `none` where the host leaves them as they are. -/
  cfg : Option Config := none
  deriving DecidableEq, Repr

/-- The outputs of one step (R30, R31). -/
structure Output where
  /-- The event behind `evt_valid`, `evt_ok` and `evt_code`. -/
  event : Event := .none
  /-- `hdr_ok`. -/
  hdrOk : Bool := false
  deriving DecidableEq, Repr

/-- The intermediate values of one evaluation (R32): none of them outlives the step (log 10). -/
structure Work where
  /-- The latest result of `CKSUM`; `CKSUM([])` when idle. -/
  ck : Septet := 0x7F#7
  /-- The decoded bytes `D` so far (spec/20_memory.md R42). -/
  d : List Byte := []
  /-- The field values so far, slot 0 first (spec/44_field_mapper.md R168). -/
  fv : List FieldVal := []
  deriving DecidableEq, Repr

/-- The state of the block. -/
structure State where
  /-- The size parameters (spec/00_scope.md R6), which nothing writes. -/
  params : Params
  /-- The configuration inputs (R13), which no operation writes. -/
  cfg : Config
  /-- `SYNC_STATE` (R14). -/
  syncState : SyncState
  /-- `LEN` (R15), `params.lenW` bits wide: that it fits them is part of the buffer invariant (log 17). -/
  len : Nat
  /-- `RB` (R16). -/
  rb : Memory
  /-- `RES_VALID` (R18). -/
  resValid : Bool
  /-- `RES_DST` (R19). -/
  resDst : Half
  /-- `RES_SRC` (R19). -/
  resSrc : Half
  /-- `RES_VER` (R19). -/
  resVer : Byte
  /-- `RES_CMD` (R19). -/
  resCmd : Half
  /-- `RES_N` (R19). -/
  resN : Byte
  /-- `RES_HCK` (R19). -/
  resHck : Byte
  /-- `RES_DBLEN` (R20). -/
  resDbLen : BitVec 10
  /-- `RES_DB` (R20). -/
  resDb : Memory
  /-- `FV` (R21), slot 0 first. -/
  fv : List FieldVal
  /-- `LAST_CODE` (R22). -/
  lastCode : ResultCode
  /-- `CAND_SEEN` (R23). -/
  candSeen : Bool
  /-- `DIAG_EXP` (R27). -/
  diagExp : Septet
  /-- `DIAG_ACT` (R28). -/
  diagAct : Byte
  /-- `DIAG_KIND` (R29). -/
  diagKind : DiagKind
  /-- `DIAG_IDX` (R29). -/
  diagIdx : Byte
  /-- The outputs of the latest step (R30, R31). -/
  out : Output
  /-- The model's own: the intermediate values of an evaluation (R32, log 10). -/
  work : Work
  /-- The model's own: what the host presents, the first sample at the ports now (R11, log 1). -/
  input : List Sample
  deriving DecidableEq, Repr

/-- Why the block stops. -/
inductive Fault where
  /-- Raised by the evaluation of a candidate that reads an element of `RB` which nothing has written, or one
  beyond the valid part of `RB`: "reading one would be a modelling error, not a behaviour of the block"
  (R34). Safe: no state that a run reaches raises it (the buffer invariant of Sys2Proof/Safety.lean). -/
  | recordByteUnwritten
  deriving DecidableEq, Repr

/-- Why the model gives no meaning. -/
inductive Refusal where
  /-- Raised by a dispatch arm of an operation with no meaning yet. Safe. No arm answers it. -/
  | notModelled (mnemonic : String)
  /-- Raised by a step out of reset, and by an evaluation, under an ill-formed configuration, to which
  spec/30_encoding.md R80 gives no behaviour at all. Safe. -/
  | illFormedConfig
  /-- Raised by a step with `rst = 0` in which the host changes the configuration inputs, which has no
  defined effect (spec/70_reset_and_hazards.md R215; spec/93_implementation_defined.md U6). Safe. -/
  | configChangedOutOfReset
  deriving DecidableEq, Repr

/-- Every piece of state at its reset value (R34), for a block of parameters `p` under configuration `c`,
with `input` still to come. `RB` and `RES_DB` are unspecified after reset: nothing is listed (log 7). -/
def State.resetWith (p : Params) (c : Config) (input : List Sample) : State where
  params := p
  cfg := c
  syncState := .hunt
  len := 0
  rb := []
  resValid := false
  resDst := 0#16
  resSrc := 0#16
  resVer := 0#8
  resCmd := 0#16
  resN := 0#8
  resHck := 0#8
  resDbLen := 0#10
  resDb := []
  fv := List.replicate p.numFields .absent
  lastCode := .ok
  candSeen := false
  diagExp := 0#7
  diagAct := 0#8
  diagKind := .header
  diagIdx := 0#8
  out := {}
  work := {}
  input := input

/-- The machine right after reset (R34), with the default parameters and configuration (log 4) and nothing
presented at the ports yet (log 2). -/
def State.reset : State := State.resetWith {} (Config.default {}) []

end Sys2Proof.Machine
end

