-- ==== Sys2Proof/Machine/Flags.lean ====
section
/-!
DEFINITION. The numbers behind the named codes, the output ports of a step and the packed status view
(spec/60_exceptions.md R181; spec/10_state.md R24, R29 to R31). The block has no condition codes and no flag
that one operation sets for another (R25): everything here is read by the host only, but for `SYNC_STATE`.
-/
namespace Sys2Proof.Machine

/-- The code of a reject reason, 1 to 8 (R181). -/
def RejectCode.num : RejectCode → BitVec 4
  | .badVersion => 1#4
  | .incomplete => 2#4
  | .badCommand => 3#4
  | .hdrChecksum => 4#4
  | .length => 5#4
  | .highBit => 6#4
  | .frameChecksum => 7#4
  | .fieldRange => 8#4

/-- `hdr_ok` of a rejected candidate: codes 1 to 5 have 0, codes 6 to 8 have 1 (R181, R31). -/
def RejectCode.headerPassed : RejectCode → Bool
  | .badVersion => false
  | .incomplete => false
  | .badCommand => false
  | .hdrChecksum => false
  | .length => false
  | .highBit => true
  | .frameChecksum => true
  | .fieldRange => true

/-- `LAST_CODE` as its four bits (R22). -/
def ResultCode.num : ResultCode → BitVec 4
  | .ok => 0#4
  | .rejected r => r.num

/-- `evt_valid` (R30). -/
def Event.valid : Event → Bool
  | .none => false
  | .accept => true
  | .reject _ => true

/-- `evt_ok` (R30). -/
def Event.ok : Event → Bool
  | .none => false
  | .accept => true
  | .reject _ => false

/-- `evt_code` (R30). -/
def Event.code : Event → BitVec 4
  | .none => 0#4
  | .accept => 0#4
  | .reject r => r.num

/-- `DIAG_KIND` as its bit (R29). -/
def DiagKind.bit : DiagKind → BitVec 1
  | .header => 0#1
  | .frame => 1#1

/-- `SYNC_STATE` as its bit (R14), which is also `STATUS.SYNCED` (R24). -/
def SyncState.bit : SyncState → BitVec 1
  | .hunt => 0#1
  | .collect => 1#1

/-- `STATUS` (R24): bits 3:0 `LAST_CODE`, 4 `CAND_SEEN`, 5 `RES_VALID`, 6 `SYNCED`, 7 reads 0. -/
def State.status (s : State) : BitVec 8 :=
  0#1 ++ s.syncState.bit ++ BitVec.ofBool s.resValid ++ BitVec.ofBool s.candSeen ++ s.lastCode.num

end Sys2Proof.Machine
end

