-- ==== Sys2Proof/Machine/Ops.lean ====
section
/-!
DEFINITION. The shared operations: the byte spaces, the end of a step, what a rejection and an acceptance
write (spec/60_exceptions.md R190, R191), reset (spec/70_reset_and_hazards.md R210), and how the checks of one
evaluation follow one another (R192). The rejection is the block's exception: `takeReject` is the one entry, and
there is nothing to return from (R194).
-/
namespace Sys2Proof.Machine

/-! ### Byte spaces (spec/20_memory.md R40) -/

/-- The canonical form: indices strictly rising. No value is read where nothing is listed, so no entry can
equal what an unlisted index reads as. -/
abbrev Memory.wf (m : Memory) : Prop := m.Pairwise (fun x y => x.1 < y.1)

/-- The byte at an index, `none` where nothing has been written (log 7). -/
def Memory.read : Memory → Nat → Option Byte
  | [], _ => none
  | (x, b) :: m, a => if a = x then some b else Memory.read m a

/-- `x[a] <- b` (spec/00_scope.md R8), keeping the canonical form. -/
def Memory.write : Memory → Nat → Byte → Memory
  | [], a, b => [(a, b)]
  | (x, c) :: m, a, b =>
    if a < x then (a, b) :: (x, c) :: m
    else if a = x then (a, b) :: m
    else (x, c) :: Memory.write m a b

/-- The bytes `m[a..a+n)`, `none` if one of them was never written. -/
def Memory.readRange (m : Memory) : Nat → Nat → Option (List Byte)
  | _, 0 => some []
  | a, n + 1 =>
    match Memory.read m a, Memory.readRange m (a + 1) n with
    | some b, some rest => some (b :: rest)
    | _, _ => none

/-- `m[a + i] <- bytes[i]` for every `i` (R191). -/
def Memory.writeRange : Memory → Nat → List Byte → Memory
  | m, _, [] => m
  | m, a, b :: rest => Memory.writeRange (Memory.write m a b) (a + 1) rest

/-! ### The end of a step -/

/-- What every step ends with: its outputs stand at the ports (R30), no intermediate value of it is left
(R32), and the next sample of the host is at the input ports (R11). -/
def endStep (o : Output) (s : State) : State := { s with out := o, work := {}, input := s.input.tail }

/-- The output of a step that evaluates no candidate: `NONE` (R30). -/
def silent : Output := {}

/-- The diagnostic registers of a checksum reject (R27 to R29); other rejects leave them. -/
def writeDiag (diag : Option Diag) (s : State) : State :=
  match diag with
  | none => s
  | some d => { s with diagExp := d.exp, diagAct := d.act, diagKind := d.kind, diagIdx := d.idx }

/-- Reject entry (R190), the one place where a rejection takes effect. -/
def takeReject (code : RejectCode) (diag : Option Diag) (s : State) : State :=
  endStep ⟨.reject code, code.headerPassed⟩
    (writeDiag diag { s with lastCode := .rejected code, candSeen := true, len := 0 })

/-- Accept entry (R191): the header `h`, the decoded bytes `d` and the field values `fv` are latched whole. -/
def takeAccept (h : Header) (d : List Byte) (fv : List FieldVal) (s : State) : State :=
  endStep ⟨.accept, true⟩
    { s with
      resValid := true
      resDst := h.dst
      resSrc := h.src
      resVer := h.ver
      resCmd := h.cmd
      resN := h.n
      resHck := h.hck
      resDbLen := BitVec.ofNat 10 (dataPerFrame * h.n.toNat)
      resDb := Memory.writeRange s.resDb 0 d
      fv := fv
      lastCode := .ok
      candSeen := true
      len := 0 }

/-! ### One check after another (R192) -/

/-- Where an operation leaves the evaluation of a candidate: it goes on, or it has ended (by a rejection, an
acceptance or a stop). -/
inductive Progress where
  /-- The check passed, or the operation has no check: the next operation runs in this state. -/
  | goOn (s : State)
  /-- The evaluation has ended: no further operation runs (`raise Reject`, spec/00_scope.md R8). -/
  | ended (o : Host.Outcome State Fault Refusal)

/-- The next operation runs only if the evaluation has not ended (R192). -/
def Progress.andThen (p : Progress) (next : State → Progress) : Progress :=
  match p with
  | .goOn s => next s
  | .ended o => .ended o

/-- The outcome of an operation run by itself, and of a finished evaluation. -/
def Progress.outcome : Progress → Host.Outcome State Fault Refusal
  | .goOn s => .next s
  | .ended o => o

/-- `raise Reject(code)` (spec/00_scope.md R8). -/
def raiseReject (code : RejectCode) (diag : Option Diag) (s : State) : Progress :=
  .ended (.next (takeReject code diag s))

/-! ### The input ports (spec/10_state.md R12) -/

/-- A sample that presents one byte. -/
def Sample.byte (b : Byte) : Sample := { inValid := true, inByte := b }

/-- What is at the input ports: the first sample, and `in_valid = 0` when the host presents nothing more. -/
def State.presented (s : State) : Sample := s.input.headD {}

/-- The configuration inputs in the step of a sample. -/
def Sample.config (p : Sample) (current : Config) : Config := p.cfg.getD current

/-- A step with `rst = 1` (spec/70_reset_and_hazards.md R210): every piece of state takes its reset value under
the configuration presented with it (R215); the byte at the port, if any, is lost (U8). -/
def resetStep (p : Sample) (s : State) : State :=
  State.resetWith s.params (p.config s.cfg) s.input.tail

end Sys2Proof.Machine
end

