-- ==== Sys2Proof/Machine/Operands.lean ====
section
/-!
DEFINITION. How the operations find their operands: the valid part of the record buffer, the head, the header
and the payload in it (spec/20_memory.md R41, R51, R58), the bytes of a field in the decoded bytes and the
integers they stand for (R45; spec/44_field_mapper.md R162, R164).
-/
namespace Sys2Proof.Machine

/-- The valid part of `RB` is `RB[0 .. min(LEN, RB_CAP))` (R41). -/
def State.validLen (s : State) : Nat := min s.len s.params.rbCap

/-- The bytes `RB[a..a+n)`, only inside the valid part (R48). -/
def State.rbRange (s : State) (a n : Nat) : Option (List Byte) :=
  if a + n ≤ s.validLen then Memory.readRange s.rb a n else none

/-- The head of the candidate: its first 9 bytes, or all of a shorter one (R51). -/
def State.fetchHead (s : State) : Option HeaderHead :=
  match s.rbRange 0 (min hdrLen s.validLen) with
  | none => none
  | some bytes => (parseHead bytes).toOption

/-- The header of the candidate, `c[0..9)` (R51). -/
def State.fetchHeader (s : State) : Option Header :=
  match s.rbRange 0 hdrLen with
  | none => none
  | some bytes => (parseHeader bytes).toOption

/-- The payload of the candidate, `c[9 .. 9+6N)` (R51; spec/42_header_validator.md R126). -/
def State.fetchPayload (s : State) (n : Byte) : Option (List Byte) := s.rbRange hdrLen (frameLen * n.toNat)

/-- `LE(s)`, the unsigned little-endian value of a byte sequence (spec/00_scope.md R7). -/
def leValue : List Byte → Nat
  | [] => 0
  | b :: rest => b.toNat + 256 * leValue rest

/-- `sext_N(v)` (spec/00_scope.md R8): what the `N`-bit pattern `v` denotes in two's complement. -/
def signExtend (bits v : Nat) : Int := if 2 ^ (bits - 1) ≤ v then (v : Int) - 2 ^ bits else v

/-- Where a field ends: `OFFSET + LENGTH` (spec/44_field_mapper.md R163). -/
def fieldEnd (f : Field) : Nat := f.offset.toNat + f.length.toNat

/-- `MemRead(D, OFFSET, LENGTH)` (spec/00_scope.md R8). -/
def fieldBits (f : Field) (d : List Byte) : Nat := leValue ((d.drop f.offset.toNat).take f.length.toNat)

/-- `REQ_BYTES` (spec/44_field_mapper.md R163): how far the active fields reach, 0 if there is none. -/
def reqBytes : List DescWord → Nat
  | [] => 0
  | w :: rest => max (if descValid w then fieldEnd (descField w) else 0) (reqBytes rest)

end Sys2Proof.Machine
end

