-- ==== Sys2Proof/Machine/FieldMapper.lean ====
section
/-!
DEFINITION. The field mapper (spec/44_field_mapper.md): the range check over all active fields, one integer
for each of them, and the final value the reader forms.
-/
namespace Sys2Proof.Machine

/-- The range check (R163): every active field lies inside the decoded bytes. -/
def rangeOp (s : State) : Progress :=
  if s.work.d.length < reqBytes s.cfg.ft then raiseReject .fieldRange none s else .goOn s

/-- The next slot of the field map takes a value (R168); the slot index is the number of values before it
(log 15). -/
def pushField (v : FieldVal) (s : State) : State :=
  { s with work := { s.work with fv := s.work.fv ++ [v] } }

/-- A field that lies inside the decoded bytes gives its value; one that does not rejects the candidate with
code 8 before any byte of it is read (spec/20_memory.md R48, log 14). -/
def readField (f : Field) (raw : Int) (s : State) : Progress :=
  if fieldEnd f ≤ s.work.d.length then .goOn (pushField ⟨true, raw⟩ s) else raiseReject .fieldRange none s

/-- `FIELD.U` (R162): the unsigned little-endian integer. -/
def fieldUOp (f : Field) (s : State) : Progress := readField f (fieldBits f s.work.d) s

/-- `FIELD.S` (R164): the same bits in two's complement over `8*LENGTH` bits. -/
def fieldSOp (f : Field) (s : State) : Progress :=
  readField f (signExtend (8 * f.length.toNat) (fieldBits f s.work.d)) s

/-- One slot of the field table (R161, R168): an inactive slot yields `PRESENT = 0`, `RAW = 0`. -/
def slotOp (w : DescWord) (s : State) : Progress :=
  if descValid w = false then .goOn (pushField .absent s)
  else match decodeDescriptor s.params w with
    | .ok (.fieldU f) => fieldUOp f s
    | .ok (.fieldS f) => fieldSOp f s
    | _ => .ended (.refused .illFormedConfig)

/-- The slots in index order (R168). -/
def slotsOp : List DescWord → State → Progress
  | [], s => .goOn s
  | w :: rest, s => (slotOp w s).andThen fun s => slotsOp rest s

/-- The field mapper: the range check, then every slot; the field map starts empty. -/
def mapperOp (s : State) : Progress :=
  (rangeOp s).andThen fun s => slotsOp s.cfg.ft { s with work := { s.work with fv := [] } }

/-- `FIELD.U` by itself. -/
def execFieldU (f : Field) (s : State) : Host.Outcome State Fault Refusal := (fieldUOp f s).outcome

/-- `FIELD.S` by itself. -/
def execFieldS (f : Field) (s : State) : Host.Outcome State Fault Refusal := (fieldSOp f s).outcome

/-- The final value of a field, `RAW * FNUM / FDEN`, an exact rational (R165). -/
def scaledValue (raw : Int) (w : DescWord) : Rat :=
  mkRat (raw * (descFnum w).toNat) (descFden w).toNat

/-- The final value of slot `k` as the reader of `FV` forms it, `none` for a slot that is not present
(R165, R167). -/
def State.fieldValue (s : State) (k : Nat) : Option Rat :=
  match s.fv[k]?, s.cfg.ft[k]? with
  | some v, some w => if v.present then some (scaledValue v.raw w) else none
  | _, _ => none

end Sys2Proof.Machine
end

