-- ==== Sys2Proof/Machine/Checksum.lean ====
section
/-!
DEFINITION. The checksum engine (spec/40_checksum.md).
-/
namespace Sys2Proof.Machine

/-- One byte into the 8-bit accumulator: subtract, then mask to 7 bits (R90). -/
def cksumStep (acc b : Byte) : Byte := (acc - b) &&& ckMask

/-- `CKSUM(s)` (R90). -/
def cksum (bytes : List Byte) : Septet := septetOf (bytes.foldl cksumStep ckInit)

/-- `CKSUM` as `HV4` and `FRAMECK` invoke it: its result is an intermediate value of the evaluation (R90). -/
def cksumOp (bytes : List Byte) (s : State) : State := { s with work := { s.work with ck := cksum bytes } }

/-- `CKSUM` (R90). -/
def execCksum (bytes : List Byte) (s : State) : Host.Outcome State Fault Refusal := .next (cksumOp bytes s)

end Sys2Proof.Machine
end

