-- ==== Sys2Proof/Machine/HeaderValidator.lean ====
section
/-!
DEFINITION. The header validator (spec/42_header_validator.md): five checks, each a rejection if it fails and
nothing written if it passes, and the two record kinds the block ignores (spec/30_encoding.md R65).
-/
namespace Sys2Proof.Machine

/-- `HV1` (R121): byte 4 must be `CFG_VERSION`. -/
def hv1Op (h : HeaderHead) (s : State) : Progress :=
  if h.ver = s.cfg.version then .goOn s else raiseReject .badVersion none s

/-- `HV2` (R122): the candidate must have 9 bytes; its length is `LEN`. -/
def hv2Op (_h : HeaderHead) (s : State) : Progress :=
  if s.len < hdrLen then raiseReject .incomplete none s else .goOn s

/-- `HV3` (R123): bytes 5 and 6, little-endian, must be `CFG_COMMAND`. -/
def hv3Op (h : Header) (s : State) : Progress :=
  if h.cmd = s.cfg.command then .goOn s else raiseReject .badCommand none s

/-- The comparison of `HV4` once `CKSUM` has run: the whole stored byte against the 7-bit result
(spec/40_checksum.md R93). -/
def hv4Compare (h : Header) (s : State) : Progress :=
  if h.hck = lowByte s.work.ck then .goOn s
  else raiseReject .hdrChecksum (some ⟨s.work.ck, h.hck, .header, 0#8⟩) s

/-- `HV4` (R124): byte 8 must be the checksum of bytes 0..7. -/
def hv4Op (h : Header) (s : State) : Progress := hv4Compare h (cksumOp h.covered s)

/-- `HV5` (R125): the length must be exactly `9 + 6*N`. -/
def hv5Op (h : Header) (s : State) : Progress :=
  if s.len = hdrLen + frameLen * h.n.toNat then .goOn s else raiseReject .length none s

/-- `HV1` by itself. -/
def execHv1 (h : HeaderHead) (s : State) : Host.Outcome State Fault Refusal := (hv1Op h s).outcome

/-- `HV2` by itself. -/
def execHv2 (h : HeaderHead) (s : State) : Host.Outcome State Fault Refusal := (hv2Op h s).outcome

/-- `HV3` by itself. -/
def execHv3 (h : Header) (s : State) : Host.Outcome State Fault Refusal := (hv3Op h s).outcome

/-- `HV4` by itself. -/
def execHv4 (h : Header) (s : State) : Host.Outcome State Fault Refusal := (hv4Op h s).outcome

/-- `HV5` by itself. -/
def execHv5 (h : Header) (s : State) : Host.Outcome State Fault Refusal := (hv5Op h s).outcome

/-- `OTHERCMD`: rejected with code 3, no other effect (spec/30_encoding.md R65, R77). -/
def execOthercmd (_h : Header) (s : State) : Host.Outcome State Fault Refusal :=
  .next (takeReject .badCommand none s)

/-- `OTHERVER`: rejected with code 1, no other effect (spec/30_encoding.md R65, R77). -/
def execOtherver (_h : HeaderHead) (s : State) : Host.Outcome State Fault Refusal :=
  .next (takeReject .badVersion none s)

end Sys2Proof.Machine
end

