-- ==== Sys2Proof/Machine/PayloadDecoder.lean ====
section
/-!
DEFINITION. The payload decoder (spec/43_payload_decoder.md): the scan of the whole payload for bit 7, then
for each wire frame its checksum and its septet reversal.
-/
namespace Sys2Proof.Machine

/-- `HIGHSCAN` (R141): no byte of the payload is 0x80 or more. -/
def highscanOp (payload : List Byte) (s : State) : Progress :=
  if payload.any (·.getLsbD 7) then raiseReject .highBit none s else .goOn s

/-- The index `i` of the wire frame that is next: every frame before it has given four decoded bytes
(R144, log 15). -/
def frameIndex (s : State) : Nat := s.work.d.length / dataPerFrame

/-- The comparison of `FRAMECK` once `CKSUM` has run. -/
def frameckCompare (w : Frame) (s : State) : Progress :=
  if w.fck = s.work.ck then .goOn s
  else raiseReject .frameChecksum (some ⟨s.work.ck, lowByte w.fck, .frame, BitVec.ofNat 8 (frameIndex s)⟩) s

/-- `FRAMECK` (R142): byte 5 of the wire frame must be the checksum of bytes 0..4. -/
def frameckOp (w : Frame) (s : State) : Progress := frameckCompare w (cksumOp w.covered s)

/-- One lane of `UNPACK`: the data byte with bit 7 from its mask bit (R143). -/
def restoreByte (d : Septet) (bit7 : Bool) : Byte := BitVec.ofBool bit7 ++ d

/-- The four recovered bytes of a wire frame (R143; spec/30_encoding.md R67). -/
def unpackBytes (w : Frame) : List Byte :=
  [restoreByte w.d0 (w.mask.getLsbD 0), restoreByte w.d1 (w.mask.getLsbD 1),
   restoreByte w.d2 (w.mask.getLsbD 2), restoreByte w.d3 (w.mask.getLsbD 3)]

/-- `UNPACK` (R143, R144): the recovered bytes follow the decoded bytes. -/
def unpackOp (w : Frame) (s : State) : Progress :=
  .goOn { s with work := { s.work with d := s.work.d ++ unpackBytes w } }

/-- `FRAMECK` and `UNPACK` for each wire frame of a payload, in index order (R140, R144). A byte with bit 7 set
cannot be left here after `HIGHSCAN`; were it, R84 gives code 6 (log 22). -/
def framesOp : List Byte → State → Progress
  | b0 :: b1 :: b2 :: b3 :: b4 :: b5 :: rest, s =>
    match parseFrame [b0, b1, b2, b3, b4, b5] with
    | .ok w => ((frameckOp w s).andThen (unpackOp w)).andThen fun s => framesOp rest s
    | .error _ => raiseReject .highBit none s
  | _, s => .goOn s

/-- `PayloadDecode` (R144): `D` starts empty. -/
def payloadOp (payload : List Byte) (s : State) : Progress :=
  (highscanOp payload s).andThen fun s => framesOp payload { s with work := { s.work with d := [] } }

/-- `HIGHSCAN` by itself. -/
def execHighscan (payload : List Byte) (s : State) : Host.Outcome State Fault Refusal :=
  (highscanOp payload s).outcome

/-- `FRAMECK` by itself. -/
def execFrameck (w : Frame) (s : State) : Host.Outcome State Fault Refusal := (frameckOp w s).outcome

/-- `UNPACK` by itself. -/
def execUnpack (w : Frame) (s : State) : Host.Outcome State Fault Refusal := (unpackOp w s).outcome

end Sys2Proof.Machine
end

