-- ==== Sys2Proof/Machine/Evaluation.lean ====
section
/-!
DEFINITION. The evaluation of one candidate (spec/44_field_mapper.md R168) as the operations of
spec/30_encoding.md R75 in their fixed order, each run by its own meaning, the first rejection ending it
(spec/60_exceptions.md R192). Sys2Proof/Machine/Candidate.lean holds the same evaluation as one pure function.
-/
namespace Sys2Proof.Machine

/-- The end of an evaluation whose checks have all passed: the latch of R191. -/
def acceptOp (h : Header) (s : State) : Progress := .ended (.next (takeAccept h s.work.d s.work.fv s))

/-- From the accepted header on: the payload decoder, the field mapper, the latch (R168). -/
def bodyOp (h : Header) (s : State) : Progress :=
  match s.fetchPayload h.n with
  | none => .ended (.fault .recordByteUnwritten)
  | some payload => ((payloadOp payload s).andThen mapperOp).andThen (acceptOp h)

/-- From `HV3` on, once the candidate is known to have a whole header. -/
def headerOp (h : Header) (s : State) : Progress :=
  (((hv3Op h s).andThen (hv4Op h)).andThen (hv5Op h)).andThen (bodyOp h)

/-- The evaluation of a record whose header is `h`. -/
def recordOp (h : Header) (s : State) : Progress :=
  ((hv1Op h.head s).andThen (hv2Op h.head)).andThen (headerOp h)

/-- The evaluation of the candidate in the record buffer: `HV1` reads byte 4 before anything is known of the
length, `HV2` rejects a candidate with no whole header (spec/42_header_validator.md R121, R122). -/
def candidateOp (s : State) : Progress :=
  match s.fetchHead with
  | none => .ended (.fault .recordByteUnwritten)
  | some hd =>
    ((hv1Op hd s).andThen (hv2Op hd)).andThen fun s =>
      match s.fetchHeader with
      | none => .ended (.fault .recordByteUnwritten)
      | some h => headerOp h s

/-- An ill-formed configuration has no behaviour (spec/30_encoding.md R80). -/
def underConfig (s : State) (p : Progress) : Progress :=
  if configWf s.params s.cfg then p else .ended (.refused .illFormedConfig)

/-- `PUSH`: the whole evaluation of a record with this header (spec/30_encoding.md R65; R168). -/
def execPush (h : Header) (s : State) : Host.Outcome State Fault Refusal := (underConfig s (recordOp h s)).outcome

end Sys2Proof.Machine
end

