-- ==== Sys2Proof/Machine/Synchronizer.lean ====
section
/-!
DEFINITION. The frame synchronizer (spec/41_frame_sync.md): what the block does with each input byte.
-/
namespace Sys2Proof.Machine

/-- A byte joins the current segment (R104): it is stored while there is room, and `LEN` saturates at
`RB_CAP + 1`. -/
def appendByte (b : Byte) (s : State) : State :=
  { s with
    rb := if s.len < s.params.rbCap then Memory.write s.rb s.len b else s.rb
    len := if s.len ≤ s.params.rbCap then s.len + 1 else s.len }

/-- A byte that is no delimiter: discarded in `HUNT` (R102), appended in `COLLECT` (R104). -/
def dataByte (b : Byte) (s : State) : State :=
  match s.syncState with
  | .hunt => endStep silent s
  | .collect => endStep silent (appendByte b s)

/-- `SYNC`: the first delimiter opens the first segment (R103), a short segment is dropped (R105), a candidate
is evaluated (R106). -/
def execSync (s : State) : Host.Outcome State Fault Refusal :=
  match s.syncState with
  | .hunt => .next (endStep silent { s with syncState := .collect, len := 0 })
  | .collect =>
    if s.len < minSeg then .next (endStep silent { s with len := 0 })
    else (underConfig s (candidateOp s)).outcome

/-- `SEPTET`: a data byte with bit 7 clear (R102, R104). -/
def execSeptet (d : Septet) (s : State) : Host.Outcome State Fault Refusal := .next (dataByte (lowByte d) s)

/-- `HIGH`: a data byte with bit 7 set, treated exactly as `SEPTET` (R101). -/
def execHigh (x : Septet) (s : State) : Host.Outcome State Fault Refusal := .next (dataByte (highByte x) s)

end Sys2Proof.Machine
end

