-- ==== Sys2Proof/Machine/Dispatch.lean ====
section
/-!
DEFINITION. One arm per operation.
-/
namespace Sys2Proof.Machine

def exec (i : Instr) (s : State) : Host.Outcome State Fault Refusal :=
  match i with
  | .sync => Sys2Proof.Machine.execSync s
  | .septet d => Sys2Proof.Machine.execSeptet d s
  | .high x => Sys2Proof.Machine.execHigh x s
  | .cksum bytes => Sys2Proof.Machine.execCksum bytes s
  | .hv1 h => Sys2Proof.Machine.execHv1 h s
  | .hv2 h => Sys2Proof.Machine.execHv2 h s
  | .hv3 h => Sys2Proof.Machine.execHv3 h s
  | .hv4 h => Sys2Proof.Machine.execHv4 h s
  | .hv5 h => Sys2Proof.Machine.execHv5 h s
  | .push h => Sys2Proof.Machine.execPush h s
  | .othercmd h => Sys2Proof.Machine.execOthercmd h s
  | .otherver h => Sys2Proof.Machine.execOtherver h s
  | .highscan payload => Sys2Proof.Machine.execHighscan payload s
  | .frameck w => Sys2Proof.Machine.execFrameck w s
  | .unpack w => Sys2Proof.Machine.execUnpack w s
  | .fieldU f => Sys2Proof.Machine.execFieldU f s
  | .fieldS f => Sys2Proof.Machine.execFieldS f s

end Sys2Proof.Machine
end

