-- ==== Sys2Proof/Machine/Bench.lean ====
section
/-!
DEFINITION. The pseudo-operations of the test bench (spec/30_encoding.md R82). They build input; the block does
not perform them.
-/
namespace Sys2Proof.Machine

/-- The wire frame of `ENC4`: the mask is taken from bit 7 of the four data bytes (R82). -/
def encodeFrame (d0 d1 d2 d3 : Byte) : Frame :=
  let mask : BitVec 4 :=
    BitVec.ofBool (d3.getLsbD 7) ++ BitVec.ofBool (d2.getLsbD 7) ++ BitVec.ofBool (d1.getLsbD 7)
      ++ BitVec.ofBool (d0.getLsbD 7)
  let w : Frame := ⟨septetOf d0, septetOf d1, septetOf d2, septetOf d3, 0#3, mask, 0#7⟩
  { w with fck := cksum w.covered }

/-- `ENC4(d0,d1,d2,d3)` (R82). -/
def enc4 (d0 d1 d2 d3 : Byte) : List Byte := (encodeFrame d0 d1 d2 d3).bytes

/-- The header of `HDR(dst,src,ver,cmd,N)`, its checksum computed (R82). -/
def makeHeader (dst src : Half) (ver : Byte) (cmd : Half) (n : Byte) : Header :=
  let h : Header := ⟨dst, src, ver, cmd, n, 0#8⟩
  { h with hck := lowByte (cksum h.covered) }

/-- `ENC4` of each four bytes of `data`, in order (R82). -/
def encodePayload : List Byte → List Byte
  | d0 :: d1 :: d2 :: d3 :: rest => enc4 d0 d1 d2 d3 ++ encodePayload rest
  | _ => []

/-- `REC(dst,src,data)` under a configuration (R82): a well-formed `PUSH` candidate. -/
def record (c : Config) (dst src : Half) (data : List Byte) : List Byte :=
  (makeHeader dst src c.version c.command (BitVec.ofNat 8 (data.length / 4))).bytes ++ encodePayload data

/-- `STREAM(c1, c2, ...)` (R82). -/
def stream (candidates : List (List Byte)) : List Byte :=
  delim :: candidates.flatMap (· ++ [delim])

end Sys2Proof.Machine
end

