-- ==== Sys2Proof/Machine/Load.lean ====
section
/-!
DEFINITION. How a word of the opcode table is put where the next step runs it (log 2): a byte is presented at the
input port; a header, a wire frame or a descriptor is put where the closing delimiter's evaluation reads it, and
that delimiter is presented.
-/
namespace Sys2Proof.Machine

/-- `b` is the next byte at the input port. -/
def State.presentByte (b : Byte) (s : State) : State := { s with input := Sample.byte b :: s.input }

/-- The entries of a byte space that holds `bytes` from index `a` on. -/
def cellsFrom : Nat → List Byte → Memory
  | _, [] => []
  | a, b :: rest => (a, b) :: cellsFrom (a + 1) rest

/-- The bytes are the segment in progress, and its closing delimiter is the next byte at the input port. -/
def State.loadCandidate (bytes : List Byte) (s : State) : State :=
  State.presentByte delim { s with syncState := .collect, len := bytes.length, rb := cellsFrom 0 bytes }

/-- A wire frame as the payload of a record whose header is right. -/
def State.loadFrame (w : Nat) (s : State) : State :=
  s.loadCandidate ((makeHeader 0#16 0#16 s.cfg.version s.cfg.command 1#8).bytes ++ bytesOfNat frameLen w)

/-- Slot 0 of a field table. -/
def setFirstSlot (w : DescWord) : List DescWord → List DescWord
  | [] => []
  | _ :: rest => w :: rest

/-- How many wire frames a field needs, at most 255. -/
def framesFor (f : Field) : Nat := min 255 ((fieldEnd f + 3) / 4)

/-- A descriptor in slot 0 of the field table, and a record of zero bytes long enough for it. -/
def State.loadDescriptor (w : DescWord) (s : State) : State :=
  State.loadCandidate (record s.cfg 0#16 0#16 (List.replicate (4 * framesFor (descField w)) 0#8))
    { s with cfg := { s.cfg with ft := setFirstSlot w s.cfg.ft } }

/-- A table word of `nbits` bits put where the next step runs it. -/
def loadWord (s : State) (nbits w : Nat) : State :=
  match tableLevel nbits with
  | some .frameCheck => s.loadFrame w
  | some .descriptor => s.loadDescriptor (BitVec.ofNat 64 w)
  | some .record => s.loadCandidate (bytesOfNat hdrLen w)
  | _ => s.presentByte (BitVec.ofNat 8 w)

end Sys2Proof.Machine
end

