-- ==== Sys2Proof/Machine/Step.lean ====
section
/-!
DEFINITION. One step: what stands at the input ports is taken (spec/10_state.md R11, R12).
-/
namespace Sys2Proof.Machine

/-- One step. Reset wins over a byte (spec/70_reset_and_hazards.md R210; U8). Out of reset the configuration
must not change (R215; U6, log 5) and must be well-formed (spec/30_encoding.md R80, log 6). With `in_valid = 1` the
operation that the byte stands for runs; with `in_valid = 0` nothing happens (R11). -/
def step (s : State) : Host.Outcome State Fault Refusal :=
  if s.presented.rst then .next (resetStep s.presented s)
  else if s.presented.config s.cfg ≠ s.cfg then .refused .configChangedOutOfReset
  else if configWf s.params s.cfg = false then .refused .illFormedConfig
  else if s.presented.inValid then exec (decodeByte s.presented.inByte) s
  else .next (endStep silent s)

/-- `s` with a word of the opcode table where the next step runs it (log 2). -/
def State.withFetchWord (s : State) (nbits w : Nat) : State := loadWord s nbits w

end Sys2Proof.Machine
end

