-- ==== Sys2Proof/Machine/Candidate.lean ====
section
/-!
DEFINITION. `DecodeCandidate` (spec/44_field_mapper.md R168), "the architectural definition of what the block
does with one candidate", as a pure function of the parameters, the configuration and the candidate, written from
the pseudocode of R121 to R126, R141 to R144 and R161 to R168 with no state in it; `HeaderOk` (R127); and the
writes that its result makes (spec/60_exceptions.md R190, R191). The step does not run it: the refinement
obligation says that the operations of Sys2Proof/Machine/Evaluation.lean do what it says.
-/
namespace Sys2Proof.Machine

/-- A candidate (spec/20_memory.md R41): its length as counted, and the bytes that were kept. -/
structure Candidate where
  /-- `len(c)`. -/
  len : Nat
  /-- `c[i]` for every `i` below the buffer's capacity. -/
  bytes : List Byte
  deriving DecidableEq, Repr

/-- `Reject(code, diag)` (R168). -/
structure Rejection where
  /-- The reject reason. -/
  code : RejectCode
  /-- `diag`, present for codes 4 and 7. -/
  diag : Option Diag
  deriving DecidableEq, Repr

/-- `Accept(dst, src, ver, cmd, N, hck, D, fv)` (R168). -/
structure Acceptance where
  /-- The header fields. -/
  header : Header
  /-- `D`. -/
  d : List Byte
  /-- The field map. -/
  fv : List FieldVal
  deriving DecidableEq, Repr

/-- `c[i]`. -/
def Candidate.byte (c : Candidate) (i : Nat) : Byte := c.bytes.getD i 0#8

/-- The header fields of a candidate of 9 bytes or more (spec/30_encoding.md R64). -/
def Candidate.header (c : Candidate) : Header where
  dst := joinBytes (c.byte 0) (c.byte 1)
  src := joinBytes (c.byte 2) (c.byte 3)
  ver := c.byte 4
  cmd := joinBytes (c.byte 5) (c.byte 6)
  n := c.byte 7
  hck := c.byte 8

/-- `HeaderValidate` (R126): the five checks in order, then the payload. -/
def headerValidate (cfg : Config) (c : Candidate) : Except Rejection (List Byte) :=
  if c.byte 4 ≠ cfg.version then .error ⟨.badVersion, none⟩
  else if c.len < 9 then .error ⟨.incomplete, none⟩
  else if joinBytes (c.byte 5) (c.byte 6) ≠ cfg.command then .error ⟨.badCommand, none⟩
  else if c.byte 8 ≠ lowByte (cksum (c.bytes.take 8)) then
    .error ⟨.hdrChecksum, some ⟨cksum (c.bytes.take 8), c.byte 8, .header, 0#8⟩⟩
  else if c.len ≠ 9 + 6 * (c.byte 7).toNat then .error ⟨.length, none⟩
  else .ok ((c.bytes.drop 9).take (6 * (c.byte 7).toNat))

/-- `HeaderOk`, the document's `isValidHeader` (R127): false for fewer than 5 bytes. -/
def headerOk (cfg : Config) (c : Candidate) : Bool :=
  decide (minSeg ≤ c.len) && (headerValidate cfg c).isOk

/-- Wire frame `i` of a payload (R140). -/
def wireFrame (payload : List Byte) (i : Nat) : List Byte := (payload.drop (6 * i)).take 6

/-- Whether a wire frame's stored checksum is the computed one (R142). -/
def frameOk (w : List Byte) : Bool := w.getD 5 0#8 == lowByte (cksum (w.take 5))

/-- The four recovered bytes of a wire frame: `W[j] | (((mask >> j) & 1) << 7)` (R143). -/
def recoverBytes (w : List Byte) : List Byte :=
  (List.range 4).map fun j => w.getD j 0#8 ||| (((w.getD 4 0#8 >>> j) &&& 1#8) <<< 7)

/-- `PayloadDecode` (R144), all frames checked first: the lowest bad frame is the one reported (R142). -/
def payloadDecode (n : Nat) (payload : List Byte) : Except Rejection (List Byte) :=
  if payload.any (fun b => decide (0x80 ≤ b.toNat)) then .error ⟨.highBit, none⟩
  else match (List.range n).find? (fun i => !frameOk (wireFrame payload i)) with
    | some i =>
      .error ⟨.frameChecksum, some ⟨cksum ((wireFrame payload i).take 5), (wireFrame payload i).getD 5 0#8, .frame,
        BitVec.ofNat 8 i⟩⟩
    | none => .ok ((List.range n).flatMap fun i => recoverBytes (wireFrame payload i))

/-- The value of one slot of the field table (R161, R162, R164). -/
def slotValue (d : List Byte) (w : DescWord) : FieldVal :=
  if descValid w = false then .absent
  else if descSigned w then ⟨true, signExtend (8 * (descLength w).toNat) (fieldBits (descField w) d)⟩
  else ⟨true, fieldBits (descField w) d⟩

/-- `DecodeCandidate` (R168). -/
def decodeCandidate (cfg : Config) (c : Candidate) : Except Rejection Acceptance :=
  match headerValidate cfg c with
  | .error r => .error r
  | .ok payload =>
    match payloadDecode (c.byte 7).toNat payload with
    | .error r => .error r
    | .ok d =>
      if d.length < reqBytes cfg.ft then .error ⟨.fieldRange, none⟩
      else .ok ⟨c.header, d, cfg.ft.map (slotValue d)⟩

/-- What the result of an evaluation writes (R190, R191). -/
def applyResult (r : Except Rejection Acceptance) (s : State) : State :=
  match r with
  | .error r => takeReject r.code r.diag s
  | .ok a => takeAccept a.header a.d a.fv s

/-- The event of a result (R106). -/
def eventOf (r : Except Rejection Acceptance) : Event :=
  match r with
  | .error r => .reject r.code
  | .ok _ => .accept

/-- The candidate in the record buffer (spec/20_memory.md R41). -/
def State.candidate (s : State) : Option Candidate :=
  match s.rbRange 0 s.validLen with
  | none => none
  | some bytes => some ⟨s.len, bytes⟩

end Sys2Proof.Machine
end

