-- ==== Sys2Proof/Safety.lean ====
section
/-!
DEFINITION. The terms claims are stated in: what a good state of the block is (three invariants), what a
rejection and an acceptance write, said field by field from spec/60_exceptions.md R190 and R191 without the
operations that do it, and the events of a run.
-/
namespace Sys2Proof.Machine

/-! ### Invariants -/

/-- The sequencing state and the record buffer: `LEN` in its range (spec/10_state.md R15), 0 in `HUNT` (R14,
R15), every byte of the valid part written since the last delimiter and none of them a delimiter
(spec/20_memory.md R55; spec/30_encoding.md R62), nothing outside the buffer (R40), and no intermediate value of
an evaluation left (R32). -/
structure BufferInv (s : State) : Prop where
  /-- The parameters are in R6's ranges. -/
  params : s.params.wf
  /-- `LEN <= RB_CAP + 1`. -/
  lenBound : s.len ≤ s.params.rbCap + 1
  /-- So `LEN` fits its register of `LEN_W` bits (spec/00_scope.md R6). -/
  lenFits : s.len < 2 ^ s.params.lenW
  /-- `LEN` stays 0 in `HUNT`. -/
  huntEmpty : s.syncState = .hunt → s.len = 0
  /-- `RB` is in canonical form. -/
  canonical : Memory.wf s.rb
  /-- No element of `RB` lies outside it. -/
  inSpace : ∀ cell ∈ s.rb, cell.1 < s.params.rbCap
  /-- The valid part has been written, with no delimiter in it. -/
  written : ∀ a, a < s.validLen → ∃ b, Memory.read s.rb a = some b ∧ b ≠ delim
  /-- No evaluation is under way. -/
  idle : s.work = {}

/-- A field value fits its register (spec/10_state.md R21; spec/44_field_mapper.md R166). -/
def FieldVal.fits (p : Params) (v : FieldVal) : Prop :=
  -2 ^ (8 * p.maxFieldLen - 1) ≤ v.raw ∧ v.raw < 2 ^ (8 * p.maxFieldLen) ∧ (v.present = false → v.raw = 0)

/-- The result, status and diagnostic registers (spec/10_state.md R18 to R23, R27 to R29). -/
structure ResultInv (s : State) : Prop where
  /-- `RES_DB` is in canonical form. -/
  canonical : Memory.wf s.resDb
  /-- No element of `RES_DB` lies outside it. -/
  inSpace : ∀ cell ∈ s.resDb, cell.1 < s.params.dbCap
  /-- `RES_DBLEN = 4 * RES_N`. -/
  lenOfN : s.resDbLen.toNat = 4 * s.resN.toNat
  /-- Every decoded byte below `RES_DBLEN` is there. -/
  written : ∀ a, a < s.resDbLen.toNat → (Memory.read s.resDb a).isSome
  /-- One field value register per slot. -/
  slots : s.fv.length = s.params.numFields
  /-- Every field value fits its register. -/
  fits : ∀ v ∈ s.fv, v.fits s.params
  /-- `RES_HCK < 0x80`. -/
  hckLow : s.resHck.toNat < 0x80
  /-- A latched record is a `PUSH` record of this configuration, and its present fields are the active ones. -/
  pushed : s.resValid = true →
    s.resVer = s.cfg.version ∧ s.resCmd = s.cfg.command ∧ s.candSeen = true ∧
      s.fv.map (·.present) = s.cfg.ft.map descValid
  /-- While nothing has been accepted the result registers hold their reset values. -/
  unlatched : s.resValid = false →
    s.resDst = 0#16 ∧ s.resSrc = 0#16 ∧ s.resVer = 0#8 ∧ s.resCmd = 0#16 ∧ s.resN = 0#8 ∧ s.resHck = 0#8 ∧
      s.fv = List.replicate s.params.numFields .absent
  /-- While nothing has been evaluated `LAST_CODE` is 0. -/
  unseen : s.candSeen = false → s.lastCode = .ok
  /-- The header's diagnostics have index 0, a wire frame's stored checksum has bit 7 clear. -/
  diag : (s.diagKind = .header → s.diagIdx = 0#8) ∧ (s.diagKind = .frame → s.diagAct.toNat < 0x80)

/-- What the host owes the block (spec/70_reset_and_hazards.md R215): the configuration is well-formed, and is
changed only in a step with `rst = 1`, to a well-formed one. -/
structure HostInv (s : State) : Prop where
  /-- The configuration in force is well-formed. -/
  now : configWf s.params s.cfg = true
  /-- So is every configuration still to be presented, and each comes with reset. -/
  later : ∀ p ∈ s.input, ∀ c, p.cfg = some c → p.rst = true ∧ configWf s.params c = true

/-! ### What the two ends of an evaluation write -/

/-- Reject entry, field by field (spec/60_exceptions.md R190, `hdr_ok` as spec/10_state.md R31 says): every field
not named is unchanged. -/
def RejectWrites (code : RejectCode) (diag : Option Diag) (s t : State) : Prop :=
  t = { s with
    lastCode := .rejected code
    candSeen := true
    diagExp := (diag.map (·.exp)).getD s.diagExp
    diagAct := (diag.map (·.act)).getD s.diagAct
    diagKind := (diag.map (·.kind)).getD s.diagKind
    diagIdx := (diag.map (·.idx)).getD s.diagIdx
    len := 0
    out := ⟨.reject code, decide (6 ≤ code.num.toNat)⟩
    work := {}
    input := s.input.tail }

/-- Accept entry, field by field (spec/60_exceptions.md R191): `RES_DB` holds the decoded bytes and is otherwise
unchanged, and so is every field not named. -/
def AcceptWrites (h : Header) (d : List Byte) (fv : List FieldVal) (s t : State) : Prop :=
  t = { s with
    resValid := true
    resDst := h.dst
    resSrc := h.src
    resVer := h.ver
    resCmd := h.cmd
    resN := h.n
    resHck := h.hck
    resDbLen := t.resDbLen
    resDb := t.resDb
    fv := fv
    lastCode := .ok
    candSeen := true
    len := 0
    out := ⟨.accept, true⟩
    work := {}
    input := s.input.tail } ∧
  t.resDbLen.toNat = 4 * h.n.toNat ∧
  (∀ i, i < d.length → Memory.read t.resDb i = d[i]?) ∧
  (∀ i, d.length ≤ i → Memory.read t.resDb i = Memory.read s.resDb i)

/-- The end of a step that evaluates no candidate: nothing but the ports and the model's own fields moves
(spec/10_state.md R30, R32). -/
def SilentEnd (s t : State) : Prop :=
  t = { s with out := {}, work := {}, input := s.input.tail }

/-! ### Reset -/

/-- Every piece of state at the value spec/10_state.md R34 states for it. `RB` and `RES_DB` have none there. -/
def ResetValues (t : State) : Prop :=
  t.syncState = .hunt ∧ t.len = 0 ∧ t.resValid = false ∧
  t.resDst = 0#16 ∧ t.resSrc = 0#16 ∧ t.resVer = 0#8 ∧ t.resCmd = 0#16 ∧ t.resN = 0#8 ∧ t.resHck = 0#8 ∧
  t.resDbLen = 0#10 ∧
  t.fv.length = t.params.numFields ∧ (∀ v ∈ t.fv, v.present = false ∧ v.raw = 0) ∧
  t.lastCode.num = 0#4 ∧ t.candSeen = false ∧ t.status = 0x00#8 ∧
  t.diagExp = 0#7 ∧ t.diagAct = 0#8 ∧ t.diagKind.bit = 0#1 ∧ t.diagIdx = 0#8 ∧
  t.out.event.valid = false ∧ t.out.event.ok = false ∧ t.out.event.code = 0#4 ∧ t.out.hdrOk = false

/-! ### A candidate at its closing delimiter -/

/-- The block, configured well, collects a segment of 5 bytes or more, whose bytes are the candidate `c`: the next
delimiter evaluates it (spec/41_frame_sync.md R106). -/
structure AtClosing (s : State) (c : Candidate) : Prop where
  /-- The configuration is well-formed (R80). -/
  config : configWf s.params s.cfg = true
  /-- A delimiter has been seen. -/
  collecting : s.syncState = .collect
  /-- The segment is a candidate. -/
  long : 5 ≤ s.len
  /-- `LEN` is in its range (R15). -/
  bound : s.len ≤ s.params.rbCap + 1
  /-- The candidate is in the record buffer. -/
  candidate : s.candidate = some c

/-- Wire frame `i` of a candidate has a stored checksum other than the computed one (spec/43_payload_decoder.md R142). -/
def frameBad (c : Candidate) (i : Nat) : Bool :=
  decide ((c.byte (9 + 6 * i + 5)).toNat ≠ (cksum ((List.range 5).map fun j => c.byte (9 + 6 * i + j))).toNat)

/-- The first check that a candidate fails, in the order of spec/60_exceptions.md R192, each check said from the
candidate's bytes (R181); `none` if it passes all. -/
def firstFailure (cfg : Config) (c : Candidate) : Option RejectCode :=
  if c.byte 4 ≠ cfg.version then some .badVersion
  else if c.len < 9 then some .incomplete
  else if (c.byte 5).toNat + 256 * (c.byte 6).toNat ≠ cfg.command.toNat then some .badCommand
  else if (c.byte 8).toNat ≠ (cksum ((List.range 8).map c.byte)).toNat then some .hdrChecksum
  else if c.len ≠ 9 + 6 * (c.byte 7).toNat then some .length
  else if (List.range (6 * (c.byte 7).toNat)).any (fun k => decide (0x80 ≤ (c.byte (9 + k)).toNat)) then some .highBit
  else if (List.range (c.byte 7).toNat).any (frameBad c) then some .frameChecksum
  else if cfg.ft.any (fun w => descValid w &&
      decide (4 * (c.byte 7).toNat < (descOffset w).toNat + (descLength w).toNat)) then some .fieldRange
  else none

/-! ### Runs -/

/-- The candidate that a whole segment becomes in the record buffer (spec/41_frame_sync.md R104, R106): its length
saturates at `RB_CAP + 1` and its first `RB_CAP` bytes are kept. -/
def keptCandidate (p : Params) (segment : List Byte) : Candidate :=
  ⟨min segment.length (p.rbCap + 1), segment.take p.rbCap⟩

/-- The events of the first `n` steps, and the state after them; `none` if the block stops before. -/
def eventsOf : Nat → State → Option (List Event × State)
  | 0, s => some ([], s)
  | n + 1, s =>
    match step s with
    | .next t =>
      match eventsOf n t with
      | some (events, u) => some (t.out.event :: events, u)
      | none => none
    | .fault _ => none
    | .refused _ => none

/-- Operations one after another, each by its own meaning. -/
def runOps : List Instr → State → Host.Outcome State Fault Refusal
  | [], s => .next s
  | i :: rest, s =>
    match exec i s with
    | .next t => runOps rest t
    | .fault r => .fault r
    | .refused r => .refused r

/-- The block fresh from reset with a byte stream presented to it, one byte a step. -/
def freshStream (p : Params) (c : Config) (bytes : List Byte) : State :=
  State.resetWith p c (bytes.map Sample.byte)

end Sys2Proof.Machine
end

