-- ==== Sys2Proof/Certificates/Slice0/Obligations.lean ====
section
/-!
DEFINITION. The statements for the provers. Each docstring names the rules of spec/ that the statement says; where
a clause is the model's own, it names the log entry.
-/
open Sys2Proof Sys2Proof.Machine

/-! ### Reset and the ports -/

/-- spec/70_reset_and_hazards.md R210 with spec/10_state.md R34: a step with `rst = 1` puts every piece of state to its
reset value and emits `NONE`, whatever the state was and whatever `in_valid` and `in_byte` are. The other clauses rest on
the model's own choices: the configuration is the one presented with the sample (R215; its form as `Sample.cfg`, log 5), the
parameters stay (log 18), and the sample alone leaves the port (logs 1 and 19). -/
def Obligations.ResetStepPutsEveryRegisterToItsResetValue : Prop :=
  (∀ s : State, s.presented.rst = true →
    ∃ t, step s = .next t ∧ ResetValues t ∧ t.params = s.params ∧ t.cfg = s.presented.config s.cfg ∧
      t.input = s.input.tail) ∧
  (∀ s s' : State, s.presented.rst = true → s'.presented.rst = true → s.params = s'.params →
    s.presented.config s.cfg = s'.presented.config s'.cfg → s.input.tail = s'.input.tail → step s = step s') ∧
  ResetValues State.reset

/-- spec/10_state.md R11: with `in_valid = 0` nothing happens; only the output ports show that no event is there (R30)
and the model's own fields move on (logs 1 and 10). -/
def Obligations.NoByteMeansNoChange : Prop :=
  ∀ s : State, s.presented.rst = false → s.presented.config s.cfg = s.cfg → configWf s.params s.cfg = true →
    s.presented.inValid = false → ∃ t, step s = .next t ∧ SilentEnd s t

/-- spec/10_state.md R10 and R11 with spec/30_encoding.md R61: a presented byte decodes to one well-formed operation, and
the step is that operation's meaning; the operation itself takes the sample off the port. -/
def Obligations.StepRunsTheDecodedByte : Prop :=
  ∀ s : State, s.presented.rst = false → s.presented.config s.cfg = s.cfg → configWf s.params s.cfg = true →
    s.presented.inValid = true → ∃ i, decode s.params s.cfg .stream [s.presented.inByte] = .ok i ∧
      i.wf s.params s.cfg = true ∧ step s = exec i s ∧ ∀ t, exec i s = .next t → t.input = s.input.tail

/-- spec/30_encoding.md R80, spec/70_reset_and_hazards.md R215, spec/93_implementation_defined.md U1 and U6 (treatment
'refuse', logs 5 and 6): out of reset, a changed configuration is refused, and so is an ill-formed one, each by name. -/
def Obligations.UnlawfulConfigurationIsRefused : Prop :=
  ∀ s : State, s.presented.rst = false →
    (s.presented.config s.cfg ≠ s.cfg → step s = .refused .configChangedOutOfReset) ∧
    (s.presented.config s.cfg = s.cfg → configWf s.params s.cfg = false → step s = .refused .illFormedConfig)

/-! ### The synchronizer -/

/-- spec/41_frame_sync.md R102: in `HUNT` a byte that is no delimiter changes nothing and emits `NONE`. -/
def Obligations.DataByteInHuntIsDiscarded : Prop :=
  ∀ s : State, s.syncState = .hunt →
    (∀ d, ∃ t, exec (.septet d) s = .next t ∧ SilentEnd s t) ∧
    (∀ x, ∃ t, exec (.high x) s = .next t ∧ SilentEnd s t)

/-- What appending the byte `b` to the segment leaves (spec/41_frame_sync.md R104): `RB[LEN]` holds it when there is
room, `LEN` saturates at `RB_CAP + 1`, every other byte and field is unchanged, the event is `NONE`. -/
def Sys2Proof.Machine.Appended (b : Byte) (s t : State) : Prop :=
  t = { s with rb := t.rb, len := t.len, out := {}, work := {}, input := s.input.tail } ∧
  t.len = (if s.len ≤ s.params.rbCap then s.len + 1 else s.len) ∧
  (s.len < s.params.rbCap → Memory.read t.rb s.len = some b) ∧
  (∀ a, a ≠ s.len ∨ s.params.rbCap ≤ s.len → Memory.read t.rb a = Memory.read s.rb a)

/-- spec/41_frame_sync.md R104: in `COLLECT` a byte that is no delimiter is appended unmodified, bit 7 included. -/
def Obligations.DataByteInCollectIsAppended : Prop :=
  ∀ s : State, s.syncState = .collect →
    (∀ d, ∃ b : Byte, b.toNat = d.toNat ∧ ∃ t, exec (.septet d) s = .next t ∧ Appended b s t) ∧
    (∀ x, ∃ b : Byte, b.toNat = 128 + x.toNat ∧ ∃ t, exec (.high x) s = .next t ∧ Appended b s t)

/-- spec/41_frame_sync.md R103: the first delimiter since reset opens the first segment. -/
def Obligations.FirstDelimiterOpensASegment : Prop :=
  ∀ s : State, s.syncState = .hunt → ∃ t, exec .sync s = .next t ∧
    SilentEnd { s with syncState := .collect, len := 0 } t

/-- spec/41_frame_sync.md R105: a segment of fewer than 5 bytes is dropped: `LEN` only is written, `RB` keeps its bytes,
and the event is `NONE`. -/
def Obligations.ShortSegmentIsDroppedSilently : Prop :=
  ∀ s : State, s.syncState = .collect → s.len < 5 → ∃ t, exec .sync s = .next t ∧ SilentEnd { s with len := 0 } t

/-- spec/41_frame_sync.md R106, spec/44_field_mapper.md R168, spec/60_exceptions.md R190 and R191: the closing delimiter of a
candidate makes exactly the writes of `DecodeCandidate`'s result. -/
def Obligations.ClosingDelimiterRefinesDecodeCandidate : Prop :=
  ∀ (s : State) (c : Candidate), AtClosing s c → ∃ t, exec .sync s = .next t ∧
    match decodeCandidate s.cfg c with
    | .error r => RejectWrites r.code r.diag s t
    | .ok a => AcceptWrites a.header a.d a.fv s t

/-- spec/41_frame_sync.md R112 with spec/10_state.md R14: out of reset `COLLECT` is never left, and `HUNT` is left by the
delimiter only. -/
def Obligations.OnlyADelimiterLeavesHunt : Prop :=
  ∀ s t : State, step s = .next t → s.presented.rst = false →
    (s.syncState = .collect → t.syncState = .collect) ∧
    (s.syncState = .hunt →
      (t.syncState = .collect ↔ s.presented.inValid = true ∧ s.presented.inByte = 0xAA#8))

/-- spec/10_state.md R15: every delimiter sets `LEN` to 0, every other byte taken in `COLLECT` raises it by one up to
`RB_CAP + 1`, in `HUNT` it is not changed, and it always fits its `LEN_W` bits: it does not wrap. -/
def Obligations.LenCountsTheSegment : Prop :=
  ∀ s t : State, step s = .next t → s.presented.rst = false → s.presented.inValid = true →
    s.len ≤ s.params.rbCap + 1 →
    (s.presented.inByte = 0xAA#8 → t.len = 0) ∧
    (s.presented.inByte ≠ 0xAA#8 → s.syncState = .collect → t.len = min (s.len + 1) (s.params.rbCap + 1)) ∧
    (s.presented.inByte ≠ 0xAA#8 → s.syncState = .hunt → t.len = s.len) ∧
    t.len < 2 ^ t.params.lenW

/-- spec/41_frame_sync.md R107: with `MAX_N = 255` an over-long segment, whose bytes past `RB_CAP` were not kept, gets the
result that the whole segment would get, and is never accepted. -/
def Obligations.OverlongSegmentGetsTheUnboundedResult : Prop :=
  ∀ (s : State) (kept : List Byte) (whole : List Byte), s.params.maxN = 255 →
    AtClosing s ⟨1540, kept⟩ → 1539 < whole.length → whole.take 1539 = kept →
    ∃ t r, exec .sync s = .next t ∧ decodeCandidate s.cfg ⟨whole.length, whole⟩ = .error r ∧
      (r.code = .badVersion ∨ r.code = .badCommand ∨ r.code = .hdrChecksum ∨ r.code = .length) ∧
      RejectWrites r.code r.diag s t

/-- spec/41_frame_sync.md R108: fed any byte stream after reset, the block completes every step; its events other than
`NONE` are, in order, the results of `DecodeCandidate` on the pieces that cutting at `0xAA` gives, first and last piece
left out, that have 5 bytes or more; and the last piece is what stays buffered, saturated as R104 says. A piece too long for
the buffer is evaluated as far as it was kept (R107), and with `MAX_N = 255` that gives the piece's own result. -/
def Obligations.EventsAreThoseOfSplittingTheStream : Prop :=
  ∀ (p : Params) (c : Config), p.wf → configWf p c = true →
    (∀ bytes : List Byte, ∃ events t, eventsOf bytes.length (freshStream p c bytes) = some (events, t) ∧
      events.filter (fun e => decide (e ≠ .none)) =
        (((bytes.splitOn 0xAA#8).tail.dropLast).filter (fun piece => decide (5 ≤ piece.length))).map
          (fun piece => eventOf (decodeCandidate c (keptCandidate p piece))) ∧
      (0xAA#8 ∉ bytes → t.syncState = .hunt ∧ t.len = 0) ∧
      (0xAA#8 ∈ bytes → t.syncState = .collect ∧
        ∀ tail, (bytes.splitOn 0xAA#8).getLast? = some tail →
          t.len = min tail.length (p.rbCap + 1) ∧ ∀ i, i < t.validLen → Memory.read t.rb i = tail[i]?)) ∧
    (p.maxN = 255 → ∀ piece : List Byte, 5 ≤ piece.length →
      eventOf (decodeCandidate c (keptCandidate p piece)) = eventOf (decodeCandidate c ⟨piece.length, piece⟩))

/-! ### The checksum engine -/

/-- spec/40_checksum.md R90 and R91: `CKSUM` answers `(0x7F - sum) mod 128` and touches nothing else. -/
def Obligations.ChecksumIsTheSumModulo128 : Prop :=
  ∀ (bytes : List Byte) (s : State), ∃ t, exec (.cksum bytes) s = .next t ∧
    t = { s with work := { s.work with ck := t.work.ck } } ∧
    (t.work.ck.toNat : Int) = (127 - (((bytes.map (·.toNat)).sum : Nat) : Int)) % 128

/-- spec/40_checksum.md R91, the closed form and its consequences: the result depends on the sum modulo 128 only, so the
order of the bytes does not matter; bit 7 of a byte is not seen; checksum and sum make 127 modulo 128; appending the checksum
gives checksum 0; and an accumulator of any width of 7 bits or more gives the same result. -/
def Obligations.ChecksumClosedFormAndConsequences : Prop :=
  ∀ bytes : List Byte,
    ((cksum bytes).toNat : Int) = (127 - (((bytes.map (·.toNat)).sum : Nat) : Int)) % 128 ∧
    (∀ other : List Byte, (other.map (·.toNat)).sum % 128 = (bytes.map (·.toNat)).sum % 128 →
      cksum other = cksum bytes) ∧
    (∀ other : List Byte, other.Perm bytes → cksum other = cksum bytes) ∧
    (∀ (front back : List Byte) (b : Byte), bytes = front ++ b :: back →
      cksum (front ++ (b ||| 0x80#8) :: back) = cksum bytes) ∧
    ((cksum bytes).toNat + (bytes.map (·.toNat)).sum) % 128 = 127 ∧
    cksum (bytes ++ [(cksum bytes).setWidth 8]) = 0#7 ∧
    (∀ width, 7 ≤ width →
      bytes.foldl (fun acc b => (acc + 2 ^ width - b.toNat % 2 ^ width) % 2 ^ width % 128) 127 = (cksum bytes).toNat)

/-! ### The header validator -/

/-- spec/42_header_validator.md R121: `HV1` passes exactly on `CFG_VERSION`, writing nothing, and rejects with code 1. -/
def Obligations.Hv1ChecksTheVersion : Prop :=
  ∀ (h : HeaderHead) (s : State),
    (h.ver = s.cfg.version → exec (.hv1 h) s = .next s) ∧
    (h.ver ≠ s.cfg.version → ∃ t, exec (.hv1 h) s = .next t ∧ RejectWrites .badVersion none s t)

/-- spec/42_header_validator.md R122: `HV2` passes exactly on 9 bytes or more, writing nothing, and rejects with code 2. -/
def Obligations.Hv2ChecksTheMinimumLength : Prop :=
  ∀ (h : HeaderHead) (s : State),
    (9 ≤ s.len → exec (.hv2 h) s = .next s) ∧
    (s.len < 9 → ∃ t, exec (.hv2 h) s = .next t ∧ RejectWrites .incomplete none s t)

/-- spec/42_header_validator.md R123: `HV3` passes exactly on `CFG_COMMAND`, writing nothing, and rejects with code 3. -/
def Obligations.Hv3ChecksTheCommand : Prop :=
  ∀ (h : Header) (s : State),
    (h.cmd = s.cfg.command → exec (.hv3 h) s = .next s) ∧
    (h.cmd ≠ s.cfg.command → ∃ t, exec (.hv3 h) s = .next t ∧ RejectWrites .badCommand none s t)

/-- spec/42_header_validator.md R124, spec/40_checksum.md R93: `HV4` passes exactly when the whole stored byte is the
checksum of the eight bytes before it; otherwise it rejects with code 4 and the diagnostics of the mismatch, and always so
when the stored byte has bit 7 set. (On a pass the result of `CKSUM` stays as an intermediate value, log 10.) -/
def Obligations.Hv4ChecksTheHeaderChecksum : Prop :=
  ∀ (h : Header) (s : State) (covered : List Byte),
    covered = [h.dst.setWidth 8, (h.dst >>> 8).setWidth 8, h.src.setWidth 8, (h.src >>> 8).setWidth 8, h.ver,
      h.cmd.setWidth 8, (h.cmd >>> 8).setWidth 8, h.n] →
    (h.hck.toNat = (cksum covered).toNat →
      exec (.hv4 h) s = .next { s with work := { s.work with ck := cksum covered } }) ∧
    (h.hck.toNat ≠ (cksum covered).toNat → ∃ t, exec (.hv4 h) s = .next t ∧
      RejectWrites .hdrChecksum (some ⟨cksum covered, h.hck, .header, 0#8⟩) s t) ∧
    (0x80 ≤ h.hck.toNat → h.hck.toNat ≠ (cksum covered).toNat)

/-- spec/42_header_validator.md R125: `HV5` passes exactly on `9 + 6*N` bytes, writing nothing, and rejects with code 5
both a shorter and a longer candidate. -/
def Obligations.Hv5ChecksTheFrameCount : Prop :=
  ∀ (h : Header) (s : State),
    (s.len = 9 + 6 * h.n.toNat → exec (.hv5 h) s = .next s) ∧
    (s.len ≠ 9 + 6 * h.n.toNat → ∃ t, exec (.hv5 h) s = .next t ∧ RejectWrites .length none s t)

/-- spec/30_encoding.md R65 and R77: a record with another command is rejected with code 3, one with another version with
code 1, with no other effect. -/
def Obligations.ForeignRecordsAreRejectedWithNoOtherEffect : Prop :=
  ∀ s : State,
    (∀ h, ∃ t, exec (.othercmd h) s = .next t ∧ RejectWrites .badCommand none s t) ∧
    (∀ h, ∃ t, exec (.otherver h) s = .next t ∧ RejectWrites .badVersion none s t)

/-- spec/42_header_validator.md R127 with spec/10_state.md R31: `hdr_ok` in the step of a closing delimiter is `HeaderOk` of
the candidate, which is 1 exactly on `ACCEPT` and on a reject with code 6 or more; in every other step `hdr_ok` is 0; and
`HeaderOk` is false for fewer than 5 bytes. -/
def Obligations.HdrOkIsHeaderOk : Prop :=
  (∀ (s : State) (c : Candidate), AtClosing s c → ∃ t, exec .sync s = .next t ∧
    t.out.hdrOk = headerOk s.cfg c ∧
    (t.out.hdrOk = true ↔ t.out.event = .accept ∨ ∃ r, t.out.event = .reject r ∧ 6 ≤ r.num.toNat)) ∧
  (∀ s t : State, step s = .next t → t.out.event = .none → t.out.hdrOk = false) ∧
  (∀ (cfg : Config) (c : Candidate), c.len < 5 → headerOk cfg c = false)

/-! ### The payload decoder -/

/-- spec/43_payload_decoder.md R141: `HIGHSCAN` passes exactly when every payload byte is below 0x80, writing nothing, and
rejects with code 6. -/
def Obligations.HighscanRejectsAnyByteWithBit7 : Prop :=
  ∀ (payload : List Byte) (s : State),
    ((∀ b ∈ payload, b.toNat < 0x80) → exec (.highscan payload) s = .next s) ∧
    ((∃ b ∈ payload, 0x80 ≤ b.toNat) →
      ∃ t, exec (.highscan payload) s = .next t ∧ RejectWrites .highBit none s t)

/-- spec/43_payload_decoder.md R142: `FRAMECK` passes exactly when byte 5 is the checksum of bytes 0..4, mask bits 4..6
among them; otherwise it rejects with code 7 and the diagnostics of the mismatch, the frame's index being how many frames
have given their four decoded bytes (log 15). -/
def Obligations.FrameckChecksTheFrameChecksum : Prop :=
  ∀ (w : Frame) (s : State) (covered : List Byte) (i : Nat),
    covered = [w.d0.setWidth 8, w.d1.setWidth 8, w.d2.setWidth 8, w.d3.setWidth 8,
      BitVec.ofNat 8 (w.mask.toNat + 16 * w.spare.toNat)] →
    s.work.d.length = 4 * i →
    (w.fck = cksum covered →
      exec (.frameck w) s = .next { s with work := { s.work with ck := cksum covered } }) ∧
    (w.fck ≠ cksum covered → ∃ t, exec (.frameck w) s = .next t ∧
      RejectWrites .frameChecksum (some ⟨cksum covered, w.fck.setWidth 8, .frame, BitVec.ofNat 8 i⟩) s t)

/-- spec/43_payload_decoder.md R143, spec/30_encoding.md R67: lane `j` gives data byte `j` plus 128 when mask bit `j` is 1;
the four bytes follow the decoded bytes, nothing else changes, and neither mask bits 4..6 nor the checksum byte has an
effect. -/
def Obligations.UnpackRestoresBit7FromTheMask : Prop :=
  ∀ (w : Frame) (s : State),
    (∃ r0 r1 r2 r3 : Byte,
      exec (.unpack w) s = .next { s with work := { s.work with d := s.work.d ++ [r0, r1, r2, r3] } } ∧
      r0.toNat = w.d0.toNat + 128 * (w.mask.getLsbD 0).toNat ∧
      r1.toNat = w.d1.toNat + 128 * (w.mask.getLsbD 1).toNat ∧
      r2.toNat = w.d2.toNat + 128 * (w.mask.getLsbD 2).toNat ∧
      r3.toNat = w.d3.toNat + 128 * (w.mask.getLsbD 3).toNat) ∧
    (∀ spare fck, exec (.unpack { w with spare := spare, fck := fck }) s = exec (.unpack w) s)

/-- spec/43_payload_decoder.md R146: a frame that `ENC4` makes has six bytes below 0x80, passes `HIGHSCAN` and `FRAMECK`
and unpacks to the four bytes it was made from; and packing again what a frame with a right checksum unpacks to gives the
frame with mask bits 4..6 clear and the checksum that goes with them. -/
def Obligations.SeptetRoundTrip : Prop :=
  (∀ (d0 d1 d2 d3 : Byte) (s : State),
    parseFrame (enc4 d0 d1 d2 d3) = .ok (encodeFrame d0 d1 d2 d3) ∧
    exec (.highscan (enc4 d0 d1 d2 d3)) s = .next s ∧
    (∃ ck, exec (.frameck (encodeFrame d0 d1 d2 d3)) s = .next { s with work := { s.work with ck := ck } }) ∧
    exec (.unpack (encodeFrame d0 d1 d2 d3)) s =
      .next { s with work := { s.work with d := s.work.d ++ [d0, d1, d2, d3] } }) ∧
  (∀ (w : Frame) (s t : State) (r0 r1 r2 r3 : Byte), exec (.unpack w) s = .next t →
    t.work.d = s.work.d ++ [r0, r1, r2, r3] →
    encodeFrame r0 r1 r2 r3 = { w with spare := 0#3, fck := (encodeFrame r0 r1 r2 r3).fck } ∧
    (encodeFrame r0 r1 r2 r3).fck = cksum ((enc4 r0 r1 r2 r3).take 5))

/-! ### The field mapper -/

/-- spec/44_field_mapper.md R162: `FIELD.U` gives its slot `PRESENT = 1` and the unsigned little-endian value of its bytes;
a field that does not fit rejects with code 8 before any byte is read (spec/20_memory.md R48; that the operation run by
itself makes this check too is the model's, log 14). -/
def Obligations.FieldUReadsAnUnsignedInteger : Prop :=
  ∀ (f : Field) (s : State),
    (f.offset.toNat + f.length.toNat ≤ s.work.d.length → ∃ u : Nat,
      exec (.fieldU f) s =
        .next { s with work := { s.work with fv := s.work.fv ++ [⟨true, u⟩] } } ∧
      u = ∑ j ∈ Finset.range f.length.toNat, (s.work.d.getD (f.offset.toNat + j) 0#8).toNat * 256 ^ j ∧
      u < 256 ^ f.length.toNat) ∧
    (s.work.d.length < f.offset.toNat + f.length.toNat →
      ∃ t, exec (.fieldU f) s = .next t ∧ RejectWrites .fieldRange none s t)

/-- spec/44_field_mapper.md R164: `FIELD.S` gives its slot the same bits in two's complement over `8*LENGTH` bits: the
integer in that range which is congruent to the unsigned value. A field that does not fit rejects with code 8 before any
byte is read (spec/20_memory.md R48; that the operation run by itself makes this check too is the model's, log 14). -/
def Obligations.FieldSReadsATwosComplementInteger : Prop :=
  ∀ (f : Field) (s : State), 1 ≤ f.length.toNat →
    (f.offset.toNat + f.length.toNat ≤ s.work.d.length → ∃ raw : Int,
      exec (.fieldS f) s =
        .next { s with work := { s.work with fv := s.work.fv ++ [⟨true, raw⟩] } } ∧
      -2 ^ (8 * f.length.toNat - 1) ≤ raw ∧ raw < 2 ^ (8 * f.length.toNat - 1) ∧
      raw % 2 ^ (8 * f.length.toNat) =
        ∑ j ∈ Finset.range f.length.toNat, ((s.work.d.getD (f.offset.toNat + j) 0#8).toNat : Int) * 256 ^ j) ∧
    (s.work.d.length < f.offset.toNat + f.length.toNat →
      ∃ t, exec (.fieldS f) s = .next t ∧ RejectWrites .fieldRange none s t)

/-- spec/44_field_mapper.md R163: once header and payload have passed, the candidate is rejected with code 8 exactly when
some active field ends beyond the `4N` decoded bytes, and is accepted otherwise. -/
def Obligations.RangeCheckCoversEveryActiveField : Prop :=
  ∀ (s : State) (c : Candidate) (payload d : List Byte), AtClosing s c →
    headerValidate s.cfg c = .ok payload → payloadDecode (c.byte 7).toNat payload = .ok d →
    ∃ t, exec .sync s = .next t ∧
      ((∃ w ∈ s.cfg.ft, descValid w = true ∧
          4 * (c.byte 7).toNat < (descOffset w).toNat + (descLength w).toNat) →
        RejectWrites .fieldRange none s t) ∧
      ((∀ w ∈ s.cfg.ft, descValid w = true →
          (descOffset w).toNat + (descLength w).toNat ≤ 4 * (c.byte 7).toNat) →
        AcceptWrites c.header d (s.cfg.ft.map (slotValue d)) s t)

/-- spec/44_field_mapper.md R165: the final value of a present field is exactly `RAW * FNUM / FDEN`. -/
def Obligations.FinalValueIsTheExactProduct : Prop :=
  ∀ (s : State) (k : Nat) (v : FieldVal) (w : DescWord), s.fv[k]? = some v → s.cfg.ft[k]? = some w →
    v.present = true →
    ∃ q : Rat, s.fieldValue k = some q ∧
      q = (v.raw : Rat) * ((w.toNat / 2 ^ 16 % 2 ^ 16 : Nat) : Rat) / ((w.toNat / 2 ^ 32 % 2 ^ 16 : Nat) : Rat)

/-- spec/43_payload_decoder.md R145: a record with `N = 0` and a right header is accepted with no decoded byte when no field
is active, and rejected with code 8 otherwise. -/
def Obligations.EmptyRecordIsAcceptedUnlessAFieldIsActive : Prop :=
  ∀ (s : State) (c : Candidate), AtClosing s c → headerOk s.cfg c = true → c.byte 7 = 0#8 →
    ∃ t, exec .sync s = .next t ∧
      ((∀ w ∈ s.cfg.ft, descValid w = false) →
        AcceptWrites c.header [] (List.replicate s.cfg.ft.length ⟨false, 0⟩) s t) ∧
      ((∃ w ∈ s.cfg.ft, descValid w = true) → RejectWrites .fieldRange none s t)

/-! ### The whole evaluation -/

/-- spec/60_exceptions.md R192: the code of a rejection is that of the first check that fails, in the fixed order; for code 7
the lowest failing frame is the one reported; and a candidate that fails no check is accepted. -/
def Obligations.FirstFailingCheckDecides : Prop :=
  ∀ (s : State) (c : Candidate), AtClosing s c → ∃ t, exec .sync s = .next t ∧
    (∀ r, firstFailure s.cfg c = some r → t.out.event = .reject r ∧ t.lastCode = .rejected r) ∧
    (firstFailure s.cfg c = some .frameChecksum →
      t.diagIdx.toNat < (c.byte 7).toNat ∧ frameBad c t.diagIdx.toNat = true ∧
        ∀ j, j < t.diagIdx.toNat → frameBad c j = false) ∧
    (firstFailure s.cfg c = none → t.out.event = .accept ∧ t.lastCode = .ok)

/-- spec/30_encoding.md R65: the record that the decoder reads from the buffer's header is what the closing delimiter
runs. -/
def Obligations.ClosingDelimiterRunsTheSelectedRecord : Prop :=
  ∀ (s : State) (c : Candidate) (bytes : List Byte) (i : Instr), AtClosing s c →
    s.rbRange 0 (min 9 s.validLen) = some bytes → decode s.params s.cfg .record bytes = .ok i →
    exec .sync s = exec i s

/-- spec/44_field_mapper.md R168 with spec/60_exceptions.md R191: a `PUSH` record that passes every check completes with the
accept entry: its header, decoded bytes and field map are latched whole. -/
def Obligations.PushLatchesAnAcceptedRecord : Prop :=
  ∀ (s : State) (h : Header) (payload : List Byte), configWf s.params s.cfg = true →
    h.ver = s.cfg.version → h.cmd = s.cfg.command → h.hck = (cksum h.covered).setWidth 8 →
    s.len = 9 + 6 * h.n.toNat → h.n.toNat ≤ s.params.maxN →
    payload.length = 6 * h.n.toNat →
    (∀ k, k < 6 * h.n.toNat → Memory.read s.rb (9 + k) = payload[k]?) →
    (∀ b ∈ payload, b.toNat < 0x80) →
    (∀ i, i < h.n.toNat → (payload.getD (6 * i + 5) 0#8).toNat = (cksum ((payload.drop (6 * i)).take 5)).toNat) →
    (∀ w ∈ s.cfg.ft, descValid w = true →
      (descOffset w).toNat + (descLength w).toNat ≤ 4 * h.n.toNat) →
    ∃ t d, exec (.push h) s = .next t ∧ AcceptWrites h d (s.cfg.ft.map (slotValue d)) s t ∧
      d.length = 4 * h.n.toNat ∧
      ∀ i j, i < h.n.toNat → j < 4 →
        (d.getD (4 * i + j) 0#8).toNat =
          (payload.getD (6 * i + j) 0#8).toNat + 128 * ((payload.getD (6 * i + 4) 0#8).getLsbD j).toNat

/-- spec/30_encoding.md R75 and spec/60_exceptions.md R192: the check that ends an evaluation is the operation's own meaning:
the closing delimiter's outcome is that of the first failing operation run by itself on its operand in the buffer. `FRAMECK`
of frame `i` takes its index from the number of decoded bytes (log 15), so it is run with `4*i` decoded bytes before it: zero
bytes here, since they carry the index only and their values are not read. -/
def Obligations.RejectingCheckIsTheOperationsOwn : Prop :=
  ∀ (s : State) (c : Candidate) (hd : HeaderHead), AtClosing s c → s.fetchHead = some hd →
    (hd.ver ≠ s.cfg.version → exec .sync s = exec (.hv1 hd) s) ∧
    (hd.ver = s.cfg.version → s.len < 9 → exec .sync s = exec (.hv2 hd) s) ∧
    (∀ h, hd.ver = s.cfg.version → 9 ≤ s.len → s.fetchHeader = some h →
      (h.cmd ≠ s.cfg.command → exec .sync s = exec (.hv3 h) s) ∧
      (h.cmd = s.cfg.command →
        (h.hck ≠ (cksum h.covered).setWidth 8 → exec .sync s = exec (.hv4 h) s) ∧
        (h.hck = (cksum h.covered).setWidth 8 →
          (s.len ≠ 9 + 6 * h.n.toNat → exec .sync s = exec (.hv5 h) s) ∧
          (s.len = 9 + 6 * h.n.toNat → ∀ payload, s.fetchPayload h.n = some payload →
            ((∃ b ∈ payload, 0x80 ≤ b.toNat) → exec .sync s = exec (.highscan payload) s) ∧
            ((∀ b ∈ payload, b.toNat < 0x80) → ∀ (i : Nat) (w : Frame), i < h.n.toNat →
              parseFrame (wireFrame payload i) = .ok w →
              (∀ j, j < i → frameOk (wireFrame payload j) = true) → frameOk (wireFrame payload i) = false →
              exec .sync s = exec (.frameck w) { s with work := { d := List.replicate (4 * i) 0#8 } })))))

/-- spec/30_encoding.md R75 and spec/44_field_mapper.md R168: what an accepted record latches is what its operations, run one
after another in the fixed order, computed. -/
def Obligations.AcceptedRecordIsTheRunOfItsOperations : Prop :=
  ∀ (s t : State) (c : Candidate) (h : Header) (payload : List Byte), AtClosing s c → s.fetchHeader = some h →
    s.fetchPayload h.n = some payload → exec .sync s = .next t → t.out.event = .accept →
    ∃ (frames : List Frame) (u : State),
      frames.length = h.n.toNat ∧
      (∀ (i : Nat) (w : Frame), frames[i]? = some w → parseFrame (wireFrame payload i) = .ok w) ∧
      runOps ([.hv1 h.head, .hv2 h.head, .hv3 h, .hv4 h, .hv5 h, .highscan payload] ++
        frames.flatMap (fun w => [.frameck w, .unpack w])) { s with work := {} } = .next u ∧
      t.resDbLen.toNat = u.work.d.length ∧
      (∀ i, i < u.work.d.length → Memory.read t.resDb i = u.work.d[i]?) ∧
      (∀ (k : Nat) (w : DescWord) (i : Instr), s.cfg.ft[k]? = some w → decodeDescriptor s.params w = .ok i →
        ∃ v, t.fv[k]? = some v ∧
          exec i { u with work := { u.work with fv := [] } } = .next { u with work := { u.work with fv := [v] } })

/-- spec/30_encoding.md R82 with spec/43_payload_decoder.md R146 and spec/44_field_mapper.md R168: a record that the test bench
makes from data bytes is accepted whenever the field table fits it, and the result registers hold those data bytes and
its addresses. -/
def Obligations.EncodedRecordDecodesToItsData : Prop :=
  ∀ (s : State) (dst src : Half) (data : List Byte) (n : Nat), data.length = 4 * n → n ≤ 255 →
    AtClosing s ⟨9 + 6 * n, record s.cfg dst src data⟩ → reqBytes s.cfg.ft ≤ 4 * n →
    ∃ t, exec .sync s = .next t ∧ t.out.event = .accept ∧ t.resValid = true ∧
      t.resDst = dst ∧ t.resSrc = src ∧ t.resVer = s.cfg.version ∧ t.resCmd = s.cfg.command ∧
      t.resN.toNat = n ∧ t.resDbLen.toNat = 4 * n ∧
      (∀ i, i < 4 * n → Memory.read t.resDb i = data[i]?) ∧
      t.fv = s.cfg.ft.map (slotValue data)

/-- spec/10_state.md R32: no evaluation reads anything that an earlier one computed: two blocks that agree on the
configuration and on the candidate agree on everything the closing delimiter outputs and latches. -/
def Obligations.EvaluationSeesTheCandidateOnly : Prop :=
  ∀ (s s' : State) (c : Candidate), AtClosing s c → AtClosing s' c → s.params = s'.params → s.cfg = s'.cfg →
    ∃ t t', exec .sync s = .next t ∧ exec .sync s' = .next t' ∧ t.out = t'.out ∧ t.lastCode = t'.lastCode ∧
      (t.out.event = .accept →
        t.resDst = t'.resDst ∧ t.resSrc = t'.resSrc ∧ t.resVer = t'.resVer ∧ t.resCmd = t'.resCmd ∧
        t.resN = t'.resN ∧ t.resHck = t'.resHck ∧ t.resDbLen = t'.resDbLen ∧ t.fv = t'.fv ∧
        ∀ i, i < t.resDbLen.toNat → Memory.read t.resDb i = Memory.read t'.resDb i) ∧
      (t.out.event = .reject .hdrChecksum ∨ t.out.event = .reject .frameChecksum →
        t.diagExp = t'.diagExp ∧ t.diagAct = t'.diagAct ∧ t.diagKind = t'.diagKind ∧ t.diagIdx = t'.diagIdx)

/-! ### Registers over every step -/

/-- spec/10_state.md R17 with R18: out of reset, a step with event `ACCEPT` writes the result registers all together: the
header, decoded bytes and field values of the one candidate in the record buffer. Every other step out of reset leaves every
one of them unchanged, so `RES_VALID`, once set, stays set; a step with `rst = 1` clears them. -/
def Obligations.ResultsChangeOnlyOnAccept : Prop :=
  ∀ s t : State, step s = .next t →
    (s.presented.rst = false → t.out.event ≠ .accept →
      t.resValid = s.resValid ∧ t.resDst = s.resDst ∧ t.resSrc = s.resSrc ∧ t.resVer = s.resVer ∧
      t.resCmd = s.resCmd ∧ t.resN = s.resN ∧ t.resHck = s.resHck ∧ t.resDbLen = s.resDbLen ∧
      t.resDb = s.resDb ∧ t.fv = s.fv) ∧
    (s.presented.rst = false → t.out.event = .accept → ∃ c a, s.candidate = some c ∧
      decodeCandidate s.cfg c = .ok a ∧ s.fetchHeader = some a.header ∧ a.d.length = 4 * a.header.n.toNat ∧
      AcceptWrites a.header a.d a.fv s t) ∧
    (s.presented.rst = false → s.resValid = true → t.resValid = true) ∧
    (s.presented.rst = true → ResetValues t)

/-- The stored checksum of wire frame `i` of a payload is the computed one (spec/43_payload_decoder.md R142). -/
def Sys2Proof.Machine.FrameRight (payload : List Byte) (i : Nat) : Prop :=
  (payload.getD (6 * i + 5) 0#8).toNat = (cksum ((payload.drop (6 * i)).take 5)).toNat

/-- spec/10_state.md R22, R23, R27 to R30: out of reset, a step with no event leaves the status and diagnostic registers;
one with an event records its code and sets `CAND_SEEN`; code 4 puts the header's computed and stored checksum into the
diagnostic registers, code 7 those of the lowest wire frame that is not right, with its index, and every other code leaves
them; the event's ports agree with `LAST_CODE`. -/
def Obligations.StatusRegistersRecordTheEvent : Prop :=
  ∀ s t : State, step s = .next t → s.presented.rst = false →
    (t.out.event.valid = false → t.lastCode = s.lastCode ∧ t.candSeen = s.candSeen ∧
      t.diagExp = s.diagExp ∧ t.diagAct = s.diagAct ∧ t.diagKind = s.diagKind ∧ t.diagIdx = s.diagIdx ∧
      t.out.event.ok = false ∧ t.out.event.code = 0#4 ∧ t.out.hdrOk = false) ∧
    (t.out.event.valid = true → t.candSeen = true ∧ t.lastCode.num = t.out.event.code ∧
      (t.out.event.ok = true ↔ t.lastCode.num = 0#4) ∧ t.lastCode.num.toNat ≤ 8 ∧
      (t.lastCode.num ≠ 4#4 → t.lastCode.num ≠ 7#4 →
        t.diagExp = s.diagExp ∧ t.diagAct = s.diagAct ∧ t.diagKind = s.diagKind ∧ t.diagIdx = s.diagIdx) ∧
      (t.lastCode.num = 4#4 → ∃ h, s.fetchHeader = some h ∧ t.diagExp = cksum h.covered ∧ t.diagAct = h.hck ∧
        t.diagAct.toNat ≠ t.diagExp.toNat ∧ t.diagKind.bit = 0#1 ∧ t.diagIdx = 0#8) ∧
      (t.lastCode.num = 7#4 → ∃ h payload, s.fetchHeader = some h ∧ s.fetchPayload h.n = some payload ∧
        t.diagIdx.toNat < h.n.toNat ∧ ¬FrameRight payload t.diagIdx.toNat ∧
        (∀ j, j < t.diagIdx.toNat → FrameRight payload j) ∧
        t.diagExp = cksum ((payload.drop (6 * t.diagIdx.toNat)).take 5) ∧
        t.diagAct = payload.getD (6 * t.diagIdx.toNat + 5) 0#8 ∧ t.diagAct.toNat < 0x80 ∧ t.diagKind.bit = 1#1))

/-- spec/10_state.md R30: out of reset, a step has an event other than `NONE` exactly when a delimiter closes a segment of 5
bytes or more. -/
def Obligations.EventExactlyAtAClosingDelimiter : Prop :=
  ∀ s t : State, step s = .next t → s.presented.rst = false →
    (t.out.event.valid = true ↔
      s.presented.inValid = true ∧ s.presented.inByte = 0xAA#8 ∧ s.syncState = .collect ∧ 5 ≤ s.len)

/-- spec/10_state.md R13: no operation writes the configuration or the parameters, and out of reset no step does. -/
def Obligations.ConfigurationIsNeverWritten : Prop :=
  (∀ (i : Instr) (s t : State), exec i s = .next t → t.cfg = s.cfg ∧ t.params = s.params) ∧
  (∀ s t : State, step s = .next t → s.presented.rst = false → t.cfg = s.cfg ∧ t.params = s.params)

/-- spec/10_state.md R24: the fields of `STATUS` stand at their bits, and bit 7 reads 0. -/
def Obligations.StatusPacksItsFields : Prop :=
  ∀ s : State, s.status.toNat = s.lastCode.num.toNat + 16 * s.candSeen.toNat + 32 * s.resValid.toNat +
    64 * (if s.syncState = .collect then 1 else 0)

/-! ### Invariants -/

/-- The three invariants hold right after reset, for every lawful host (spec/10_state.md R34; spec/70_reset_and_hazards.md
R211), and at the model's reset state (whose field table is the model's choice, log 4). -/
def Obligations.InvariantsHoldAtReset : Prop :=
  (∀ (p : Params) (c : Config) (input : List Sample), p.wf → configWf p c = true →
    (∀ x ∈ input, ∀ c', x.cfg = some c' → x.rst = true ∧ configWf p c' = true) →
    BufferInv (State.resetWith p c input) ∧ ResultInv (State.resetWith p c input) ∧
      HostInv (State.resetWith p c input)) ∧
  BufferInv State.reset ∧ ResultInv State.reset ∧ HostInv State.reset

/-- Every step keeps the buffer invariant (spec/10_state.md R14, R15, R32; spec/20_memory.md R55; spec/30_encoding.md R62). -/
def Obligations.EveryStepKeepsTheBufferInvariant : Prop :=
  ∀ s t : State, BufferInv s → step s = .next t → BufferInv t

/-- Every step keeps the result invariant (spec/10_state.md R18 to R23, R27 to R29; spec/44_field_mapper.md R166). -/
def Obligations.EveryStepKeepsTheResultInvariant : Prop :=
  ∀ s t : State, BufferInv s → ResultInv s → step s = .next t → ResultInv t

/-- spec/60_exceptions.md R194, spec/93_implementation_defined.md section 1: from a good state, with a lawful host, the block
always takes its next step, and stays so. -/
def Obligations.LawfulHostNeverStopsTheBlock : Prop :=
  ∀ s : State, BufferInv s → HostInv s → ∃ t, step s = .next t ∧ BufferInv t ∧ HostInv t

/-! ### Encodings -/

/-- Words written out from the format tables of spec/30_encoding.md R61, R63, R66 and R78 decode to the operations they
stand for. The descriptor's 64 bits are R78's; that its eight bytes come least significant first is the model's choice
(log 16). -/
def Obligations.WrittenOutWordsDecode : Prop :=
  let p : Params := {}
  let c := Config.default p
  decode p c .stream [0b10101010#8] = .ok .sync ∧
  decode p c .stream [0b01010101#8] = .ok (.septet 0b1010101#7) ∧
  decode p c .stream [0b10101011#8] = .ok (.high 0b0101011#7) ∧
  decode p c .record [0x78#8, 0x56#8, 0x34#8, 0x12#8, 0x10#8, 0x00#8, 0x01#8, 0x03#8, 0x5A#8] =
    .ok (.push ⟨0x5678#16, 0x1234#16, 0x10#8, 0x0100#16, 0x03#8, 0x5A#8⟩) ∧
  decode p c .frameUnpack [0x01#8, 0x02#8, 0x03#8, 0x04#8, 0b01010110#8, 0x7F#8] =
    .ok (.unpack ⟨1#7, 2#7, 3#7, 4#7, 0b101#3, 0b0110#4, 0x7F#7⟩) ∧
  decode p c .descriptor [0x05#8, 0b10101100#8, 0x01#8, 0x00#8, 0x0A#8, 0x00#8, 0x00#8, 0x00#8] =
    .ok (.fieldS ⟨5#10, 3#3, 1#16, 10#16⟩)

/-- spec/30_encoding.md R61: every byte value is in exactly one class, the delimiter first, and the class and its data bits
give the byte back. -/
def Obligations.EveryByteHasOneClass : Prop :=
  ∀ b : Byte, encode (decodeByte b) = [b] ∧
    (decodeByte b = .sync ↔ b.toNat = 0xAA) ∧
    ((∃ d, decodeByte b = .septet d) ↔ b.toNat < 0x80) ∧
    ((∃ x, decodeByte b = .high x) ↔ 0x80 ≤ b.toNat ∧ b.toNat ≠ 0xAA)

/-- spec/30_encoding.md R78 and R80: an active, well-formed descriptor decodes to `FIELD.U` or `FIELD.S` by bit 13 with each
field at its bits; an inactive or ill-formed one decodes to nothing. -/
def Obligations.DescriptorFieldsStandAtTheirBits : Prop :=
  ∀ (p : Params) (w : DescWord),
    let n := w.toNat
    let active := n / 2 ^ 15 % 2 = 1
    let legal := n / 2 ^ 14 % 2 = 0 ∧ n / 2 ^ 48 = 0 ∧ 1 ≤ n / 2 ^ 10 % 8 ∧ n / 2 ^ 10 % 8 ≤ p.maxFieldLen ∧
      n / 2 ^ 32 % 2 ^ 16 ≠ 0
    let f : Field := ⟨BitVec.ofNat 10 n, BitVec.ofNat 3 (n / 2 ^ 10), BitVec.ofNat 16 (n / 2 ^ 16),
      BitVec.ofNat 16 (n / 2 ^ 32)⟩
    (active → legal →
      decodeDescriptor p w = .ok (if n / 2 ^ 13 % 2 = 1 then .fieldS f else .fieldU f)) ∧
    (active → ¬legal → ∃ e, decodeDescriptor p w = .error e) ∧
    (¬active → decodeDescriptor p w = .error .inactiveSlot)

/-- spec/20_memory.md R45 and R51 with spec/30_encoding.md R64: the header that the evaluation reads has
its quantities at their offsets, the byte at the lower index the less significant. -/
def Obligations.HeaderQuantitiesAreLittleEndian : Prop :=
  ∀ (s : State) (h : Header), s.fetchHeader = some h →
    ∃ b : Nat → Byte, (∀ i, i < 9 → Memory.read s.rb i = some (b i)) ∧
      h.dst.toNat = (b 0).toNat + 256 * (b 1).toNat ∧ h.src.toNat = (b 2).toNat + 256 * (b 3).toNat ∧
      h.ver = b 4 ∧ h.cmd.toNat = (b 5).toNat + 256 * (b 6).toNat ∧ h.n = b 7 ∧ h.hck = b 8

/-- Decoding the encoding of a well-formed operation gives it back, for every operation and every operand (spec/30_encoding.md
R61, R63, R66, R75, R78; the byte order of a descriptor is the model's, log 16). -/
def Obligations.DecodeOfEncodeIsTheOperation : Prop :=
  ∀ (p : Params) (c : Config) (i : Instr), i.wf p c = true → decode p c (levelOf i) (encode i) = .ok i

/-- Whatever decodes is well-formed, stands at its level, and encodes to the very bytes it was read from (spec/30_encoding.md
R76 to R80, R84): no reserved encoding falls through to a neighbour. -/
def Obligations.EncodeOfDecodeIsTheBytes : Prop :=
  ∀ (p : Params) (c : Config) (level : Level) (bytes : List Byte) (i : Instr), decode p c level bytes = .ok i →
    i.wf p c = true ∧ levelOf i = level ∧ encode i = bytes

/-! ### Parameters -/

/-- spec/00_scope.md R6: the derived parameters. `LEN_W` is the least width that holds `RB_CAP + 1`, and the defaults give
1539, 1020 and 11. -/
def Obligations.DerivedParametersAreThoseOfTheSpec : Prop :=
  (∀ p : Params, p.rbCap = 9 + 6 * p.maxN ∧ p.dbCap = 4 * p.maxN ∧
    p.rbCap + 1 < 2 ^ p.lenW ∧ ∀ width, p.rbCap + 1 < 2 ^ width → p.lenW ≤ width) ∧
  ({} : Params).rbCap = 1539 ∧ ({} : Params).dbCap = 1020 ∧ ({} : Params).lenW = 11
end

