-- ==== Sys2Proof/Laws/Bits.lean ====
section
/-!
SUPPORT. The numbers behind the bit operations of the decoder and the operations: each as the arithmetic the spec
writes it in.
-/
namespace Sys2Proof

theorem toNat_append_eq {m n : Nat} (hi : BitVec m) (lo : BitVec n) :
    (hi ++ lo).toNat = lo.toNat + 2 ^ n * hi.toNat := by
  rw [BitVec.toNat_append, Nat.shiftLeft_eq, Nat.mul_comm, ← Nat.two_pow_add_eq_or_of_lt lo.isLt, Nat.add_comm]

@[simp] theorem lowByte_toNat (d : Septet) : (lowByte d).toNat = d.toNat := by
  rw [lowByte, toNat_append_eq]
  simp

@[simp] theorem highByte_toNat (x : Septet) : (highByte x).toNat = 128 + x.toNat := by
  rw [highByte, toNat_append_eq]
  simp [Nat.add_comm]

theorem joinBytes_toNat (lo hi : Byte) : (joinBytes lo hi).toNat = lo.toNat + 256 * hi.toNat := toNat_append_eq hi lo

theorem septetOf_toNat (b : Byte) : (septetOf b).toNat = b.toNat % 128 := by
  simp [septetOf]

theorem loByte_toNat (v : Half) : (loByte v).toNat = v.toNat % 256 := by
  simp [loByte]

theorem hiByte_toNat (v : Half) : (hiByte v).toNat = v.toNat / 256 := by
  have := v.isLt
  simp only [hiByte, BitVec.extractLsb'_toNat, Nat.shiftRight_eq_div_pow]
  omega

@[simp] theorem joinBytes_loByte_hiByte (v : Half) : joinBytes (loByte v) (hiByte v) = v := by
  apply BitVec.eq_of_toNat_eq
  rw [joinBytes_toNat, loByte_toNat, hiByte_toNat]
  omega

@[simp] theorem loByte_joinBytes (lo hi : Byte) : loByte (joinBytes lo hi) = lo := by
  have := lo.isLt
  apply BitVec.eq_of_toNat_eq
  rw [loByte_toNat, joinBytes_toNat]
  omega

@[simp] theorem hiByte_joinBytes (lo hi : Byte) : hiByte (joinBytes lo hi) = hi := by
  have := lo.isLt
  have := hi.isLt
  apply BitVec.eq_of_toNat_eq
  rw [hiByte_toNat, joinBytes_toNat]
  omega

theorem septet_lt (d : Septet) : d.toNat < 128 := d.isLt

/-- Bit 7 of a byte is set exactly when the byte is 0x80 or more (spec/00_scope.md R7). -/
theorem bit7_iff (b : Byte) : b.getLsbD 7 = true ↔ 0x80 ≤ b.toNat := by
  have := b.isLt
  rw [BitVec.getLsbD, Nat.testBit_eq_decide_div_mod_eq, decide_eq_true_iff]
  omega

/-- A byte below 0x80 is its septet. -/
theorem lowByte_septetOf {b : Byte} (h : b.getLsbD 7 = false) : lowByte (septetOf b) = b := by
  have h7 : ¬(0x80 ≤ b.toNat) := fun hb => Bool.noConfusion (h.symm.trans ((bit7_iff b).mpr hb))
  apply BitVec.eq_of_toNat_eq
  rw [lowByte_toNat, septetOf_toNat]
  omega

/-- A byte of 0x80 or more is its septet with bit 7 set. -/
theorem highByte_septetOf {b : Byte} (h : b.getLsbD 7 = true) : highByte (septetOf b) = b := by
  have h7 := (bit7_iff b).mp h
  have := b.isLt
  apply BitVec.eq_of_toNat_eq
  rw [highByte_toNat, septetOf_toNat]
  omega

@[simp] theorem septetOf_lowByte (d : Septet) : septetOf (lowByte d) = d := by
  have := septet_lt d
  apply BitVec.eq_of_toNat_eq
  rw [septetOf_toNat, lowByte_toNat]
  omega

@[simp] theorem septetOf_highByte (x : Septet) : septetOf (highByte x) = x := by
  have := septet_lt x
  apply BitVec.eq_of_toNat_eq
  rw [septetOf_toNat, highByte_toNat]
  omega

@[simp] theorem bit7_lowByte (d : Septet) : (lowByte d).getLsbD 7 = false := by
  have := septet_lt d
  rw [Bool.eq_false_iff, ne_eq, bit7_iff, lowByte_toNat]
  omega

/-- The same, as the simplifier spells a bit. -/
@[simp] theorem getElem7_lowByte (d : Septet) : (lowByte d)[7] = false := bit7_lowByte d

@[simp] theorem bit7_highByte (x : Septet) : (highByte x).getLsbD 7 = true := by
  rw [bit7_iff, highByte_toNat]
  omega

/-- The same, as the simplifier spells a bit. -/
@[simp] theorem getElem7_highByte (x : Septet) : (highByte x)[7] = true := bit7_highByte x

/-- The mask byte of a wire frame (spec/30_encoding.md R66). -/
theorem maskByte_toNat (w : Frame) :
    (lowByte (w.spare ++ w.mask)).toNat = w.mask.toNat + 16 * w.spare.toNat := by
  rw [lowByte_toNat]
  exact toNat_append_eq w.spare w.mask

namespace Machine

/-- One lane of `UNPACK` adds 128 when its mask bit is 1 (spec/43_payload_decoder.md R143). -/
theorem restoreByte_toNat (d : Septet) (bit7 : Bool) : (restoreByte d bit7).toNat = d.toNat + 128 * bit7.toNat := by
  have h := toNat_append_eq (BitVec.ofBool bit7) d
  rw [restoreByte, h]
  cases bit7 <;> rfl

@[simp] theorem unpackBytes_length (w : Frame) : (unpackBytes w).length = 4 := rfl

/-- The mask of a checksum step keeps seven bits (spec/40_checksum.md R91). -/
theorem cksumStep_toNat (acc b : Byte) : (cksumStep acc b).toNat = (acc.toNat + 256 - b.toNat) % 128 := by
  have ha := acc.isLt
  have hb := b.isLt
  have hm : ∀ x : Nat, x &&& 127 = x % 128 := fun x => Nat.and_two_pow_sub_one_eq_mod x 7
  simp only [cksumStep, ckMask, BitVec.toNat_and, BitVec.toNat_sub, BitVec.toNat_ofNat]
  rw [show 127 % 2 ^ 8 = 127 from rfl, hm]
  omega

end Machine

end Sys2Proof
end

