-- ==== Sys2Proof/Laws/State.lean ====
section
/-!
SUPPORT. What each update of the state does to each field: one lemma per field per update, so that no proof
unfolds a record update.
-/
namespace Sys2Proof.Machine

/-! ### The end of a step -/

@[simp] theorem endStep_params (o : Output) (s : State) : (endStep o s).params = s.params := rfl
@[simp] theorem endStep_cfg (o : Output) (s : State) : (endStep o s).cfg = s.cfg := rfl
@[simp] theorem endStep_syncState (o : Output) (s : State) : (endStep o s).syncState = s.syncState := rfl
@[simp] theorem endStep_len (o : Output) (s : State) : (endStep o s).len = s.len := rfl
@[simp] theorem endStep_rb (o : Output) (s : State) : (endStep o s).rb = s.rb := rfl
@[simp] theorem endStep_resValid (o : Output) (s : State) : (endStep o s).resValid = s.resValid := rfl
@[simp] theorem endStep_resDst (o : Output) (s : State) : (endStep o s).resDst = s.resDst := rfl
@[simp] theorem endStep_resSrc (o : Output) (s : State) : (endStep o s).resSrc = s.resSrc := rfl
@[simp] theorem endStep_resVer (o : Output) (s : State) : (endStep o s).resVer = s.resVer := rfl
@[simp] theorem endStep_resCmd (o : Output) (s : State) : (endStep o s).resCmd = s.resCmd := rfl
@[simp] theorem endStep_resN (o : Output) (s : State) : (endStep o s).resN = s.resN := rfl
@[simp] theorem endStep_resHck (o : Output) (s : State) : (endStep o s).resHck = s.resHck := rfl
@[simp] theorem endStep_resDbLen (o : Output) (s : State) : (endStep o s).resDbLen = s.resDbLen := rfl
@[simp] theorem endStep_resDb (o : Output) (s : State) : (endStep o s).resDb = s.resDb := rfl
@[simp] theorem endStep_fv (o : Output) (s : State) : (endStep o s).fv = s.fv := rfl
@[simp] theorem endStep_lastCode (o : Output) (s : State) : (endStep o s).lastCode = s.lastCode := rfl
@[simp] theorem endStep_candSeen (o : Output) (s : State) : (endStep o s).candSeen = s.candSeen := rfl
@[simp] theorem endStep_diagExp (o : Output) (s : State) : (endStep o s).diagExp = s.diagExp := rfl
@[simp] theorem endStep_diagAct (o : Output) (s : State) : (endStep o s).diagAct = s.diagAct := rfl
@[simp] theorem endStep_diagKind (o : Output) (s : State) : (endStep o s).diagKind = s.diagKind := rfl
@[simp] theorem endStep_diagIdx (o : Output) (s : State) : (endStep o s).diagIdx = s.diagIdx := rfl
@[simp] theorem endStep_out (o : Output) (s : State) : (endStep o s).out = o := rfl
@[simp] theorem endStep_work (o : Output) (s : State) : (endStep o s).work = {} := rfl
@[simp] theorem endStep_input (o : Output) (s : State) : (endStep o s).input = s.input.tail := rfl

/-! ### The diagnostic registers -/

@[simp] theorem writeDiag_params (diag : Option Diag) (s : State) : (writeDiag diag s).params = s.params := by cases diag <;> rfl
@[simp] theorem writeDiag_cfg (diag : Option Diag) (s : State) : (writeDiag diag s).cfg = s.cfg := by cases diag <;> rfl
@[simp] theorem writeDiag_syncState (diag : Option Diag) (s : State) : (writeDiag diag s).syncState = s.syncState := by cases diag <;> rfl
@[simp] theorem writeDiag_len (diag : Option Diag) (s : State) : (writeDiag diag s).len = s.len := by cases diag <;> rfl
@[simp] theorem writeDiag_rb (diag : Option Diag) (s : State) : (writeDiag diag s).rb = s.rb := by cases diag <;> rfl
@[simp] theorem writeDiag_resValid (diag : Option Diag) (s : State) : (writeDiag diag s).resValid = s.resValid := by cases diag <;> rfl
@[simp] theorem writeDiag_resDst (diag : Option Diag) (s : State) : (writeDiag diag s).resDst = s.resDst := by cases diag <;> rfl
@[simp] theorem writeDiag_resSrc (diag : Option Diag) (s : State) : (writeDiag diag s).resSrc = s.resSrc := by cases diag <;> rfl
@[simp] theorem writeDiag_resVer (diag : Option Diag) (s : State) : (writeDiag diag s).resVer = s.resVer := by cases diag <;> rfl
@[simp] theorem writeDiag_resCmd (diag : Option Diag) (s : State) : (writeDiag diag s).resCmd = s.resCmd := by cases diag <;> rfl
@[simp] theorem writeDiag_resN (diag : Option Diag) (s : State) : (writeDiag diag s).resN = s.resN := by cases diag <;> rfl
@[simp] theorem writeDiag_resHck (diag : Option Diag) (s : State) : (writeDiag diag s).resHck = s.resHck := by cases diag <;> rfl
@[simp] theorem writeDiag_resDbLen (diag : Option Diag) (s : State) : (writeDiag diag s).resDbLen = s.resDbLen := by cases diag <;> rfl
@[simp] theorem writeDiag_resDb (diag : Option Diag) (s : State) : (writeDiag diag s).resDb = s.resDb := by cases diag <;> rfl
@[simp] theorem writeDiag_fv (diag : Option Diag) (s : State) : (writeDiag diag s).fv = s.fv := by cases diag <;> rfl
@[simp] theorem writeDiag_lastCode (diag : Option Diag) (s : State) : (writeDiag diag s).lastCode = s.lastCode := by cases diag <;> rfl
@[simp] theorem writeDiag_candSeen (diag : Option Diag) (s : State) : (writeDiag diag s).candSeen = s.candSeen := by cases diag <;> rfl
@[simp] theorem writeDiag_diagExp (diag : Option Diag) (s : State) : (writeDiag diag s).diagExp = (diag.map (·.exp)).getD s.diagExp := by cases diag <;> rfl
@[simp] theorem writeDiag_diagAct (diag : Option Diag) (s : State) : (writeDiag diag s).diagAct = (diag.map (·.act)).getD s.diagAct := by cases diag <;> rfl
@[simp] theorem writeDiag_diagKind (diag : Option Diag) (s : State) : (writeDiag diag s).diagKind = (diag.map (·.kind)).getD s.diagKind := by cases diag <;> rfl
@[simp] theorem writeDiag_diagIdx (diag : Option Diag) (s : State) : (writeDiag diag s).diagIdx = (diag.map (·.idx)).getD s.diagIdx := by cases diag <;> rfl
@[simp] theorem writeDiag_out (diag : Option Diag) (s : State) : (writeDiag diag s).out = s.out := by cases diag <;> rfl
@[simp] theorem writeDiag_work (diag : Option Diag) (s : State) : (writeDiag diag s).work = s.work := by cases diag <;> rfl
@[simp] theorem writeDiag_input (diag : Option Diag) (s : State) : (writeDiag diag s).input = s.input := by cases diag <;> rfl

/-! ### Reject entry -/

@[simp] theorem takeReject_params (code : RejectCode) (diag : Option Diag) (s : State) : (takeReject code diag s).params = s.params := by cases diag <;> rfl
@[simp] theorem takeReject_cfg (code : RejectCode) (diag : Option Diag) (s : State) : (takeReject code diag s).cfg = s.cfg := by cases diag <;> rfl
@[simp] theorem takeReject_syncState (code : RejectCode) (diag : Option Diag) (s : State) : (takeReject code diag s).syncState = s.syncState := by cases diag <;> rfl
@[simp] theorem takeReject_len (code : RejectCode) (diag : Option Diag) (s : State) : (takeReject code diag s).len = 0 := by cases diag <;> rfl
@[simp] theorem takeReject_rb (code : RejectCode) (diag : Option Diag) (s : State) : (takeReject code diag s).rb = s.rb := by cases diag <;> rfl
@[simp] theorem takeReject_resValid (code : RejectCode) (diag : Option Diag) (s : State) : (takeReject code diag s).resValid = s.resValid := by cases diag <;> rfl
@[simp] theorem takeReject_resDst (code : RejectCode) (diag : Option Diag) (s : State) : (takeReject code diag s).resDst = s.resDst := by cases diag <;> rfl
@[simp] theorem takeReject_resSrc (code : RejectCode) (diag : Option Diag) (s : State) : (takeReject code diag s).resSrc = s.resSrc := by cases diag <;> rfl
@[simp] theorem takeReject_resVer (code : RejectCode) (diag : Option Diag) (s : State) : (takeReject code diag s).resVer = s.resVer := by cases diag <;> rfl
@[simp] theorem takeReject_resCmd (code : RejectCode) (diag : Option Diag) (s : State) : (takeReject code diag s).resCmd = s.resCmd := by cases diag <;> rfl
@[simp] theorem takeReject_resN (code : RejectCode) (diag : Option Diag) (s : State) : (takeReject code diag s).resN = s.resN := by cases diag <;> rfl
@[simp] theorem takeReject_resHck (code : RejectCode) (diag : Option Diag) (s : State) : (takeReject code diag s).resHck = s.resHck := by cases diag <;> rfl
@[simp] theorem takeReject_resDbLen (code : RejectCode) (diag : Option Diag) (s : State) : (takeReject code diag s).resDbLen = s.resDbLen := by cases diag <;> rfl
@[simp] theorem takeReject_resDb (code : RejectCode) (diag : Option Diag) (s : State) : (takeReject code diag s).resDb = s.resDb := by cases diag <;> rfl
@[simp] theorem takeReject_fv (code : RejectCode) (diag : Option Diag) (s : State) : (takeReject code diag s).fv = s.fv := by cases diag <;> rfl
@[simp] theorem takeReject_lastCode (code : RejectCode) (diag : Option Diag) (s : State) : (takeReject code diag s).lastCode = .rejected code := by cases diag <;> rfl
@[simp] theorem takeReject_candSeen (code : RejectCode) (diag : Option Diag) (s : State) : (takeReject code diag s).candSeen = true := by cases diag <;> rfl
@[simp] theorem takeReject_diagExp (code : RejectCode) (diag : Option Diag) (s : State) : (takeReject code diag s).diagExp = (diag.map (·.exp)).getD s.diagExp := by cases diag <;> rfl
@[simp] theorem takeReject_diagAct (code : RejectCode) (diag : Option Diag) (s : State) : (takeReject code diag s).diagAct = (diag.map (·.act)).getD s.diagAct := by cases diag <;> rfl
@[simp] theorem takeReject_diagKind (code : RejectCode) (diag : Option Diag) (s : State) : (takeReject code diag s).diagKind = (diag.map (·.kind)).getD s.diagKind := by cases diag <;> rfl
@[simp] theorem takeReject_diagIdx (code : RejectCode) (diag : Option Diag) (s : State) : (takeReject code diag s).diagIdx = (diag.map (·.idx)).getD s.diagIdx := by cases diag <;> rfl
@[simp] theorem takeReject_out (code : RejectCode) (diag : Option Diag) (s : State) : (takeReject code diag s).out = ⟨.reject code, code.headerPassed⟩ := by cases diag <;> rfl
@[simp] theorem takeReject_work (code : RejectCode) (diag : Option Diag) (s : State) : (takeReject code diag s).work = {} := by cases diag <;> rfl
@[simp] theorem takeReject_input (code : RejectCode) (diag : Option Diag) (s : State) : (takeReject code diag s).input = s.input.tail := by cases diag <;> rfl

/-! ### Accept entry -/

@[simp] theorem takeAccept_params (h : Header) (d : List Byte) (fv : List FieldVal) (s : State) : (takeAccept h d fv s).params = s.params := rfl
@[simp] theorem takeAccept_cfg (h : Header) (d : List Byte) (fv : List FieldVal) (s : State) : (takeAccept h d fv s).cfg = s.cfg := rfl
@[simp] theorem takeAccept_syncState (h : Header) (d : List Byte) (fv : List FieldVal) (s : State) : (takeAccept h d fv s).syncState = s.syncState := rfl
@[simp] theorem takeAccept_len (h : Header) (d : List Byte) (fv : List FieldVal) (s : State) : (takeAccept h d fv s).len = 0 := rfl
@[simp] theorem takeAccept_rb (h : Header) (d : List Byte) (fv : List FieldVal) (s : State) : (takeAccept h d fv s).rb = s.rb := rfl
@[simp] theorem takeAccept_resValid (h : Header) (d : List Byte) (fv : List FieldVal) (s : State) : (takeAccept h d fv s).resValid = true := rfl
@[simp] theorem takeAccept_resDst (h : Header) (d : List Byte) (fv : List FieldVal) (s : State) : (takeAccept h d fv s).resDst = h.dst := rfl
@[simp] theorem takeAccept_resSrc (h : Header) (d : List Byte) (fv : List FieldVal) (s : State) : (takeAccept h d fv s).resSrc = h.src := rfl
@[simp] theorem takeAccept_resVer (h : Header) (d : List Byte) (fv : List FieldVal) (s : State) : (takeAccept h d fv s).resVer = h.ver := rfl
@[simp] theorem takeAccept_resCmd (h : Header) (d : List Byte) (fv : List FieldVal) (s : State) : (takeAccept h d fv s).resCmd = h.cmd := rfl
@[simp] theorem takeAccept_resN (h : Header) (d : List Byte) (fv : List FieldVal) (s : State) : (takeAccept h d fv s).resN = h.n := rfl
@[simp] theorem takeAccept_resHck (h : Header) (d : List Byte) (fv : List FieldVal) (s : State) : (takeAccept h d fv s).resHck = h.hck := rfl
@[simp] theorem takeAccept_resDbLen (h : Header) (d : List Byte) (fv : List FieldVal) (s : State) : (takeAccept h d fv s).resDbLen = BitVec.ofNat 10 (dataPerFrame * h.n.toNat) := rfl
@[simp] theorem takeAccept_resDb (h : Header) (d : List Byte) (fv : List FieldVal) (s : State) : (takeAccept h d fv s).resDb = Memory.writeRange s.resDb 0 d := rfl
@[simp] theorem takeAccept_fv (h : Header) (d : List Byte) (fv : List FieldVal) (s : State) : (takeAccept h d fv s).fv = fv := rfl
@[simp] theorem takeAccept_lastCode (h : Header) (d : List Byte) (fv : List FieldVal) (s : State) : (takeAccept h d fv s).lastCode = .ok := rfl
@[simp] theorem takeAccept_candSeen (h : Header) (d : List Byte) (fv : List FieldVal) (s : State) : (takeAccept h d fv s).candSeen = true := rfl
@[simp] theorem takeAccept_diagExp (h : Header) (d : List Byte) (fv : List FieldVal) (s : State) : (takeAccept h d fv s).diagExp = s.diagExp := rfl
@[simp] theorem takeAccept_diagAct (h : Header) (d : List Byte) (fv : List FieldVal) (s : State) : (takeAccept h d fv s).diagAct = s.diagAct := rfl
@[simp] theorem takeAccept_diagKind (h : Header) (d : List Byte) (fv : List FieldVal) (s : State) : (takeAccept h d fv s).diagKind = s.diagKind := rfl
@[simp] theorem takeAccept_diagIdx (h : Header) (d : List Byte) (fv : List FieldVal) (s : State) : (takeAccept h d fv s).diagIdx = s.diagIdx := rfl
@[simp] theorem takeAccept_out (h : Header) (d : List Byte) (fv : List FieldVal) (s : State) : (takeAccept h d fv s).out = ⟨.accept, true⟩ := rfl
@[simp] theorem takeAccept_work (h : Header) (d : List Byte) (fv : List FieldVal) (s : State) : (takeAccept h d fv s).work = {} := rfl
@[simp] theorem takeAccept_input (h : Header) (d : List Byte) (fv : List FieldVal) (s : State) : (takeAccept h d fv s).input = s.input.tail := rfl

/-! ### The checksum engine -/

@[simp] theorem cksumOp_params (bytes : List Byte) (s : State) : (cksumOp bytes s).params = s.params := rfl
@[simp] theorem cksumOp_cfg (bytes : List Byte) (s : State) : (cksumOp bytes s).cfg = s.cfg := rfl
@[simp] theorem cksumOp_syncState (bytes : List Byte) (s : State) : (cksumOp bytes s).syncState = s.syncState := rfl
@[simp] theorem cksumOp_len (bytes : List Byte) (s : State) : (cksumOp bytes s).len = s.len := rfl
@[simp] theorem cksumOp_rb (bytes : List Byte) (s : State) : (cksumOp bytes s).rb = s.rb := rfl
@[simp] theorem cksumOp_resValid (bytes : List Byte) (s : State) : (cksumOp bytes s).resValid = s.resValid := rfl
@[simp] theorem cksumOp_resDst (bytes : List Byte) (s : State) : (cksumOp bytes s).resDst = s.resDst := rfl
@[simp] theorem cksumOp_resSrc (bytes : List Byte) (s : State) : (cksumOp bytes s).resSrc = s.resSrc := rfl
@[simp] theorem cksumOp_resVer (bytes : List Byte) (s : State) : (cksumOp bytes s).resVer = s.resVer := rfl
@[simp] theorem cksumOp_resCmd (bytes : List Byte) (s : State) : (cksumOp bytes s).resCmd = s.resCmd := rfl
@[simp] theorem cksumOp_resN (bytes : List Byte) (s : State) : (cksumOp bytes s).resN = s.resN := rfl
@[simp] theorem cksumOp_resHck (bytes : List Byte) (s : State) : (cksumOp bytes s).resHck = s.resHck := rfl
@[simp] theorem cksumOp_resDbLen (bytes : List Byte) (s : State) : (cksumOp bytes s).resDbLen = s.resDbLen := rfl
@[simp] theorem cksumOp_resDb (bytes : List Byte) (s : State) : (cksumOp bytes s).resDb = s.resDb := rfl
@[simp] theorem cksumOp_fv (bytes : List Byte) (s : State) : (cksumOp bytes s).fv = s.fv := rfl
@[simp] theorem cksumOp_lastCode (bytes : List Byte) (s : State) : (cksumOp bytes s).lastCode = s.lastCode := rfl
@[simp] theorem cksumOp_candSeen (bytes : List Byte) (s : State) : (cksumOp bytes s).candSeen = s.candSeen := rfl
@[simp] theorem cksumOp_diagExp (bytes : List Byte) (s : State) : (cksumOp bytes s).diagExp = s.diagExp := rfl
@[simp] theorem cksumOp_diagAct (bytes : List Byte) (s : State) : (cksumOp bytes s).diagAct = s.diagAct := rfl
@[simp] theorem cksumOp_diagKind (bytes : List Byte) (s : State) : (cksumOp bytes s).diagKind = s.diagKind := rfl
@[simp] theorem cksumOp_diagIdx (bytes : List Byte) (s : State) : (cksumOp bytes s).diagIdx = s.diagIdx := rfl
@[simp] theorem cksumOp_out (bytes : List Byte) (s : State) : (cksumOp bytes s).out = s.out := rfl
@[simp] theorem cksumOp_work (bytes : List Byte) (s : State) : (cksumOp bytes s).work = { s.work with ck := cksum bytes } := rfl
@[simp] theorem cksumOp_input (bytes : List Byte) (s : State) : (cksumOp bytes s).input = s.input := rfl

/-! ### A field value -/

@[simp] theorem pushField_params (v : FieldVal) (s : State) : (pushField v s).params = s.params := rfl
@[simp] theorem pushField_cfg (v : FieldVal) (s : State) : (pushField v s).cfg = s.cfg := rfl
@[simp] theorem pushField_syncState (v : FieldVal) (s : State) : (pushField v s).syncState = s.syncState := rfl
@[simp] theorem pushField_len (v : FieldVal) (s : State) : (pushField v s).len = s.len := rfl
@[simp] theorem pushField_rb (v : FieldVal) (s : State) : (pushField v s).rb = s.rb := rfl
@[simp] theorem pushField_resValid (v : FieldVal) (s : State) : (pushField v s).resValid = s.resValid := rfl
@[simp] theorem pushField_resDst (v : FieldVal) (s : State) : (pushField v s).resDst = s.resDst := rfl
@[simp] theorem pushField_resSrc (v : FieldVal) (s : State) : (pushField v s).resSrc = s.resSrc := rfl
@[simp] theorem pushField_resVer (v : FieldVal) (s : State) : (pushField v s).resVer = s.resVer := rfl
@[simp] theorem pushField_resCmd (v : FieldVal) (s : State) : (pushField v s).resCmd = s.resCmd := rfl
@[simp] theorem pushField_resN (v : FieldVal) (s : State) : (pushField v s).resN = s.resN := rfl
@[simp] theorem pushField_resHck (v : FieldVal) (s : State) : (pushField v s).resHck = s.resHck := rfl
@[simp] theorem pushField_resDbLen (v : FieldVal) (s : State) : (pushField v s).resDbLen = s.resDbLen := rfl
@[simp] theorem pushField_resDb (v : FieldVal) (s : State) : (pushField v s).resDb = s.resDb := rfl
@[simp] theorem pushField_fv (v : FieldVal) (s : State) : (pushField v s).fv = s.fv := rfl
@[simp] theorem pushField_lastCode (v : FieldVal) (s : State) : (pushField v s).lastCode = s.lastCode := rfl
@[simp] theorem pushField_candSeen (v : FieldVal) (s : State) : (pushField v s).candSeen = s.candSeen := rfl
@[simp] theorem pushField_diagExp (v : FieldVal) (s : State) : (pushField v s).diagExp = s.diagExp := rfl
@[simp] theorem pushField_diagAct (v : FieldVal) (s : State) : (pushField v s).diagAct = s.diagAct := rfl
@[simp] theorem pushField_diagKind (v : FieldVal) (s : State) : (pushField v s).diagKind = s.diagKind := rfl
@[simp] theorem pushField_diagIdx (v : FieldVal) (s : State) : (pushField v s).diagIdx = s.diagIdx := rfl
@[simp] theorem pushField_out (v : FieldVal) (s : State) : (pushField v s).out = s.out := rfl
@[simp] theorem pushField_work (v : FieldVal) (s : State) : (pushField v s).work = { s.work with fv := s.work.fv ++ [v] } := rfl
@[simp] theorem pushField_input (v : FieldVal) (s : State) : (pushField v s).input = s.input := rfl

/-! ### A byte of a segment -/

@[simp] theorem appendByte_params (b : Byte) (s : State) : (appendByte b s).params = s.params := rfl
@[simp] theorem appendByte_cfg (b : Byte) (s : State) : (appendByte b s).cfg = s.cfg := rfl
@[simp] theorem appendByte_syncState (b : Byte) (s : State) : (appendByte b s).syncState = s.syncState := rfl
@[simp] theorem appendByte_len (b : Byte) (s : State) : (appendByte b s).len = if s.len ≤ s.params.rbCap then s.len + 1 else s.len := rfl
@[simp] theorem appendByte_rb (b : Byte) (s : State) : (appendByte b s).rb = if s.len < s.params.rbCap then Memory.write s.rb s.len b else s.rb := rfl
@[simp] theorem appendByte_resValid (b : Byte) (s : State) : (appendByte b s).resValid = s.resValid := rfl
@[simp] theorem appendByte_resDst (b : Byte) (s : State) : (appendByte b s).resDst = s.resDst := rfl
@[simp] theorem appendByte_resSrc (b : Byte) (s : State) : (appendByte b s).resSrc = s.resSrc := rfl
@[simp] theorem appendByte_resVer (b : Byte) (s : State) : (appendByte b s).resVer = s.resVer := rfl
@[simp] theorem appendByte_resCmd (b : Byte) (s : State) : (appendByte b s).resCmd = s.resCmd := rfl
@[simp] theorem appendByte_resN (b : Byte) (s : State) : (appendByte b s).resN = s.resN := rfl
@[simp] theorem appendByte_resHck (b : Byte) (s : State) : (appendByte b s).resHck = s.resHck := rfl
@[simp] theorem appendByte_resDbLen (b : Byte) (s : State) : (appendByte b s).resDbLen = s.resDbLen := rfl
@[simp] theorem appendByte_resDb (b : Byte) (s : State) : (appendByte b s).resDb = s.resDb := rfl
@[simp] theorem appendByte_fv (b : Byte) (s : State) : (appendByte b s).fv = s.fv := rfl
@[simp] theorem appendByte_lastCode (b : Byte) (s : State) : (appendByte b s).lastCode = s.lastCode := rfl
@[simp] theorem appendByte_candSeen (b : Byte) (s : State) : (appendByte b s).candSeen = s.candSeen := rfl
@[simp] theorem appendByte_diagExp (b : Byte) (s : State) : (appendByte b s).diagExp = s.diagExp := rfl
@[simp] theorem appendByte_diagAct (b : Byte) (s : State) : (appendByte b s).diagAct = s.diagAct := rfl
@[simp] theorem appendByte_diagKind (b : Byte) (s : State) : (appendByte b s).diagKind = s.diagKind := rfl
@[simp] theorem appendByte_diagIdx (b : Byte) (s : State) : (appendByte b s).diagIdx = s.diagIdx := rfl
@[simp] theorem appendByte_out (b : Byte) (s : State) : (appendByte b s).out = s.out := rfl
@[simp] theorem appendByte_work (b : Byte) (s : State) : (appendByte b s).work = s.work := rfl
@[simp] theorem appendByte_input (b : Byte) (s : State) : (appendByte b s).input = s.input := rfl

/-! ### Reset -/

@[simp] theorem resetStep_params (p : Sample) (s : State) : (resetStep p s).params = s.params := rfl
@[simp] theorem resetStep_cfg (p : Sample) (s : State) : (resetStep p s).cfg = p.config s.cfg := rfl
@[simp] theorem resetStep_syncState (p : Sample) (s : State) : (resetStep p s).syncState = .hunt := rfl
@[simp] theorem resetStep_len (p : Sample) (s : State) : (resetStep p s).len = 0 := rfl
@[simp] theorem resetStep_rb (p : Sample) (s : State) : (resetStep p s).rb = [] := rfl
@[simp] theorem resetStep_resValid (p : Sample) (s : State) : (resetStep p s).resValid = false := rfl
@[simp] theorem resetStep_resDst (p : Sample) (s : State) : (resetStep p s).resDst = 0#16 := rfl
@[simp] theorem resetStep_resSrc (p : Sample) (s : State) : (resetStep p s).resSrc = 0#16 := rfl
@[simp] theorem resetStep_resVer (p : Sample) (s : State) : (resetStep p s).resVer = 0#8 := rfl
@[simp] theorem resetStep_resCmd (p : Sample) (s : State) : (resetStep p s).resCmd = 0#16 := rfl
@[simp] theorem resetStep_resN (p : Sample) (s : State) : (resetStep p s).resN = 0#8 := rfl
@[simp] theorem resetStep_resHck (p : Sample) (s : State) : (resetStep p s).resHck = 0#8 := rfl
@[simp] theorem resetStep_resDbLen (p : Sample) (s : State) : (resetStep p s).resDbLen = 0#10 := rfl
@[simp] theorem resetStep_resDb (p : Sample) (s : State) : (resetStep p s).resDb = [] := rfl
@[simp] theorem resetStep_fv (p : Sample) (s : State) : (resetStep p s).fv = List.replicate s.params.numFields .absent := rfl
@[simp] theorem resetStep_lastCode (p : Sample) (s : State) : (resetStep p s).lastCode = .ok := rfl
@[simp] theorem resetStep_candSeen (p : Sample) (s : State) : (resetStep p s).candSeen = false := rfl
@[simp] theorem resetStep_diagExp (p : Sample) (s : State) : (resetStep p s).diagExp = 0#7 := rfl
@[simp] theorem resetStep_diagAct (p : Sample) (s : State) : (resetStep p s).diagAct = 0#8 := rfl
@[simp] theorem resetStep_diagKind (p : Sample) (s : State) : (resetStep p s).diagKind = .header := rfl
@[simp] theorem resetStep_diagIdx (p : Sample) (s : State) : (resetStep p s).diagIdx = 0#8 := rfl
@[simp] theorem resetStep_out (p : Sample) (s : State) : (resetStep p s).out = {} := rfl
@[simp] theorem resetStep_work (p : Sample) (s : State) : (resetStep p s).work = {} := rfl
@[simp] theorem resetStep_input (p : Sample) (s : State) : (resetStep p s).input = s.input.tail := rfl

/-! ### The width of `LEN` (spec/00_scope.md R6) -/

/-- `LEN_W` bits hold every value of `LEN`. -/
theorem rbCap_succ_lt_pow_lenW (p : Params) : p.rbCap + 1 < 2 ^ p.lenW := Nat.lt_log2_self

/-- One bit less would not hold `RB_CAP + 1`. -/
theorem pow_lenW_le_rbCap_succ (p : Params) : 2 ^ (p.lenW - 1) ≤ p.rbCap + 1 := Nat.log2_self_le (Nat.succ_ne_zero _)

/-- A saturated count fits its register. -/
theorem lt_pow_lenW {p : Params} {n : Nat} (h : n ≤ p.rbCap + 1) : n < 2 ^ p.lenW :=
  Nat.lt_of_le_of_lt h (rbCap_succ_lt_pow_lenW p)

end Sys2Proof.Machine
end

