-- ==== Sys2Proof/Laws/Evaluation.lean ====
section
/-!
SUPPORT. What each shared operation can do, said once: how checks follow one another, and for each check the two
ways it can go.
-/
namespace Sys2Proof.Machine

/-! ### One check after another -/

@[simp] theorem Progress.goOn_andThen (s : State) (f : State → Progress) : (Progress.goOn s).andThen f = f s := rfl

@[simp] theorem Progress.ended_andThen (o : Host.Outcome State Fault Refusal) (f : State → Progress) :
    (Progress.ended o).andThen f = .ended o := rfl

@[simp] theorem raiseReject_andThen (code : RejectCode) (diag : Option Diag) (s : State) (f : State → Progress) :
    (raiseReject code diag s).andThen f = raiseReject code diag s := rfl

@[simp] theorem Progress.outcome_goOn (s : State) : (Progress.goOn s).outcome = .next s := rfl

@[simp] theorem Progress.outcome_ended (o : Host.Outcome State Fault Refusal) : (Progress.ended o).outcome = o := rfl

@[simp] theorem outcome_raiseReject (code : RejectCode) (diag : Option Diag) (s : State) :
    (raiseReject code diag s).outcome = .next (takeReject code diag s) := rfl

/-- Chains of checks associate. -/
theorem Progress.andThen_assoc (p : Progress) (f g : State → Progress) :
    (p.andThen f).andThen g = p.andThen fun s => (f s).andThen g := by
  cases p <;> rfl

/-- A rejection ignores the intermediate values it finds: the end of the step clears them. -/
theorem takeReject_ignores_work (code : RejectCode) (diag : Option Diag) (w : Work) (s : State) :
    takeReject code diag { s with work := w } = takeReject code diag s := by
  cases diag <;> rfl

/-- So does an acceptance. -/
theorem takeAccept_ignores_work (h : Header) (d : List Byte) (fv : List FieldVal) (w : Work) (s : State) :
    takeAccept h d fv { s with work := w } = takeAccept h d fv s := rfl

/-! ### Each check, both ways -/

theorem hv1Op_cases (h : HeaderHead) (s : State) :
    (h.ver = s.cfg.version ∧ hv1Op h s = .goOn s) ∨
    (h.ver ≠ s.cfg.version ∧ hv1Op h s = raiseReject .badVersion none s) := by
  unfold hv1Op
  split <;> simp_all

theorem hv2Op_cases (h : HeaderHead) (s : State) :
    (9 ≤ s.len ∧ hv2Op h s = .goOn s) ∨ (s.len < 9 ∧ hv2Op h s = raiseReject .incomplete none s) := by
  unfold hv2Op
  split
  · exact .inr ⟨by assumption, rfl⟩
  · exact .inl ⟨by simp only [hdrLen] at *; omega, rfl⟩

theorem hv3Op_cases (h : Header) (s : State) :
    (h.cmd = s.cfg.command ∧ hv3Op h s = .goOn s) ∨
    (h.cmd ≠ s.cfg.command ∧ hv3Op h s = raiseReject .badCommand none s) := by
  unfold hv3Op
  split <;> simp_all

theorem hv4Op_cases (h : Header) (s : State) :
    (h.hck = lowByte (cksum h.covered) ∧ hv4Op h s = .goOn (cksumOp h.covered s)) ∨
    (h.hck ≠ lowByte (cksum h.covered) ∧
      hv4Op h s = raiseReject .hdrChecksum (some ⟨cksum h.covered, h.hck, .header, 0#8⟩) (cksumOp h.covered s)) := by
  unfold hv4Op hv4Compare
  split
  · rename_i hc
    exact .inl ⟨by simpa using hc, rfl⟩
  · rename_i hc
    exact .inr ⟨by simpa using hc, by simp⟩

theorem hv5Op_cases (h : Header) (s : State) :
    (s.len = 9 + 6 * h.n.toNat ∧ hv5Op h s = .goOn s) ∨
    (s.len ≠ 9 + 6 * h.n.toNat ∧ hv5Op h s = raiseReject .length none s) := by
  unfold hv5Op
  split
  · exact .inl ⟨by assumption, rfl⟩
  · exact .inr ⟨by assumption, rfl⟩

theorem highscanOp_cases (payload : List Byte) (s : State) :
    ((∀ b ∈ payload, b.getLsbD 7 = false) ∧ highscanOp payload s = .goOn s) ∨
    ((∃ b ∈ payload, b.getLsbD 7 = true) ∧ highscanOp payload s = raiseReject .highBit none s) := by
  unfold highscanOp
  split
  · rename_i h
    exact .inr ⟨by simpa using h, rfl⟩
  · rename_i h
    exact .inl ⟨by simpa using h, rfl⟩

theorem frameckOp_cases (w : Frame) (s : State) :
    (w.fck = cksum w.covered ∧ frameckOp w s = .goOn (cksumOp w.covered s)) ∨
    (w.fck ≠ cksum w.covered ∧
      frameckOp w s = raiseReject .frameChecksum
        (some ⟨cksum w.covered, lowByte w.fck, .frame, BitVec.ofNat 8 (s.work.d.length / 4)⟩)
        (cksumOp w.covered s)) := by
  unfold frameckOp frameckCompare
  split
  · rename_i hc
    exact .inl ⟨by simpa using hc, rfl⟩
  · rename_i hc
    exact .inr ⟨by simpa using hc, by simp [frameIndex]⟩

theorem unpackOp_eq (w : Frame) (s : State) :
    unpackOp w s = .goOn { s with work := { s.work with d := s.work.d ++ unpackBytes w } } := rfl

theorem rangeOp_cases (s : State) :
    (reqBytes s.cfg.ft ≤ s.work.d.length ∧ rangeOp s = .goOn s) ∨
    (s.work.d.length < reqBytes s.cfg.ft ∧ rangeOp s = raiseReject .fieldRange none s) := by
  unfold rangeOp
  split
  · exact .inr ⟨by assumption, rfl⟩
  · exact .inl ⟨by omega, rfl⟩

theorem readField_cases (f : Field) (raw : Int) (s : State) :
    (fieldEnd f ≤ s.work.d.length ∧ readField f raw s = .goOn (pushField ⟨true, raw⟩ s)) ∨
    (s.work.d.length < fieldEnd f ∧ readField f raw s = raiseReject .fieldRange none s) := by
  unfold readField
  split
  · exact .inl ⟨by assumption, rfl⟩
  · exact .inr ⟨by omega, rfl⟩

/-- An inactive slot gives its absent value; an active one, well-formed as R80 asks, gives the value of its field
or the rejection of `readField`. -/
theorem slotOp_cases {w : DescWord} {s : State} (hw : descriptorWf s.params w = true) :
    (descValid w = false ∧ slotOp w s = .goOn (pushField .absent s)) ∨
    (descValid w = true ∧ descSigned w = false ∧ slotOp w s = fieldUOp (descField w) s) ∨
    (descValid w = true ∧ descSigned w = true ∧ slotOp w s = fieldSOp (descField w) s) := by
  unfold slotOp
  by_cases hv : descValid w = false
  · exact .inl ⟨hv, by simp [hv]⟩
  · have hv' : descValid w = true := by simpa using hv
    simp only [descriptorWf, hv', Bool.not_true, Bool.false_or, Bool.and_eq_true, decide_eq_true_eq, bne_iff_ne,
      ne_eq] at hw
    obtain ⟨⟨⟨hr, h1⟩, h2⟩, hz⟩ := hw
    have hd : decodeDescriptor s.params w =
        .ok (if descSigned w then .fieldS (descField w) else .fieldU (descField w)) := by
      have h0 : (descLength w).toNat ≠ 0 := by omega
      simp [decodeDescriptor, hv', hr, h0, h2, hz]
    cases hs : descSigned w
    · exact .inr (.inl ⟨hv', rfl, by simp [hv', hd, hs]⟩)
    · exact .inr (.inr ⟨hv', rfl, by simp [hv', hd, hs]⟩)

/-! ### Operand reads -/

/-- A read of the record buffer answers the bytes of its indices, all in the valid part. -/
theorem State.rbRange_eq_some {s : State} {a n : Nat} {bytes : List Byte} :
    s.rbRange a n = some bytes ↔ a + n ≤ s.validLen ∧ Memory.readRange s.rb a n = some bytes := by
  unfold State.rbRange
  split <;> simp_all

/-- The bytes of a candidate's head are those of the buffer (R51). -/
theorem parseHead_ok {bytes : List Byte} {h : HeaderHead} (hp : parseHead bytes = .ok h) :
    ∃ b0 b1 b2 b3 v tail, bytes = b0 :: b1 :: b2 :: b3 :: v :: tail ∧ tail.length ≤ 4 ∧
      h = ⟨joinBytes b0 b1, joinBytes b2 b3, v, tail⟩ := by
  unfold parseHead at hp
  split at hp
  · rename_i b0 b1 b2 b3 v tail
    split at hp
    · rename_i hl
      obtain rfl := Except.ok.inj hp
      exact ⟨b0, b1, b2, b3, v, tail, rfl, hl, rfl⟩
    · cases hp
  · cases hp

/-- A parsed header comes from exactly nine bytes (R63, R64). -/
theorem parseHeader_ok {bytes : List Byte} {h : Header} (hp : parseHeader bytes = .ok h) :
    ∃ b0 b1 b2 b3 v b5 b6 n k, bytes = [b0, b1, b2, b3, v, b5, b6, n, k] ∧
      h = ⟨joinBytes b0 b1, joinBytes b2 b3, v, joinBytes b5 b6, n, k⟩ := by
  unfold parseHeader at hp
  split at hp
  · rename_i b0 b1 b2 b3 v b5 b6 n k
    obtain rfl := Except.ok.inj hp
    exact ⟨b0, b1, b2, b3, v, b5, b6, n, k, rfl, rfl⟩
  · cases hp

end Sys2Proof.Machine
end

