-- ==== Sys2Proof/Laws/Inversion.lean ====
section
/-!
SUPPORT. What an evaluation and a step can do, said once: an evaluation that answers a next state has taken the
reject entry or the accept entry, and a step is one of six things.
-/
namespace Sys2Proof.Machine

/-- The diagnostics that come with a reject reason (spec/60_exceptions.md R181): codes 4 and 7 have them, the others
have none. -/
def DiagFor (code : RejectCode) (diag : Option Diag) : Prop :=
  match code with
  | .hdrChecksum => ∃ exp act, diag = some ⟨exp, act, .header, 0#8⟩
  | .frameChecksum => ∃ exp act idx, diag = some ⟨exp, lowByte act, .frame, idx⟩
  | _ => diag = none

/-- Where an operation can leave an evaluation that started in `s`: it goes on with only the intermediate values
changed, or it has ended in the reject entry, the accept entry, or a stop. -/
def Progress.From (s : State) (p : Progress) : Prop :=
  match p with
  | .goOn t => ∃ w, t = { s with work := w }
  | .ended o =>
    (∃ code diag, DiagFor code diag ∧ o = .next (takeReject code diag s)) ∨
    (∃ h d fv, o = .next (takeAccept h d fv s)) ∨ (∃ r, o = .fault r) ∨ (∃ r, o = .refused r)

theorem Progress.From.goOn (s : State) (w : Work) : Progress.From s (.goOn { s with work := w }) := ⟨w, rfl⟩

theorem Progress.From.pass (s : State) : Progress.From s (.goOn s) := ⟨s.work, rfl⟩

theorem Progress.From.reject {s : State} {code : RejectCode} {diag : Option Diag} (h : DiagFor code diag) :
    Progress.From s (raiseReject code diag s) := .inl ⟨code, diag, h, rfl⟩

/-- An operation's progress does not depend on which intermediate values it is told from. -/
theorem Progress.From.of_work {s : State} {w : Work} {p : Progress} (h : Progress.From { s with work := w } p) :
    Progress.From s p := by
  cases p with
  | goOn t =>
    obtain ⟨w', rfl⟩ := h
    exact ⟨w', rfl⟩
  | ended o =>
    rcases h with ⟨code, diag, hd, rfl⟩ | ⟨hdr, d, fv, rfl⟩ | h | h
    · exact .inl ⟨code, diag, hd, by rw [takeReject_ignores_work]⟩
    · exact .inr (.inl ⟨hdr, d, fv, rfl⟩)
    · exact .inr (.inr (.inl h))
    · exact .inr (.inr (.inr h))

/-- One operation after another. -/
theorem Progress.From.andThen {s : State} {p : Progress} {f : State → Progress} (hp : Progress.From s p)
    (hf : ∀ t, Progress.From t (f t)) : Progress.From s (p.andThen f) := by
  cases p with
  | goOn t =>
    obtain ⟨w, rfl⟩ := hp
    exact (hf _).of_work
  | ended o => exact hp

theorem hv1Op_from (h : HeaderHead) (s : State) : Progress.From s (hv1Op h s) := by
  rcases hv1Op_cases h s with ⟨-, e⟩ | ⟨-, e⟩ <;> rw [e]
  · exact .pass s
  · exact .reject rfl

theorem hv2Op_from (h : HeaderHead) (s : State) : Progress.From s (hv2Op h s) := by
  rcases hv2Op_cases h s with ⟨-, e⟩ | ⟨-, e⟩ <;> rw [e]
  · exact .pass s
  · exact .reject rfl

theorem hv3Op_from (h : Header) (s : State) : Progress.From s (hv3Op h s) := by
  rcases hv3Op_cases h s with ⟨-, e⟩ | ⟨-, e⟩ <;> rw [e]
  · exact .pass s
  · exact .reject rfl

theorem hv4Op_from (h : Header) (s : State) : Progress.From s (hv4Op h s) := by
  rcases hv4Op_cases h s with ⟨-, e⟩ | ⟨-, e⟩ <;> rw [e]
  · exact .goOn s _
  · exact Progress.From.of_work (w := (cksumOp h.covered s).work) (.reject ⟨_, _, rfl⟩)

theorem hv5Op_from (h : Header) (s : State) : Progress.From s (hv5Op h s) := by
  rcases hv5Op_cases h s with ⟨-, e⟩ | ⟨-, e⟩ <;> rw [e]
  · exact .pass s
  · exact .reject rfl

theorem highscanOp_from (payload : List Byte) (s : State) : Progress.From s (highscanOp payload s) := by
  rcases highscanOp_cases payload s with ⟨-, e⟩ | ⟨-, e⟩ <;> rw [e]
  · exact .pass s
  · exact .reject rfl

theorem frameckOp_from (w : Frame) (s : State) : Progress.From s (frameckOp w s) := by
  rcases frameckOp_cases w s with ⟨-, e⟩ | ⟨-, e⟩ <;> rw [e]
  · exact .goOn s _
  · exact Progress.From.of_work (w := (cksumOp w.covered s).work) (.reject ⟨_, _, _, rfl⟩)

theorem unpackOp_from (w : Frame) (s : State) : Progress.From s (unpackOp w s) := .goOn s _

theorem framesOp_from (payload : List Byte) (s : State) : Progress.From s (framesOp payload s) := by
  induction payload, s using framesOp.induct with
  | case1 b0 b1 b2 b3 b4 b5 rest s w hw ih =>
    rw [framesOp, hw]
    exact ((frameckOp_from w s).andThen (unpackOp_from w)).andThen ih
  | case2 b0 b1 b2 b3 b4 b5 rest s e he =>
    rw [framesOp, he]
    exact .reject rfl
  | case3 payload s hne =>
    rw [framesOp]
    · exact .pass s
    · exact hne

theorem payloadOp_from (payload : List Byte) (s : State) : Progress.From s (payloadOp payload s) :=
  (highscanOp_from payload s).andThen fun _ => (framesOp_from payload _).of_work

theorem rangeOp_from (s : State) : Progress.From s (rangeOp s) := by
  rcases rangeOp_cases s with ⟨-, e⟩ | ⟨-, e⟩ <;> rw [e]
  · exact .pass s
  · exact .reject rfl

theorem readField_from (f : Field) (raw : Int) (s : State) : Progress.From s (readField f raw s) := by
  rcases readField_cases f raw s with ⟨-, e⟩ | ⟨-, e⟩ <;> rw [e]
  · exact .goOn s _
  · exact .reject rfl

theorem slotOp_from (w : DescWord) (s : State) : Progress.From s (slotOp w s) := by
  unfold slotOp
  split
  · exact .goOn s _
  · split
    · exact readField_from _ _ s
    · exact readField_from _ _ s
    · exact .inr (.inr (.inr ⟨_, rfl⟩))

theorem slotsOp_from (ft : List DescWord) (s : State) : Progress.From s (slotsOp ft s) := by
  induction ft generalizing s with
  | nil => exact .pass s
  | cons w rest ih => exact (slotOp_from w s).andThen ih

theorem mapperOp_from (s : State) : Progress.From s (mapperOp s) :=
  (rangeOp_from s).andThen fun _ => (slotsOp_from _ _).of_work

theorem acceptOp_from (h : Header) (s : State) : Progress.From s (acceptOp h s) := .inr (.inl ⟨_, _, _, rfl⟩)

theorem bodyOp_from (h : Header) (s : State) : Progress.From s (bodyOp h s) := by
  unfold bodyOp
  split
  · exact .inr (.inr (.inl ⟨_, rfl⟩))
  · exact ((payloadOp_from _ s).andThen mapperOp_from).andThen (acceptOp_from h)

theorem headerOp_from (h : Header) (s : State) : Progress.From s (headerOp h s) :=
  (((hv3Op_from h s).andThen (hv4Op_from h)).andThen (hv5Op_from h)).andThen (bodyOp_from h)

theorem recordOp_from (h : Header) (s : State) : Progress.From s (recordOp h s) :=
  ((hv1Op_from h.head s).andThen (hv2Op_from h.head)).andThen (headerOp_from h)

theorem candidateOp_from (s : State) : Progress.From s (candidateOp s) := by
  unfold candidateOp
  split
  · exact .inr (.inr (.inl ⟨_, rfl⟩))
  · refine ((hv1Op_from _ s).andThen (hv2Op_from _)).andThen fun t => ?_
    split
    · exact .inr (.inr (.inl ⟨_, rfl⟩))
    · exact headerOp_from _ t

theorem underConfig_from {s : State} {p : Progress} (hp : Progress.From s p) : Progress.From s (underConfig s p) := by
  unfold underConfig
  split
  · exact hp
  · exact .inr (.inr (.inr ⟨_, rfl⟩))

/-! ### An evaluation always ends -/

/-- The evaluation of a record ends: it does not just go on. -/
def Progress.IsEnded (p : Progress) : Prop := ∃ o, p = .ended o

theorem Progress.IsEnded.andThen (p : Progress) {f : State → Progress} (hf : ∀ t, (f t).IsEnded) :
    (p.andThen f).IsEnded := by
  cases p with
  | goOn t => exact hf t
  | ended o => exact ⟨o, rfl⟩

theorem bodyOp_isEnded (h : Header) (s : State) : (bodyOp h s).IsEnded := by
  unfold bodyOp
  split
  · exact ⟨_, rfl⟩
  · exact Progress.IsEnded.andThen _ fun _ => ⟨_, rfl⟩

theorem headerOp_isEnded (h : Header) (s : State) : (headerOp h s).IsEnded :=
  Progress.IsEnded.andThen _ (bodyOp_isEnded h)

theorem recordOp_isEnded (h : Header) (s : State) : (recordOp h s).IsEnded :=
  Progress.IsEnded.andThen _ (headerOp_isEnded h)

theorem candidateOp_isEnded (s : State) : (candidateOp s).IsEnded := by
  unfold candidateOp
  split
  · exact ⟨_, rfl⟩
  · refine Progress.IsEnded.andThen _ fun t => ?_
    split
    · exact ⟨_, rfl⟩
    · exact headerOp_isEnded _ t

/-- An ended evaluation that answers a next state has taken one of the two entries. -/
theorem outcome_next {s t : State} {p : Progress} (hf : Progress.From s p) (he : p.IsEnded)
    (h : (underConfig s p).outcome = .next t) :
    (∃ code diag, DiagFor code diag ∧ t = takeReject code diag s) ∨ ∃ hdr d fv, t = takeAccept hdr d fv s := by
  obtain ⟨o, rfl⟩ := he
  unfold underConfig at h
  split at h
  · obtain rfl : o = .next t := h
    rcases hf with ⟨code, diag, hd, e⟩ | ⟨hdr, d, fv, e⟩ | ⟨r, e⟩ | ⟨r, e⟩
    · cases e
      exact .inl ⟨code, diag, hd, rfl⟩
    · cases e
      exact .inr ⟨hdr, d, fv, rfl⟩
    · cases e
    · cases e
  · cases h

/-- What `SYNC` can do (spec/41_frame_sync.md R103, R105, R106). -/
theorem execSync_next {s t : State} (h : execSync s = .next t) :
    (s.syncState = .hunt ∧ t = endStep silent { s with syncState := .collect, len := 0 }) ∨
    (s.syncState = .collect ∧ s.len < 5 ∧ t = endStep silent { s with len := 0 }) ∨
    (s.syncState = .collect ∧ 5 ≤ s.len ∧
      ((∃ code diag, DiagFor code diag ∧ t = takeReject code diag s) ∨ ∃ hdr d fv, t = takeAccept hdr d fv s)) := by
  unfold execSync at h
  cases hs : s.syncState with
  | hunt =>
    rw [hs] at h
    cases h
    exact .inl ⟨rfl, rfl⟩
  | collect =>
    rw [hs] at h
    dsimp only at h
    split at h
    · rename_i hl
      cases h
      exact .inr (.inl ⟨rfl, hl, rfl⟩)
    · rename_i hl
      exact .inr (.inr ⟨rfl, Nat.le_of_not_lt hl, outcome_next (candidateOp_from s) (candidateOp_isEnded s) h⟩)

/-- The operation of a byte that is no delimiter. -/
theorem exec_decodeByte_data {b : Byte} (hb : b ≠ delim) (s : State) : exec (decodeByte b) s = .next (dataByte b s) := by
  by_cases h7 : b.getLsbD 7 = true
  · have e : highByte (septetOf b) = b := by
      rw [highByte, septetOf]
      revert h7
      revert b
      decide +kernel
    have hd : decodeByte b = .high (septetOf b) := by
      unfold decodeByte
      rw [if_neg hb, if_pos h7]
    rw [hd]
    show Host.Outcome.next (dataByte (highByte (septetOf b)) s) = _
    rw [e]
  · have e : lowByte (septetOf b) = b := by
      rw [lowByte, septetOf]
      revert h7
      revert b
      decide +kernel
    have hd : decodeByte b = .septet (septetOf b) := by
      unfold decodeByte
      rw [if_neg hb, if_neg h7]
    rw [hd]
    show Host.Outcome.next (dataByte (lowByte (septetOf b)) s) = _
    rw [e]

/-- The operation of the delimiter. -/
theorem exec_decodeByte_delim (s : State) : exec (decodeByte delim) s = execSync s := rfl

/-- What a step can do: reset; nothing, with no byte at the port; a data byte; or one of the three cases of the
delimiter. -/
theorem step_next {s t : State} (h : step s = .next t) :
    (s.presented.rst = true ∧ t = resetStep s.presented s) ∨
    (s.presented.rst = false ∧ s.presented.config s.cfg = s.cfg ∧ configWf s.params s.cfg = true ∧
      ((s.presented.inValid = false ∧ t = endStep silent s) ∨
       (s.presented.inValid = true ∧ s.presented.inByte ≠ delim ∧ t = dataByte s.presented.inByte s) ∨
       (s.presented.inValid = true ∧ s.presented.inByte = delim ∧ execSync s = .next t))) := by
  unfold step at h
  by_cases hr : s.presented.rst = true
  · rw [if_pos hr] at h
    cases h
    exact .inl ⟨hr, rfl⟩
  · have hr' : s.presented.rst = false := by simpa using hr
    rw [if_neg hr] at h
    by_cases hc : s.presented.config s.cfg = s.cfg
    · rw [if_neg (by simpa using hc)] at h
      by_cases hw : configWf s.params s.cfg = false
      · rw [if_pos hw] at h
        cases h
      · have hw' : configWf s.params s.cfg = true := by simpa using hw
        rw [if_neg hw] at h
        refine .inr ⟨hr', hc, hw', ?_⟩
        by_cases hv : s.presented.inValid = true
        · rw [if_pos hv] at h
          by_cases hb : s.presented.inByte = delim
          · rw [hb, exec_decodeByte_delim] at h
            exact .inr (.inr ⟨hv, hb, h⟩)
          · rw [exec_decodeByte_data hb] at h
            cases h
            exact .inr (.inl ⟨hv, hb, rfl⟩)
        · rw [if_neg hv] at h
          cases h
          exact .inl ⟨by simpa using hv, rfl⟩
    · rw [if_pos (by simpa using hc)] at h
      cases h

end Sys2Proof.Machine
end

