-- ==== Sys2Proof/Laws/Memory.lean ====
section
/-!
SUPPORT. The laws of the byte spaces: a read after a write, reads of ranges, and that every operation keeps the
canonical form.
-/
namespace Sys2Proof.Machine

@[simp] theorem Memory.read_nil (a : Nat) : Memory.read [] a = none := rfl

@[simp] theorem Memory.writeRange_nil (m : Memory) (a : Nat) : Memory.writeRange m a [] = m := rfl

@[simp] theorem Memory.readRange_zero (m : Memory) (a : Nat) : Memory.readRange m a 0 = some [] := rfl

/-- A write is seen by a read of the same index. -/
@[simp] theorem Memory.read_write_same (m : Memory) (a : Nat) (b : Byte) :
    Memory.read (Memory.write m a b) a = some b := by
  induction m with
  | nil => simp [Memory.write, Memory.read]
  | cons cell m ih =>
    obtain ⟨x, c⟩ := cell
    unfold Memory.write
    split
    · simp [Memory.read]
    · split
      · simp [Memory.read]
      · simp [Memory.read, *]

/-- A write leaves every other index alone. -/
theorem Memory.read_write_other (m : Memory) {a a' : Nat} (b : Byte) (h : a' ≠ a) :
    Memory.read (Memory.write m a b) a' = Memory.read m a' := by
  induction m with
  | nil => simp [Memory.write, Memory.read, h]
  | cons cell m ih =>
    obtain ⟨x, c⟩ := cell
    unfold Memory.write
    split
    · simp [Memory.read, h]
    · split
      · rename_i _ hax
        subst hax
        simp [Memory.read, h]
      · simp only [Memory.read, ih]

/-- Every entry after a write is the written one or was there before. -/
theorem Memory.mem_write {m : Memory} {a : Nat} {b : Byte} {cell : Host.Cell}
    (h : cell ∈ Memory.write m a b) : cell = (a, b) ∨ cell ∈ m := by
  induction m with
  | nil => simpa [Memory.write] using h
  | cons first m ih =>
    obtain ⟨x, c⟩ := first
    unfold Memory.write at h
    split at h
    · simpa using h
    · split at h
      · rcases List.mem_cons.mp h with h | h
        · exact .inl h
        · exact .inr (List.mem_cons_of_mem _ h)
      · rcases List.mem_cons.mp h with h | h
        · exact .inr (by simp [h])
        · rcases ih h with h | h
          · exact .inl h
          · exact .inr (List.mem_cons_of_mem _ h)

/-- A write keeps the canonical form. -/
theorem Memory.write_wf {m : Memory} (hm : Memory.wf m) (a : Nat) (b : Byte) : Memory.wf (Memory.write m a b) := by
  induction m with
  | nil => simp [Memory.write, Memory.wf]
  | cons first m ih =>
    obtain ⟨x, c⟩ := first
    obtain ⟨hx, hm'⟩ := List.pairwise_cons.mp hm
    unfold Memory.write
    split
    · rename_i hlt
      refine List.pairwise_cons.mpr ⟨fun cell hc => ?_, hm⟩
      rcases List.mem_cons.mp hc with rfl | hc
      · exact hlt
      · exact Nat.lt_trans hlt (hx cell hc)
    · split
      · rename_i _ hax
        subst hax
        exact List.pairwise_cons.mpr ⟨hx, hm'⟩
      · rename_i hlt hne
        refine List.pairwise_cons.mpr ⟨fun cell hc => ?_, ih hm'⟩
        rcases Memory.mem_write hc with rfl | hc
        · show x < a
          omega
        · exact hx cell hc

/-- Writing a range keeps the canonical form. -/
theorem Memory.writeRange_wf {m : Memory} (hm : Memory.wf m) (a : Nat) (bytes : List Byte) :
    Memory.wf (Memory.writeRange m a bytes) := by
  induction bytes generalizing m a with
  | nil => exact hm
  | cons b rest ih => exact ih (Memory.write_wf hm a b) (a + 1)

/-- Writing a range leaves the indices below it alone. -/
theorem Memory.read_writeRange_below (m : Memory) {a a' : Nat} (bytes : List Byte) (h : a' < a) :
    Memory.read (Memory.writeRange m a bytes) a' = Memory.read m a' := by
  induction bytes generalizing m a with
  | nil => rfl
  | cons b rest ih =>
    rw [Memory.writeRange, ih _ (by omega), Memory.read_write_other _ _ (by omega)]

/-- Writing a range leaves the indices above it alone. -/
theorem Memory.read_writeRange_above (m : Memory) {a a' : Nat} (bytes : List Byte) (h : a + bytes.length ≤ a') :
    Memory.read (Memory.writeRange m a bytes) a' = Memory.read m a' := by
  induction bytes generalizing m a with
  | nil => rfl
  | cons b rest ih =>
    simp only [List.length_cons] at h
    rw [Memory.writeRange, ih _ (by omega), Memory.read_write_other _ _ (by omega)]

/-- A written range reads back. -/
theorem Memory.read_writeRange_inside (m : Memory) (a : Nat) (bytes : List Byte) {i : Nat} (h : i < bytes.length) :
    Memory.read (Memory.writeRange m a bytes) (a + i) = bytes[i]? := by
  induction bytes generalizing m a i with
  | nil => simp at h
  | cons b rest ih =>
    rw [Memory.writeRange]
    cases i with
    | zero => simp [Memory.read_writeRange_below]
    | succ i =>
      have := ih (Memory.write m a b) (a + 1) (i := i) (by simpa using h)
      rw [show a + (i + 1) = a + 1 + i by omega, this]
      rfl

/-- Every entry after a range write lies in the range or was there before. -/
theorem Memory.mem_writeRange {m : Memory} {a : Nat} {bytes : List Byte} {cell : Host.Cell}
    (h : cell ∈ Memory.writeRange m a bytes) : (a ≤ cell.1 ∧ cell.1 < a + bytes.length) ∨ cell ∈ m := by
  induction bytes generalizing m a with
  | nil => exact .inr h
  | cons b rest ih =>
    simp only [List.length_cons]
    rcases ih h with h | h
    · exact .inl (by omega)
    · rcases Memory.mem_write h with rfl | h
      · exact .inl (by simp)
      · exact .inr h

/-- What a range read answers: the bytes at its indices, one by one. -/
theorem Memory.readRange_eq_some {m : Memory} {a n : Nat} {bytes : List Byte} :
    Memory.readRange m a n = some bytes ↔
      bytes.length = n ∧ ∀ i, i < n → Memory.read m (a + i) = bytes[i]? := by
  induction n generalizing a bytes with
  | zero =>
    simp only [Memory.readRange_zero, Option.some.injEq, Nat.not_lt_zero, false_implies, implies_true, and_true]
    exact ⟨fun h => by simp [← h], fun h => (List.length_eq_zero_iff.mp h).symm⟩
  | succ n ih =>
    constructor
    · intro h
      unfold Memory.readRange at h
      split at h
      · rename_i b rest hb hrest
        obtain ⟨hlen, hread⟩ := ih.mp hrest
        obtain rfl := Option.some.inj h
        refine ⟨by simp [hlen], fun i hi => ?_⟩
        cases i with
        | zero => simpa using hb
        | succ i =>
          rw [show a + (i + 1) = a + 1 + i by omega, hread i (by omega)]
          rfl
      · cases h
    · rintro ⟨hlen, hread⟩
      cases bytes with
      | nil => simp at hlen
      | cons b rest =>
        have hb : Memory.read m a = some b := by simpa using hread 0 (by omega)
        have hrest : Memory.readRange m (a + 1) n = some rest :=
          ih.mpr ⟨by simpa using hlen, fun i hi => by
            have := hread (i + 1) (by omega)
            rw [show a + (i + 1) = a + 1 + i by omega] at this
            simpa using this⟩
        simp [Memory.readRange, hb, hrest]

/-- A range whose indices have all been written can be read. -/
theorem Memory.readRange_isSome {m : Memory} {a n : Nat} (h : ∀ i, i < n → (Memory.read m (a + i)).isSome) :
    (Memory.readRange m a n).isSome := by
  induction n generalizing a with
  | zero => rfl
  | succ n ih =>
    have h0 := h 0 (by omega)
    have hr := ih (a := a + 1) fun i hi => by
      have := h (i + 1) (by omega)
      rwa [show a + (i + 1) = a + 1 + i by omega] at this
    obtain ⟨b, hb⟩ := Option.isSome_iff_exists.mp h0
    obtain ⟨rest, hrest⟩ := Option.isSome_iff_exists.mp hr
    rw [Nat.add_zero] at hb
    simp [Memory.readRange, hb, hrest]

/-- The length of what a range read answers. -/
theorem Memory.readRange_length {m : Memory} {a n : Nat} {bytes : List Byte}
    (h : Memory.readRange m a n = some bytes) : bytes.length = n := (Memory.readRange_eq_some.mp h).1

/-- The entries of loaded bytes start at their first index. -/
theorem cellsFrom_lower {a : Nat} {bytes : List Byte} {cell : Host.Cell} (h : cell ∈ cellsFrom a bytes) : a ≤ cell.1 := by
  induction bytes generalizing a with
  | nil => simp [cellsFrom] at h
  | cons b rest ih =>
    rcases List.mem_cons.mp h with rfl | h
    · exact Nat.le_refl _
    · exact Nat.le_of_succ_le (ih h)

/-- Loaded bytes are in canonical form. -/
theorem cellsFrom_wf (a : Nat) (bytes : List Byte) : Memory.wf (cellsFrom a bytes) := by
  induction bytes generalizing a with
  | nil => exact List.Pairwise.nil
  | cons b rest ih =>
    exact List.pairwise_cons.mpr ⟨fun cell hc => cellsFrom_lower hc, ih (a + 1)⟩

/-- Loaded bytes are read back at their own indices. -/
theorem read_cellsFrom (a : Nat) (bytes : List Byte) (i : Nat) : Memory.read (cellsFrom a bytes) (a + i) = bytes[i]? := by
  induction bytes generalizing a i with
  | nil => rfl
  | cons b rest ih =>
    rw [cellsFrom, Memory.read]
    cases i with
    | zero => simp
    | succ i =>
      rw [if_neg (by omega), show a + (i + 1) = a + 1 + i by omega, ih]
      rfl

/-- Loaded bytes are read back whole. -/
theorem readRange_cellsFrom (bytes : List Byte) : Memory.readRange (cellsFrom 0 bytes) 0 bytes.length = some bytes :=
  Memory.readRange_eq_some.mpr ⟨rfl, fun i _ => read_cellsFrom 0 bytes i⟩

/-- The memories of the state after reset are in canonical form. -/
theorem resetWith_wf (p : Params) (c : Config) (input : List Sample) :
    Memory.wf (State.resetWith p c input).rb ∧ Memory.wf (State.resetWith p c input).resDb :=
  ⟨List.Pairwise.nil, List.Pairwise.nil⟩

/-- An appended byte keeps the record buffer's canonical form. -/
theorem appendByte_wf (b : Byte) {s : State} (h : Memory.wf s.rb) :
    Memory.wf (if s.len < s.params.rbCap then Memory.write s.rb s.len b else s.rb) := by
  split
  · exact Memory.write_wf h _ _
  · exact h

end Sys2Proof.Machine
end

