-- ==== Sys2Proof/Laws/Operations.lean ====
section
/-!
SUPPORT. What the units of an evaluation do, said once against the pure functions of
Sys2Proof/Machine/Candidate.lean: the payload decoder, the field mapper, and the operands that they find in the
record buffer.
-/
namespace Sys2Proof.Machine

/-- A byte is a septet with bit 7 clear exactly when the numbers agree. -/
theorem eq_lowByte_iff (b : Byte) (c : Septet) : b = lowByte c ↔ b.toNat = c.toNat := by
  rw [← BitVec.toNat_inj, lowByte_toNat]

theorem any_high_eq (payload : List Byte) : payload.any (fun b => decide (0x80 ≤ b.toNat)) = payload.any (·.getLsbD 7) := by
  congr 1; funext b
  rw [Bool.eq_iff_iff, decide_eq_true_iff, bit7_iff]

/-- The mask byte of a wire frame from its two fields. -/
theorem lowByte_maskByte (m : Byte) (h : m.getLsbD 7 = false): lowByte (BitVec.extractLsb' 4 3 m ++ BitVec.extractLsb' 0 4 m) = m := by
  have h7 : ¬(0x80 ≤ m.toNat) := fun hb => Bool.noConfusion (h.symm.trans ((bit7_iff m).mpr hb))
  apply BitVec.eq_of_toNat_eq
  rw [lowByte_toNat, toNat_append_eq]
  simp [Nat.shiftRight_eq_div_pow]; omega

/-- One lane of `UNPACK` as the bit formula of spec/43_payload_decoder.md R143. -/
theorem restoreByte_eq (d m : Byte) (h : d.getLsbD 7 = false) (j : Nat) (hj : j < 4) :
   restoreByte (septetOf d) ((m.extractLsb' 0 4).getLsbD j) = d ||| (((m >>> j) &&& 1#8) <<< 7) := by
  have hd : d = lowByte (septetOf d) := (lowByte_septetOf h).symm
  generalize septetOf d = x at *
  subst hd
  have : ∀ (x : Septet) (b : Bool), restoreByte x b = lowByte x ||| (BitVec.setWidth 8 (BitVec.ofBool b) <<< 7) := by decide +kernel
  rw [this]
  congr 2
  apply BitVec.eq_of_getLsbD_eq
  intro i hi
  have : i = 0 ∨ i ≠ 0 := by omega
  rcases this with rfl | h0
  · simp
    intro h
    rcases (by omega : j = 0 ∨ j = 1 ∨ j = 2 ∨ j = 3) with rfl | rfl | rfl | rfl <;> simp
  · simp [h0]

/-- Six bytes below 0x80 parse to the wire frame with those bytes, which unpacks to the bytes of R143. -/
theorem parseFrame_six (b0 b1 b2 b3 b4 b5 : Byte) (h : [b0, b1, b2, b3, b4, b5].any (·.getLsbD 7) = false) :
   ∃ w, parseFrame [b0, b1, b2, b3, b4, b5] = .ok w ∧ w.covered = [b0, b1, b2, b3, b4] ∧ lowByte w.fck = b5 ∧ unpackBytes w = recoverBytes [b0, b1, b2, b3, b4, b5] := by
  refine ⟨_, by rw [parseFrame, if_neg (by rw [h]; decide)], ?_, ?_, ?_⟩
  all_goals simp only [List.any_cons, List.any_nil, Bool.or_eq_false_iff] at h
  · obtain ⟨h0,h1,h2,h3,h4,h5,-⟩ := h
    simp only [Frame.covered, lowByte_septetOf h0, lowByte_septetOf h1, lowByte_septetOf h2, lowByte_septetOf h3, lowByte_maskByte _ h4]
  · exact lowByte_septetOf h.2.2.2.2.2.1
  · obtain ⟨h0,h1,h2,h3,h4,h5,-⟩ := h
    simp only [unpackBytes, recoverBytes, restoreByte_eq _ _ h0 0 (by decide), restoreByte_eq _ _ h1 1 (by decide), restoreByte_eq _ _ h2 2 (by decide), restoreByte_eq _ _ h3 3 (by decide)]
    simp [List.range_succ]

/-- `PayloadDecode` behind its scan, for a payload whose first frame has index `i0` (R144). -/
def framesDecode (i0 n : Nat) (payload : List Byte) : Except Rejection (List Byte) :=
  match (List.range n).find? (fun i => !frameOk (wireFrame payload i)) with
    | some i =>
      .error ⟨.frameChecksum, some ⟨cksum ((wireFrame payload i).take 5), (wireFrame payload i).getD 5 0#8, .frame,
        BitVec.ofNat 8 (i0 + i)⟩⟩
    | none => .ok ((List.range n).flatMap fun i => recoverBytes (wireFrame payload i))

/-- A payload of one wire frame or more. -/
theorem six_more (p : List Byte) (n) (h : p.length = 6 * (n+1)) : ∃ b0 b1 b2 b3 b4 b5 r, p = b0::b1::b2::b3::b4::b5::r ∧ r.length = 6*n := by
  match p, h with
  | b0::b1::b2::b3::b4::b5::r, h => exact ⟨_,_,_,_,_,_,_,rfl, by simp at h; omega⟩
  | [], h => simp at h
  | [_], h => simp at h; omega
  | [_,_], h => simp at h; omega
  | [_,_,_], h => simp at h; omega
  | [_,_,_,_], h => simp at h; omega
  | [_,_,_,_,_], h => simp at h; omega

/-- The frames of a payload, run by `FRAMECK` and `UNPACK` in turn, do what `PayloadDecode` says (R142 to R144). -/
theorem framesOp_spec (n : Nat) : ∀ (payload : List Byte) (s : State) (i0 : Nat), payload.length = 6 * n → payload.any (·.getLsbD 7) = false →
   s.work.d.length = 4 * i0 →
   match framesDecode i0 n payload with
   | .error r => framesOp payload s = raiseReject r.code r.diag s
   | .ok d => ∃ w, w.d = s.work.d ++ d ∧ framesOp payload s = .goOn {s with work := w} := by
  induction n with
  | zero =>
    intro p s i0 hl _ _
    have : p = [] := by simpa using hl
    subst this
    exact ⟨s.work, by simp, rfl⟩
  | succ n ih =>
    intro p s i0 hl hb hd
    obtain ⟨b0, b1, b2, b3, b4, b5,r,rfl,hr⟩ := six_more p n hl
    have hb' : [b0, b1, b2, b3, b4, b5].any (·.getLsbD 7) = false ∧ r.any (·.getLsbD 7) = false := by
      simpa [and_assoc] using hb
    obtain ⟨w, hw, hc, hf, hu⟩ := parseFrame_six b0 b1 b2 b3 b4 b5 hb'.1
    have w0 : wireFrame (b0::b1::b2::b3::b4::b5::r) 0 = [b0, b1, b2, b3, b4, b5] := rfl
    have ws : ∀ i, wireFrame (b0::b1::b2::b3::b4::b5::r) (i+1) = wireFrame r i := by
      intro i; simp [wireFrame, Nat.mul_add]
    have fo : frameOk [b0, b1, b2, b3, b4, b5] = true ↔ w.fck = cksum w.covered := by
      simp only [frameOk, hc]
      have : ([b0, b1, b2, b3, b4, b5] : List Byte).getD 5 0#8 = lowByte w.fck := by rw [hf]; rfl
      rw [this]
      simp
      constructor
      · intro h; have := congrArg septetOf h; simpa using this
      · intro h; rw [h]
    rw [framesOp, hw]
    simp only
    unfold framesDecode
    rw [List.range_succ_eq_map, List.find?_cons, w0]
    rcases frameckOp_cases w s with ⟨a, b⟩ | ⟨a, b⟩
    · rw [fo.2 a, b]
      simp only [Progress.goOn_andThen, unpackOp_eq, Bool.not_true, List.find?_map, Function.comp_def, Nat.succ_eq_add_one, ws]
      have := ih r { cksumOp w.covered s with work := { (cksumOp w.covered s).work with d := (cksumOp w.covered s).work.d ++ unpackBytes w } } (i0+1) hr hb'.2 (by simp [cksumOp, hd]; omega)
      unfold framesDecode at this
      cases hfi : (List.range n).find? (fun i => !frameOk (wireFrame r i)) with
      | some i =>
        simp only [hfi, Option.map_some, ws] at this ⊢
        rw [this, raiseReject, raiseReject]
        rw [show i0 + 1 + i = i0 + (i+1) by omega]
        rw [← takeReject_ignores_work _ _ (cksumOp w.covered s).work s]
        rw [takeReject_ignores_work]; rfl
      | none =>
        simp only [hfi, Option.map_none] at this ⊢
        obtain ⟨w', h1, h2⟩ := this
        refine ⟨w', ?_, h2⟩
        rw [h1]; simp [cksumOp, hu, List.flatMap_map, ws, w0]
    · have : frameOk [b0, b1, b2, b3, b4, b5] = false := by simpa [← fo] using a
      rw [this, b]
      simp only [Bool.not_false, raiseReject_andThen, w0]
      rw [raiseReject, raiseReject, hd, show cksumOp w.covered s = {s with work := (cksumOp w.covered s).work} from rfl, takeReject_ignores_work, hc, hf]
      simp

theorem payloadDecode_eq (n payload) : payloadDecode n payload = if payload.any (fun b => decide (0x80 ≤ b.toNat)) then .error ⟨.highBit, none⟩ else framesDecode 0 n payload := by
  unfold payloadDecode framesDecode; simp only [Nat.zero_add] <;> rfl

theorem recoverBytes_length (w) : (recoverBytes w).length = 4 := by simp [recoverBytes]

/-- Every wire frame gives four decoded bytes (R144). -/
theorem payloadDecode_length (n payload d) (h : payloadDecode n payload = .ok d) : d.length = 4 * n := by
  unfold payloadDecode at h
  split at h
  · cases h
  · split at h
    · cases h
    · cases h
      simp [List.length_flatMap, recoverBytes_length, Nat.mul_comm]

/-- What the payload decoder can do: the rejection or the decoded bytes of `PayloadDecode` (R144). -/
theorem payloadOp_spec (n : Nat) (payload : List Byte) (s : State) (hl : payload.length = 6 * n) :
   match payloadDecode n payload with
   | .error r => payloadOp payload s = raiseReject r.code r.diag s
   | .ok d => ∃ w, w.d = d ∧ payloadOp payload s = .goOn {s with work := w} := by
  rw [payloadDecode_eq, any_high_eq, payloadOp]
  rcases highscanOp_cases payload s with ⟨a, b⟩ | ⟨a, b⟩
  · have h : payload.any (·.getLsbD 7) = false := by simpa using a
    rw [h, b]
    simp only [Progress.goOn_andThen]
    have := framesOp_spec n payload { s with work := { s.work with d := [] } } 0 hl h rfl
    cases hf : framesDecode 0 n payload with
    | error r =>
      simp only [hf] at this
      simp [this]
      rw [raiseReject, raiseReject, takeReject_ignores_work]
    | ok d =>
      simp only [hf] at this
      obtain ⟨w, h1, h2⟩ := this
      exact ⟨w, by simpa using h1, h2⟩
  · have h : payload.any (·.getLsbD 7) = true := by simpa using a
    rw [h, b]
    simp

/-- Slots that fit the decoded bytes give their values, in index order (spec/44_field_mapper.md R168). -/
theorem slotsOp_spec (ft : List DescWord) : ∀ s : State, (∀ w ∈ ft, descriptorWf s.params w = true) → reqBytes ft ≤ s.work.d.length →
   slotsOp ft s = .goOn {s with work := {s.work with fv := s.work.fv ++ ft.map (slotValue s.work.d)}} := by
  induction ft with
  | nil => intro s _ _; simp [slotsOp]
  | cons w ft ih =>
    intro s hw hr
    simp only [reqBytes] at hr
    have hw0 := hw w (by simp)
    have key : slotOp w s = .goOn (pushField (slotValue s.work.d w) s) := by
      rcases slotOp_cases hw0 with ⟨a, b⟩ | ⟨a, a2, b⟩ | ⟨a, a2, b⟩
      · rw [b]; simp [slotValue, a]
      · rw [b, fieldUOp]
        have : fieldEnd (descField w) ≤ s.work.d.length := by simp [a] at hr; omega
        rw [readField, if_pos this]; simp [slotValue, a, a2]
      · rw [b, fieldSOp]
        have : fieldEnd (descField w) ≤ s.work.d.length := by simp [a] at hr; omega
        rw [readField, if_pos this]; simp [slotValue, a, a2, descField]
    rw [slotsOp, key, Progress.goOn_andThen]
    have := ih (pushField (slotValue s.work.d w) s) (fun x hx => hw x (by simp [hx])) (by simp [pushField]; omega)
    refine this.trans ?_
    simp [pushField]

/-- What the field mapper can do: code 8, or one value for each slot (spec/44_field_mapper.md R163, R168). -/
theorem mapperOp_spec (s : State) (hw : ∀ w ∈ s.cfg.ft, descriptorWf s.params w = true) :
   if s.work.d.length < reqBytes s.cfg.ft then mapperOp s = raiseReject .fieldRange none s
   else mapperOp s = .goOn { s with work := {s.work with fv := s.cfg.ft.map (slotValue s.work.d)}} := by
  rw [mapperOp]
  rcases rangeOp_cases s with ⟨a, b⟩ | ⟨a, b⟩
  · rw [if_neg (by omega), b, Progress.goOn_andThen]
    refine (slotsOp_spec s.cfg.ft { s with work := { s.work with fv := [] } } hw a).trans ?_
    simp
  · rw [if_pos a, b]; rfl

/-- What an evaluation can do from the accepted header on. -/
theorem bodyOp_spec (n : Nat) (h : Header) (payload : List Byte) (s : State) (hw : ∀ w ∈ s.cfg.ft, descriptorWf s.params w = true)
   (hf : s.fetchPayload h.n = some payload) (hl : payload.length = 6 * n) :
   bodyOp h s = match payloadDecode n payload with
    | .error r => raiseReject r.code r.diag s
    | .ok d => if d.length < reqBytes s.cfg.ft then raiseReject .fieldRange none s
       else .ended (.next (takeAccept h d (s.cfg.ft.map (slotValue d)) s)) := by
  rw [bodyOp, hf]; simp only
  have := payloadOp_spec n payload s hl
  cases hp : payloadDecode n payload with
  | error r => simp only [hp] at this; simp [this]
  | ok d =>
    simp only [hp] at this
    obtain ⟨w, h1, h2⟩ := this
    rw [h2, Progress.goOn_andThen]
    have := mapperOp_spec {s with work := w} hw
    simp only [h1] at this ⊢
    split
    · rename_i hlt; rw [if_pos hlt] at this; rw [this, raiseReject, takeReject_ignores_work]; rfl
    · rename_i hlt; rw [if_neg hlt] at this; rw [this]; rfl

/-- The candidate is the valid part of the record buffer. -/
theorem candidate_bytes {s : State} {c : Candidate} (h : s.candidate = some c) : c.len = s.len ∧ s.rbRange 0 s.validLen = some c.bytes := by
  unfold State.candidate at h
  cases e : s.rbRange 0 s.validLen with
  | none => simp [e] at h
  | some b => simp [e] at h; subst h; simp

/-- Its bytes are read at their own indices. -/
theorem candidate_read {s : State} {c : Candidate} (h : s.candidate = some c) : c.bytes.length = s.validLen ∧ ∀ i, i < s.validLen → Memory.read s.rb i = c.bytes[i]? := by
  have := (State.rbRange_eq_some.1 (candidate_bytes h).2).2
  have := Memory.readRange_eq_some.1 this
  simpa using this

/-- A range inside the valid part holds those bytes of the candidate. -/
theorem candidate_rbRange {s : State} {c : Candidate} (h : s.candidate = some c) (a n : Nat) (hn : a + n ≤ s.validLen) :
   s.rbRange a n = some ((c.bytes.drop a).take n) := by
  obtain ⟨h1, h2⟩ := candidate_read h
  rw [State.rbRange_eq_some]
  refine ⟨hn, Memory.readRange_eq_some.2 ⟨by simp; omega, fun i hi => ?_⟩⟩
  rw [h2 _ (by omega)]
  simp [hi]

/-- Each descriptor of a well-formed configuration is well-formed. -/
theorem descriptorWf_of_mem {s : State} (h : configWf s.params s.cfg = true) : ∀ w ∈ s.cfg.ft, descriptorWf s.params w = true := by
  unfold configWf at h
  simp at h
  exact h.2

theorem nine_le_rbCap (p : Params) : 9 ≤ p.rbCap := by unfold Params.rbCap hdrLen; omega

theorem five_le_cases (l : List Byte) (h : 5 ≤ l.length) : ∃ b0 b1 b2 b3 b4 r, l = b0::b1::b2::b3::b4::r := by
  match l, h with
  | b0::b1::b2::b3::b4::r, _ => exact ⟨_,_,_,_,_,_,rfl⟩
theorem nine_le_cases (l : List Byte) (h : 9 ≤ l.length) : ∃ b0 b1 b2 b3 b4 b5 b6 b7 b8 r, l = b0::b1::b2::b3::b4::b5::b6::b7::b8::r := by
  match l, h with
  | b0::b1::b2::b3::b4::b5::b6::b7::b8::r, _ => exact ⟨_,_,_,_,_,_,_,_,_,_,rfl⟩

/-- The head of a candidate at its closing delimiter. -/
theorem fetchHead_closing {s c} (h : AtClosing s c) : ∃ hd, s.fetchHead = some hd ∧ hd.ver = c.byte 4 ∧ (9 ≤ s.len → hd = c.header.head) := by
  have hc := candidate_read h.candidate
  have hb := nine_le_rbCap s.params
  have hl := h.long
  have hv : 5 ≤ s.validLen := by unfold State.validLen; omega
  unfold State.fetchHead
  rw [candidate_rbRange h.candidate 0 _ (by simp)]
  obtain ⟨b0, b1, b2, b3, b4,r,hr⟩ := five_le_cases c.bytes (by omega)
  have e : ((c.bytes.drop 0).take (min hdrLen s.validLen)) = b0::b1::b2::b3::b4::r.take (min hdrLen s.validLen - 5) := by
    rw [hr]
    obtain ⟨k, hk⟩ : ∃ k, min hdrLen s.validLen = k + 5 := ⟨min hdrLen s.validLen - 5, by unfold hdrLen; omega⟩
    rw [hk]; simp
  have hlen : (r.take (min hdrLen s.validLen - 5)).length ≤ 4 := by simp
  simp only
  rw [e, parseHead, if_pos hlen]
  refine ⟨_, rfl, by simp [Candidate.byte, hr], ?_⟩
  intro h9
  have hv9 : 9 ≤ s.validLen := by unfold State.validLen; omega
  rw [Nat.min_eq_left hv9]
  obtain ⟨b0',b1',b2',b3',b4',b5, b6, b7, b8,r',hr'⟩ := nine_le_cases c.bytes (by omega)
  rw [hr'] at hr
  injection hr with _ hr; injection hr with _ hr; injection hr with _ hr; injection hr with _ hr; injection hr with _ hr
  subst hr
  subst_vars
  simp [Candidate.header, Header.head, Candidate.byte, hr']

/-- The header of a candidate of nine bytes or more. -/
theorem fetchHeader_closing {s c} (h : AtClosing s c) (h9 : 9 ≤ s.len) : s.fetchHeader = some c.header ∧ c.header.covered = c.bytes.take 8 := by
  have hc := candidate_read h.candidate
  have hb := nine_le_rbCap s.params
  have hv : 9 ≤ s.validLen := by unfold State.validLen; omega
  unfold State.fetchHeader
  rw [candidate_rbRange h.candidate 0 _ (by simp [hdrLen]; omega)]
  obtain ⟨b0, b1, b2, b3, b4, b5, b6, b7, b8,r,hr⟩ := nine_le_cases c.bytes (by omega)
  simp only [hr, hdrLen, List.drop_zero, List.take_succ_cons, List.take_zero, parseHeader]
  simp [Candidate.header, Candidate.byte, hr, Header.covered, Except.toOption]

/-- The payload of a candidate whose length fits its frame count. -/
theorem fetchPayload_closing {s c} (h : AtClosing s c) (n : Byte) (hn : s.len = 9 + 6 * n.toNat) :
   s.fetchPayload n = some ((c.bytes.drop 9).take (6 * n.toNat)) ∧ ((c.bytes.drop 9).take (6 * n.toNat)).length = 6 * n.toNat := by
  have hc := candidate_read h.candidate
  have hb := h.bound
  have hv : s.validLen = s.len := by
    unfold State.validLen; unfold Params.rbCap hdrLen frameLen at *; omega
  constructor
  · exact candidate_rbRange h.candidate _ _ (by simp [hdrLen, frameLen]; omega)
  · simp; omega

/-! ### What an evaluation did, told from its next state -/

/-- A payload read from the buffer has six bytes for each wire frame. -/
theorem fetchPayload_length {s : State} {n : Byte} {payload : List Byte} (h : s.fetchPayload n = some payload) :
    payload.length = 6 * n.toNat :=
  (Memory.readRange_eq_some.1 (State.rbRange_eq_some.1 h).2).1

/-- A payload is rejected for a byte with bit 7 set, or for its lowest wire frame whose checksum is not right, with the
diagnostics of that frame (spec/43_payload_decoder.md R141, R142). -/
theorem payloadDecode_error {n : Nat} {payload : List Byte} {code : RejectCode} {diag : Option Diag}
    (h : payloadDecode n payload = .error ⟨code, diag⟩) :
    (code = .highBit ∧ diag = none) ∨
    (code = .frameChecksum ∧ (∀ b ∈ payload, b.toNat < 0x80) ∧ ∃ i, i < n ∧ frameOk (wireFrame payload i) = false ∧
      (∀ j, j < i → frameOk (wireFrame payload j) = true) ∧
      diag = some ⟨cksum ((wireFrame payload i).take 5), (wireFrame payload i).getD 5 0#8, .frame, BitVec.ofNat 8 i⟩) := by
  unfold payloadDecode at h
  split at h
  · cases h
    exact .inl ⟨rfl, rfl⟩
  · rename_i hb
    split at h
    · rename_i i hi
      cases h
      obtain ⟨h1, h2, h3⟩ := List.find?_range_eq_some.mp hi
      exact .inr ⟨rfl, by simpa using hb, i, List.mem_range.mp h2, by simpa using h1, fun j hj => by simpa using h3 j hj, rfl⟩
    · cases h

/-- What an evaluation that answers a next state has done, in any state: a rejection without diagnostics, a header
checksum mismatch, a frame checksum mismatch, or, with every check passed, the acceptance (R168, R190 to R192). -/
theorem candidateOp_next {s t : State} (hc : configWf s.params s.cfg = true) (ht : (candidateOp s).outcome = .next t) :
    (∃ code, code ≠ .hdrChecksum ∧ code ≠ .frameChecksum ∧ t = takeReject code none s) ∨
    (∃ h, s.fetchHeader = some h ∧ h.hck ≠ lowByte (cksum h.covered) ∧
      t = takeReject .hdrChecksum (some ⟨cksum h.covered, h.hck, .header, 0#8⟩) s) ∨
    (∃ h payload diag, s.fetchHeader = some h ∧ s.fetchPayload h.n = some payload ∧
      payloadDecode h.n.toNat payload = .error ⟨.frameChecksum, diag⟩ ∧ t = takeReject .frameChecksum diag s) ∨
    (∃ hd h payload d, s.fetchHead = some hd ∧ hd.ver = s.cfg.version ∧ s.fetchHeader = some h ∧
      h.cmd = s.cfg.command ∧ h.hck = lowByte (cksum h.covered) ∧ s.len = 9 + 6 * h.n.toNat ∧
      s.fetchPayload h.n = some payload ∧ payloadDecode h.n.toNat payload = .ok d ∧ reqBytes s.cfg.ft ≤ d.length ∧
      t = takeAccept h d (s.cfg.ft.map (slotValue d)) s) := by
  unfold candidateOp at ht
  split at ht
  · cases ht
  rename_i hd hhd
  rcases hv1Op_cases hd s with ⟨hv, e⟩ | ⟨-, e⟩ <;> rw [e] at ht
  swap
  · cases ht; exact .inl ⟨_, by decide, by decide, rfl⟩
  rcases hv2Op_cases hd s with ⟨-, e⟩ | ⟨-, e⟩ <;> rw [Progress.goOn_andThen, e] at ht
  swap
  · cases ht; exact .inl ⟨_, by decide, by decide, rfl⟩
  rw [Progress.goOn_andThen] at ht
  split at ht
  · cases ht
  rename_i h hh
  unfold headerOp at ht
  rcases hv3Op_cases h s with ⟨h3, e⟩ | ⟨-, e⟩ <;> rw [e] at ht
  swap
  · cases ht; exact .inl ⟨_, by decide, by decide, rfl⟩
  rcases hv4Op_cases h s with ⟨h4, e⟩ | ⟨h4, e⟩ <;> rw [Progress.goOn_andThen, e] at ht
  swap
  · cases ht; exact .inr (.inl ⟨h, hh, h4, takeReject_ignores_work _ _ _ s⟩)
  rcases hv5Op_cases h (cksumOp h.covered s) with ⟨h5, e⟩ | ⟨-, e⟩ <;> rw [Progress.goOn_andThen, e] at ht
  swap
  · cases ht; exact .inl ⟨_, by decide, by decide, takeReject_ignores_work _ _ _ s⟩
  rw [Progress.goOn_andThen] at ht
  cases hp : s.fetchPayload h.n with
  | none =>
    rw [bodyOp, show (cksumOp h.covered s).fetchPayload h.n = none from hp] at ht
    cases ht
  | some payload =>
    rw [bodyOp_spec h.n.toNat h payload (cksumOp h.covered s) (descriptorWf_of_mem (s := s) hc) hp
      (fetchPayload_length hp)] at ht
    cases hd' : payloadDecode h.n.toNat payload with
    | error r =>
      rw [hd'] at ht
      cases ht
      obtain ⟨code, diag⟩ := r
      rcases payloadDecode_error hd' with ⟨rfl, rfl⟩ | ⟨rfl, -⟩
      · exact .inl ⟨_, by decide, by decide, takeReject_ignores_work _ _ _ s⟩
      · exact .inr (.inr (.inl ⟨h, payload, diag, hh, hp, hd', takeReject_ignores_work _ _ _ s⟩))
    | ok d =>
      rw [hd'] at ht
      dsimp only at ht
      split at ht
      · cases ht; exact .inl ⟨_, by decide, by decide, takeReject_ignores_work _ _ _ s⟩
      · rename_i hr
        cases ht
        exact .inr (.inr (.inr ⟨hd, h, payload, d, hhd, hv, hh, h3, h4, h5, hp, hd', Nat.le_of_not_lt hr, rfl⟩))

/-- A record whose header and whole payload can be read is the candidate in the buffer, and lies inside it. -/
theorem candidate_of_payload {s : State} {h : Header} {payload : List Byte} (hh : s.fetchHeader = some h)
    (hl : s.len = 9 + 6 * h.n.toNat) (hp : s.fetchPayload h.n = some payload) :
    s.len ≤ s.params.rbCap ∧ ∃ c, s.candidate = some c := by
  obtain ⟨hb, hr⟩ := State.rbRange_eq_some.1 hp
  have hv : s.validLen = s.len ∧ s.len ≤ s.params.rbCap := by
    unfold State.validLen hdrLen frameLen at *
    omega
  refine ⟨hv.2, ?_⟩
  have hbytes : ∀ i, i < s.validLen → (Memory.read s.rb (0 + i)).isSome := by
    intro i hi
    rw [Nat.zero_add]
    unfold State.fetchHeader at hh
    cases e : s.rbRange 0 hdrLen with
    | none => rw [e] at hh; cases hh
    | some head =>
      obtain ⟨l0, r0⟩ := Memory.readRange_eq_some.1 (State.rbRange_eq_some.1 e).2
      obtain ⟨l1, r1⟩ := Memory.readRange_eq_some.1 hr
      unfold hdrLen frameLen at *
      by_cases h9 : i < 9
      · have := r0 i h9
        rw [Nat.zero_add] at this
        rw [this, List.getElem?_eq_getElem (by omega)]; rfl
      · have := r1 (i - 9) (by omega)
        rw [show 9 + (i - 9) = i by omega] at this
        rw [this, List.getElem?_eq_getElem (by omega)]; rfl
  unfold State.candidate State.rbRange
  rw [if_pos (by omega)]
  have := Memory.readRange_isSome hbytes
  cases hr : Memory.readRange s.rb 0 s.validLen with
  | none => rw [hr] at this; cases this
  | some b => exact ⟨_, rfl⟩

/-- A candidate whose operands pass every check is accepted by `DecodeCandidate` with the same values (R168). -/
theorem decodeCandidate_closing_ok {s : State} {c : Candidate} {hd : HeaderHead} {h : Header} {payload d : List Byte}
    (ha : AtClosing s c) (h0 : s.fetchHead = some hd) (h1 : hd.ver = s.cfg.version) (h2 : s.fetchHeader = some h)
    (h3 : h.cmd = s.cfg.command) (h4 : h.hck = lowByte (cksum h.covered)) (h5 : s.len = 9 + 6 * h.n.toNat)
    (h6 : s.fetchPayload h.n = some payload) (h7 : payloadDecode h.n.toNat payload = .ok d)
    (h8 : reqBytes s.cfg.ft ≤ d.length) :
    decodeCandidate s.cfg c = .ok ⟨h, d, s.cfg.ft.map (slotValue d)⟩ := by
  obtain ⟨hd', e0, e1, -⟩ := fetchHead_closing ha
  obtain ⟨e2, e3⟩ := fetchHeader_closing ha (by omega)
  rw [h0] at e0
  obtain rfl := Option.some.inj e0
  rw [h2] at e2
  obtain rfl := Option.some.inj e2
  have e4 := (fetchPayload_closing ha _ h5).1
  rw [h6] at e4
  obtain rfl := Option.some.inj e4
  have hl := (candidate_bytes ha.candidate).1
  have g : headerValidate s.cfg c = .ok ((c.bytes.drop 9).take (6 * (c.byte 7).toNat)) := by
    unfold headerValidate
    have g1 : c.byte 4 = s.cfg.version := e1 ▸ h1
    have g3 : joinBytes (c.byte 5) (c.byte 6) = s.cfg.command := h3
    have g4 : c.byte 8 = lowByte (cksum (c.bytes.take 8)) := e3 ▸ h4
    have g5 : c.len = 9 + 6 * (c.byte 7).toNat := hl.trans h5
    rw [if_neg (not_not.mpr g1), if_neg (by omega), if_neg (not_not.mpr g3), if_neg (not_not.mpr g4),
      if_neg (not_not.mpr g5)]
  unfold decodeCandidate
  rw [g]
  dsimp only
  rw [show payloadDecode (c.byte 7).toNat ((c.bytes.drop 9).take (6 * (c.byte 7).toNat)) = .ok d from h7]
  dsimp only
  rw [if_neg (by omega)]

end Sys2Proof.Machine
end

