-- ==== Sys2Proof/Laws/PerInstr.lean ====
section
/-!
SUPPORT. What holds of every operation as syntax, one lemma per operation.
-/
namespace Sys2Proof.Laws

/-- The sizes of spec/30_encoding.md's formats: B is one byte (R61), H is 9 bytes (R63) or, where an operation runs on a
candidate without a whole header, 5 to 9 (log 12), W is 6 bytes (R66), F is 64 bits (R78), and a payload is at most 255
wire frames (R68). The byte sequence of `CKSUM` has any length (R90). -/
def EncodedSize.sizeAt : Level → Nat → Prop
  | .stream, n => n = 1
  | .checksum, _ => True
  | .hv1, n => 5 ≤ n ∧ n ≤ 9
  | .hv2, n => 5 ≤ n ∧ n ≤ 9
  | .hv3, n => n = 9
  | .hv4, n => n = 9
  | .hv5, n => n = 9
  | .record, n => 5 ≤ n ∧ n ≤ 9
  | .payload, n => n % 6 = 0 ∧ n ≤ 1530
  | .frameCheck, n => n = 6
  | .frameUnpack, n => n = 6
  | .descriptor, n => n = 8

/-- A well-formed operation's encoding has the size of its format. -/
def EncodedSize.Statement (i : Instr) : Prop :=
  ∀ (p : Params) (c : Config), i.wf p c = true → EncodedSize.sizeAt (levelOf i) (encode i).length

/-- The head of a candidate has 5 to 9 bytes. -/
theorem EncodedSize.head_size {h : HeaderHead} (hw : h.wf = true) : 5 ≤ h.bytes.length ∧ h.bytes.length ≤ 9 := by
  simp only [HeaderHead.wf, Bool.and_eq_true, decide_eq_true_eq] at hw
  simp only [HeaderHead.bytes, List.length_append, List.length_cons, List.length_nil]
  omega

theorem EncodedSize.sync : EncodedSize.Statement .sync := fun _ _ _ => rfl

theorem EncodedSize.septet (d : Septet) : EncodedSize.Statement (.septet d) := fun _ _ _ => rfl

theorem EncodedSize.high (x : Septet) : EncodedSize.Statement (.high x) := fun _ _ _ => rfl

theorem EncodedSize.cksum (bytes : List Byte) : EncodedSize.Statement (.cksum bytes) := fun _ _ _ => trivial

theorem EncodedSize.hv1 (h : HeaderHead) : EncodedSize.Statement (.hv1 h) := fun _ _ hw => head_size hw

theorem EncodedSize.hv2 (h : HeaderHead) : EncodedSize.Statement (.hv2 h) := fun _ _ hw => head_size hw

theorem EncodedSize.hv3 (h : Header) : EncodedSize.Statement (.hv3 h) := fun _ _ _ => rfl

theorem EncodedSize.hv4 (h : Header) : EncodedSize.Statement (.hv4 h) := fun _ _ _ => rfl

theorem EncodedSize.hv5 (h : Header) : EncodedSize.Statement (.hv5 h) := fun _ _ _ => rfl

theorem EncodedSize.push (h : Header) : EncodedSize.Statement (.push h) := fun _ _ _ =>
  ⟨by simp [encode, Header.bytes, Header.covered], by simp [encode, Header.bytes, Header.covered]⟩

theorem EncodedSize.othercmd (h : Header) : EncodedSize.Statement (.othercmd h) := fun _ _ _ =>
  ⟨by simp [encode, Header.bytes, Header.covered], by simp [encode, Header.bytes, Header.covered]⟩

theorem EncodedSize.otherver (h : HeaderHead) : EncodedSize.Statement (.otherver h) := by
  intro p c hw
  simp only [Instr.wf, Bool.and_eq_true] at hw
  exact head_size hw.1

theorem EncodedSize.highscan (payload : List Byte) : EncodedSize.Statement (.highscan payload) := by
  intro p c hw
  simp only [Instr.wf, payloadWf, Bool.and_eq_true, decide_eq_true_eq] at hw
  exact hw.1

theorem EncodedSize.frameck (w : Frame) : EncodedSize.Statement (.frameck w) := fun _ _ _ => rfl

theorem EncodedSize.unpack (w : Frame) : EncodedSize.Statement (.unpack w) := fun _ _ _ => rfl

theorem EncodedSize.fieldU (f : Field) : EncodedSize.Statement (.fieldU f) := fun _ _ _ => rfl

theorem EncodedSize.fieldS (f : Field) : EncodedSize.Statement (.fieldS f) := fun _ _ _ => rfl

end Sys2Proof.Laws
end

