-- ==== Sys2Proof/Tests/Slice0.lean ====
section
/-!
SUPPORT. The model's own tests: the well-formedness checks refuse, written-out words decode, each operation does what the
vectors of spec/95_test_vectors.md say, and every statement with hypotheses has a state that meets them.
-/
namespace Sys2Proof.Tests
open Sys2Proof Sys2Proof.Machine

-- One proof at a time: every kernel evaluation below waits for the ones before it, and a thread for each would not fit.
set_option Elab.async false

/-! ### Helpers -/

def bs (l : List Nat) : List Byte := l.map (BitVec.ofNat 8)

/-- The default configuration with the first slots of the field table filled. -/
def table (fields : List DescWord) : Config := { ft := fields ++ List.replicate (16 - fields.length) 0#64 }

/-- `FIELD k: off len u|s FNUM/FDEN`. -/
def fld (signed : Bool) (off len num den : Nat) : DescWord :=
  fieldWord signed ⟨BitVec.ofNat 10 off, BitVec.ofNat 3 len, BitVec.ofNat 16 num, BitVec.ofNat 16 den⟩

/-- A candidate collected after reset, with its closing delimiter at the port. -/
def closing (c : Config) (cand : List Byte) : State := (State.resetWith {} c []).loadCandidate cand

def nextOf (o : Host.Outcome State Fault Refusal) : Option State :=
  match o with
  | .next t => some t
  | .fault _ => none
  | .refused _ => none

/-- The state after the step, read by `f`. -/
def after {α : Type} (f : State → α) (o : Host.Outcome State Fault Refusal) : Option α := (nextOf o).map f

/-- The event and `hdr_ok` of the step of a closing delimiter. -/
def verdict (c : Config) (cand : List Byte) : Option (Event × Bool) :=
  after (fun t => (t.out.event, t.out.hdrOk)) (step (closing c cand))

/-- The diagnostic registers after the step of a closing delimiter. -/
def diagOf (c : Config) (cand : List Byte) : Option (Nat × Nat × DiagKind × Nat) :=
  after (fun t => (t.diagExp.toNat, t.diagAct.toNat, t.diagKind, t.diagIdx.toNat)) (step (closing c cand))

/-- An idle state whose evaluation has decoded `d`. -/
def decoded (d : List Byte) : State := { State.reset with work := { d := d } }

/-- An operation that completes has a next state. -/
theorem completes {o : Host.Outcome State Fault Refusal} (h : (nextOf o).isSome = true) : ∃ t, o = .next t := by
  cases o with
  | next t => exact ⟨t, rfl⟩
  | fault r => cases h
  | refused r => cases h

/-- The same, with what holds beside it. -/
theorem completes_and {o : Host.Outcome State Fault Refusal} {p : Prop} (h : (nextOf o).isSome = true) (hp : p) :
    ∃ t, o = .next t ∧ p := (completes h).imp fun _ e => ⟨e, hp⟩

/-- A table without an active field. -/
theorem all_inactive {ft : List DescWord} (h : (ft.all fun w => !descValid w) = true) : ∀ w ∈ ft, descValid w = false := by
  intro w hw
  have hf := List.all_eq_true.mp h w hw
  simpa using hf

/-- Every active field of a table ends within `n` bytes. -/
theorem all_fit {ft : List DescWord} {n : Nat}
    (h : (ft.all fun w => !descValid w || decide ((descOffset w).toNat + (descLength w).toNat ≤ n)) = true) :
    ∀ w ∈ ft, descValid w = true → (descOffset w).toNat + (descLength w).toNat ≤ n := by
  intro w hw hv
  have hf := List.all_eq_true.mp h w hw
  simpa [hv] using hf

/-- A collected candidate stands at its closing delimiter. -/
theorem closing_at {c : Config} {cand : List Byte} (hc : configWf {} c = true) (h5 : 5 ≤ cand.length)
    (hm : cand.length ≤ 1539) : AtClosing (closing c cand) ⟨cand.length, cand⟩ where
  config := hc
  collecting := rfl
  long := h5
  bound := by
    show cand.length ≤ 1539 + 1
    omega
  candidate := by
    have hv : (closing c cand).validLen = cand.length := by
      show min cand.length 1539 = cand.length
      omega
    have hr : (closing c cand).rbRange 0 (closing c cand).validLen = some cand := by
      rw [State.rbRange, if_pos (by omega), hv]
      exact readRange_cellsFrom cand
    unfold State.candidate
    rw [hr]
    rfl

def t1 : Config := table [fld true 0 2 1 10]

/-- The record of S6, spec/95_test_vectors.md section 1. -/
def s6 : List Byte := bs [0x00, 0x00, 0x34, 0x12, 0x10, 0x00, 0x01, 0x01, 0x27, 0x64, 0x00, 0x00, 0x00, 0x00, 0x1B]

/-- The header of S6. -/
def h6 : Header := ⟨0x0000#16, 0x1234#16, 0x10#8, 0x0100#16, 0x01#8, 0x27#8⟩

/-- The wire frame of S6. -/
def w6 : Frame := ⟨0x64#7, 0#7, 0#7, 0#7, 0#3, 0#4, 0x1B#7⟩

/-- Two frames, spec/95_test_vectors.md section 2.5. -/
def rec2 : List Byte :=
  bs [0x00, 0x00, 0x34, 0x12, 0x10, 0x00, 0x01, 0x02, 0x26, 0x00, 0x7F, 0x7F, 0x7F, 0x07, 0x7B, 0x00, 0x00, 0x00, 0x00, 0x08, 0x77]

/-- A field with everything legal. -/
def f1 : Field := ⟨0#10, 2#3, 1#16, 10#16⟩

def p0 : Params := {}
def c0 : Config := Config.default {}

/-! ### Well-formedness: each check refuses -/

theorem smoke_high_delimiter : Instr.wf p0 c0 (.high 0x2A#7) = false := by decide
theorem smoke_high_neighbour : Instr.wf p0 c0 (.high 0x2B#7) = true := by decide
theorem smoke_head_dst_low : Instr.wf p0 c0 (.hv1 ⟨0x00AA#16, 0#16, 0#8, []⟩) = false := by decide
theorem smoke_head_dst_high : Instr.wf p0 c0 (.hv1 ⟨0xAA00#16, 0#16, 0#8, []⟩) = false := by decide
theorem smoke_head_src : Instr.wf p0 c0 (.hv2 ⟨0#16, 0x12AA#16, 0#8, []⟩) = false := by decide
theorem smoke_head_ver : Instr.wf p0 c0 (.hv2 ⟨0#16, 0#16, 0xAA#8, []⟩) = false := by decide
theorem smoke_head_tail : Instr.wf p0 c0 (.hv2 ⟨0#16, 0#16, 0#8, [0xAA#8]⟩) = false := by decide
theorem smoke_head_tail_long : Instr.wf p0 c0 (.hv1 ⟨0#16, 0#16, 0#8, bs [0, 0, 0, 0, 0]⟩) = false := by decide
theorem smoke_header_dst : Instr.wf p0 c0 (.hv3 { h6 with dst := 0xAA00#16 }) = false := by decide
theorem smoke_header_src : Instr.wf p0 c0 (.hv3 { h6 with src := 0x00AA#16 }) = false := by decide
theorem smoke_header_ver : Instr.wf p0 c0 (.hv4 { h6 with ver := 0xAA#8 }) = false := by decide
theorem smoke_header_cmd : Instr.wf p0 c0 (.hv4 { h6 with cmd := 0x01AA#16 }) = false := by decide
theorem smoke_header_n : Instr.wf p0 c0 (.hv5 { h6 with n := 0xAA#8 }) = false := by decide
theorem smoke_header_hck : Instr.wf p0 c0 (.hv5 { h6 with hck := 0xAA#8 }) = false := by decide
theorem smoke_push_ver : Instr.wf p0 c0 (.push { h6 with ver := 0x11#8 }) = false := by decide
theorem smoke_push_cmd : Instr.wf p0 c0 (.push { h6 with cmd := 0x0200#16 }) = false := by decide
theorem smoke_othercmd_is_push : Instr.wf p0 c0 (.othercmd h6) = false := by decide
theorem smoke_othercmd_ver : Instr.wf p0 c0 (.othercmd { h6 with ver := 0x11#8, cmd := 0#16 }) = false := by decide
theorem smoke_otherver_is_ver : Instr.wf p0 c0 (.otherver ⟨0#16, 0#16, 0x10#8, []⟩) = false := by decide
theorem smoke_payload_partial : Instr.wf p0 c0 (.highscan (bs [1, 2, 3, 4, 5])) = false := by decide
theorem smoke_payload_delimiter : Instr.wf p0 c0 (.highscan (bs [1, 2, 0xAA, 4, 5, 6])) = false := by decide
theorem smoke_payload_long : payloadWf (List.replicate 1536 0#8) = false := by decide +kernel
theorem smoke_field_length_zero : Instr.wf p0 c0 (.fieldU { f1 with length := 0#3 }) = false := by decide
theorem smoke_field_length_over : Instr.wf p0 c0 (.fieldS { f1 with length := 5#3 }) = false := by decide
theorem smoke_field_fden_zero : Instr.wf p0 c0 (.fieldU { f1 with fden := 0#16 }) = false := by decide
theorem smoke_config_slots : configWf p0 { ft := [] } = false := by decide
theorem smoke_config_reserved : configWf p0 (table [fld false 0 1 1 1 ||| 0x4000#64]) = false := by decide
theorem smoke_config_reserved_high : configWf p0 (table [fld false 0 1 1 1 ||| 0x0001000000000000#64]) = false := by decide
theorem smoke_config_inactive : configWf p0 (table [0xFFFFFFFFFFFF7FFF#64]) = true := by decide

/-! ### Decoding: words written out from the format tables of spec/30_encoding.md -/

theorem decode_sync : decode p0 c0 .stream [0b10101010#8] = .ok .sync := by decide
theorem decode_septet : decode p0 c0 .stream [0b01111111#8] = .ok (.septet 0b1111111#7) := by decide
theorem decode_high : decode p0 c0 .stream [0b10000001#8] = .ok (.high 0b0000001#7) := by decide
theorem decode_cksum : decode p0 c0 .checksum [0b10000000#8, 0b01111111#8] = .ok (.cksum [0x80#8, 0x7F#8]) := by decide
theorem decode_hv1 : decode p0 c0 .hv1 [0x01#8, 0x02#8, 0x03#8, 0x04#8, 0x11#8] =
    .ok (.hv1 ⟨0x0201#16, 0x0403#16, 0x11#8, []⟩) := by decide
theorem decode_hv2 : decode p0 c0 .hv2 [0x01#8, 0x02#8, 0x03#8, 0x04#8, 0x10#8, 0x00#8, 0x01#8] =
    .ok (.hv2 ⟨0x0201#16, 0x0403#16, 0x10#8, [0x00#8, 0x01#8]⟩) := by decide
theorem decode_hv3 : decode p0 c0 .hv3 (bs [1, 2, 3, 4, 5, 6, 7, 8, 9]) =
    .ok (.hv3 ⟨0x0201#16, 0x0403#16, 0x05#8, 0x0706#16, 0x08#8, 0x09#8⟩) := by decide
theorem decode_hv4 : decode p0 c0 .hv4 (bs [1, 2, 3, 4, 5, 6, 7, 8, 9]) =
    .ok (.hv4 ⟨0x0201#16, 0x0403#16, 0x05#8, 0x0706#16, 0x08#8, 0x09#8⟩) := by decide
theorem decode_hv5 : decode p0 c0 .hv5 (bs [1, 2, 3, 4, 5, 6, 7, 8, 9]) =
    .ok (.hv5 ⟨0x0201#16, 0x0403#16, 0x05#8, 0x0706#16, 0x08#8, 0x09#8⟩) := by decide
theorem decode_push : decode p0 c0 .record [0x00#8, 0x00#8, 0x34#8, 0x12#8, 0b00010000#8, 0b00000000#8, 0b00000001#8, 0x01#8, 0x27#8] =
    .ok (.push h6) := by decide
theorem decode_othercmd : decode p0 c0 .record [0x00#8, 0x00#8, 0x34#8, 0x12#8, 0b00010000#8, 0b00000000#8, 0b00000010#8, 0x01#8, 0x26#8] =
    .ok (.othercmd ⟨0x0000#16, 0x1234#16, 0x10#8, 0x0200#16, 0x01#8, 0x26#8⟩) := by decide
theorem decode_otherver : decode p0 c0 .record [0x00#8, 0x00#8, 0x34#8, 0x12#8, 0b00100000#8, 0x00#8, 0x01#8] =
    .ok (.otherver ⟨0x0000#16, 0x1234#16, 0x20#8, [0x00#8, 0x01#8]⟩) := by decide
theorem decode_highscan : decode p0 c0 .payload [0x7F#8, 0x80#8, 0x00#8, 0x01#8, 0x02#8, 0x03#8] =
    .ok (.highscan [0x7F#8, 0x80#8, 0x00#8, 0x01#8, 0x02#8, 0x03#8]) := by decide
theorem decode_frameck : decode p0 c0 .frameCheck [0b01100100#8, 0b00000001#8, 0b00000010#8, 0b00000011#8, 0b01110001#8, 0b00101010#8] =
    .ok (.frameck ⟨0x64#7, 1#7, 2#7, 3#7, 0b111#3, 0b0001#4, 0x2A#7⟩) := by decide
theorem decode_unpack : decode p0 c0 .frameUnpack [0x7F#8, 0x00#8, 0x12#8, 0x7F#8, 0b00001001#8, 0x66#8] =
    .ok (.unpack ⟨0x7F#7, 0#7, 0x12#7, 0x7F#7, 0#3, 0b1001#4, 0x66#7⟩) := by decide
theorem decode_fieldU : decode p0 c0 .descriptor [0b11111111#8, 0b10010011#8, 0x02#8, 0x01#8, 0x04#8, 0x03#8, 0x00#8, 0x00#8] =
    .ok (.fieldU ⟨0x3FF#10, 4#3, 0x0102#16, 0x0304#16⟩) := by decide
theorem decode_fieldS : decode p0 c0 .descriptor [0b00000000#8, 0b10101000#8, 0x01#8, 0x00#8, 0x0A#8, 0x00#8, 0x00#8, 0x00#8] =
    .ok (.fieldS ⟨0#10, 2#3, 1#16, 10#16⟩) := by decide

theorem decode_rejects_by_name :
    decode p0 c0 .stream [] = .error .truncated ∧
    decode p0 c0 .stream (bs [1, 2]) = .error .tooLong ∧
    decode p0 c0 .record (bs [0, 0, 0x34, 0x12]) = .error .truncated ∧
    decode p0 c0 .record (bs [0, 0, 0x34, 0x12, 0x10]) = .error .truncated ∧
    decode p0 c0 .hv1 (bs [0, 0, 0, 0, 0, 0, 0, 0, 0, 0]) = .error .tooLong ∧
    decode p0 c0 .hv3 (bs [0xAA, 0, 0, 0, 0, 0, 0, 0, 0]) = .error .delimiterInCandidate ∧
    decode p0 c0 .payload (bs [1, 2, 3]) = .error .notWholeFrames ∧
    decode p0 c0 .frameCheck (bs [1, 2, 3, 4, 0x80, 5]) = .error .highBit ∧
    decode p0 c0 .descriptor (bs [0, 0x00, 0, 0, 1, 0, 0, 0]) = .error .inactiveSlot ∧
    decode p0 c0 .descriptor (bs [0, 0xC4, 0, 0, 1, 0, 0, 0]) = .error .reservedBits ∧
    decode p0 c0 .descriptor (bs [0, 0x80, 0, 0, 1, 0, 0, 0]) = .error .badLength ∧
    decode p0 c0 .descriptor (bs [0, 0x84, 0, 0, 0, 0, 0, 0]) = .error .zeroDenominator := by decide

/-- The host's numbering: the first byte of a word is bits 7..0. -/
theorem table_words :
    decodeTableWord 8 0xAA = some .sync ∧ decodeTableWord 8 0x55 = some (.septet 0x55#7) ∧
    decodeTableWord 72 0x270101001012340000 = some (.push h6) ∧
    decodeTableWord 48 0x1B0000000064 = some (.frameck w6) ∧
    decodeTableWord 64 0x0000000A0001A800 = some (.fieldS f1) ∧
    decodeTableWord 16 0 = none := by decide

theorem fetch_word_runs_byte :
    nextOf (step (State.reset.withFetchWord 8 0xAA)) = nextOf (exec .sync (State.reset.withFetchWord 8 0xAA)) := by decide +kernel

theorem fetch_word_runs_record :
    nextOf (step (State.reset.withFetchWord 72 0x270101001012340000)) =
      nextOf (exec (.push h6) (State.reset.withFetchWord 72 0x270101001012340000)) := by decide +kernel

/-! ### The operations, on the vectors of spec/95_test_vectors.md -/

/-- P1's end. -/
theorem sync_accepts_s6 : after (fun t => (t.resSrc.toNat, t.resDb, t.status.toNat)) (step (closing t1 s6)) =
    some (0x1234, [(0, 0x64#8), (1, 0x00#8), (2, 0x00#8), (3, 0x00#8)], 0x70) := by decide +kernel

/-- Section 2.2, the longest noise, and the first delimiter. -/
theorem sync_drops_noise : after (fun t => (t.out.event, t.len, t.syncState)) (step (closing c0 (bs [0, 0, 0x34, 0x12]))) =
    some (.none, 0, .collect) := by decide +kernel

theorem septet_is_appended : after (fun t => (t.rb, t.len)) (exec (.septet 0x10#7) (closing c0 (bs [5]))) =
    some ([(0, 5#8), (1, 0x10#8)], 2) := by decide +kernel

/-- S8: bytes before the first delimiter are discarded. -/
theorem high_is_discarded_in_hunt : after (fun t => (t.syncState, t.len, t.rb)) (exec (.high 0x29#7) State.reset) =
    some (.hunt, 0, []) := by decide +kernel

theorem high_is_appended_with_bit7 : after (fun t => t.rb) (exec (.high 0x64#7) (closing c0 [])) =
    some [(0, 0xE4#8)] := by decide +kernel

/-- Section 2.1. -/
theorem cksum_vectors : [[], [0x00], [0x7F], [0x80], [0xFF], [0x7F, 0x01], [0x64, 0, 0, 0, 0], [1, 2, 3, 4, 0],
    [0x7F, 0x7F, 0x2C, 1, 3], [0, 0, 0x34, 0x12, 0x10, 0, 1, 1], [0x10, 0, 0x11, 0x7E, 0x10, 0, 1, 2],
    [0xFF, 0xFF, 0xFF, 0xFF, 0xFF, 0xFF, 0xFF, 0xFF]].map (fun l => (cksum (bs l)).toNat) =
    [0x7F, 0x7F, 0x00, 0x7F, 0x00, 0x7F, 0x1B, 0x75, 0x51, 0x27, 0x4D, 0x07] := by decide

theorem cksum_result : after (fun t => t.work.ck) (exec (.cksum (bs [0x64, 0, 0, 0, 0])) State.reset) = some 0x1B#7 := by decide

/-- Section 2.3, one row for each code 1 to 5: header checks in order. -/
theorem hv1_short_foreign : verdict c0 (bs [0, 0, 0x34, 0x12, 0x11, 0, 1]) = some (.reject .badVersion, false) := by decide +kernel
theorem hv2_short : verdict c0 (bs [0, 0, 0x34, 0x12, 0x10, 0, 1]) = some (.reject .incomplete, false) := by decide +kernel
theorem hv3_little_endian : verdict c0 (bs [0, 0, 0x34, 0x12, 0x10, 1, 0, 0, 0x28]) = some (.reject .badCommand, false) := by
  decide +kernel
theorem hv4_bit7 : diagOf c0 (bs [0, 0, 0x34, 0x12, 0x10, 0, 1, 0, 0xA8]) = some (0x28, 0xA8, .header, 0) := by decide +kernel
theorem hv4_rejects : verdict c0 (bs [0, 0, 0x34, 0x12, 0x10, 0, 1, 0, 0]) = some (.reject .hdrChecksum, false) := by decide +kernel
theorem hv5_too_long : verdict c0 (s6 ++ [0#8]) = some (.reject .length, false) := by decide +kernel
theorem hv5_too_short : verdict c0 (bs [0, 0, 0x34, 0x12, 0x10, 0, 1, 2, 0x26, 0x64, 0, 0, 0, 0, 0x1B]) =
    some (.reject .length, false) := by decide +kernel

/-- A header address may have bit 7 set. -/
theorem push_high_address : after (fun t => (t.out.event, t.resDst.toNat))
    (step (closing c0 (bs [0x00, 0x80, 0x34, 0x12, 0x10, 0, 1, 0, 0x28]))) = some (.accept, 0x8000) := by decide +kernel

theorem othercmd_rejected : verdict c0 (bs [0x10, 0, 0x11, 0x7E, 0x10, 0, 2, 0, 0x4E]) = some (.reject .badCommand, false) := by
  decide +kernel
theorem otherver_rejected : verdict c0 (bs [0, 0, 0x34, 0x12, 0x20, 0, 1, 1, 0x17]) = some (.reject .badVersion, false) := by
  decide +kernel

/-- Section 2.4: a high bit in the frame-checksum byte is code 6; so it is before a bad checksum in an earlier frame. -/
theorem highscan_checksum_byte : verdict t1 (s6.take 14 ++ [0x9B#8]) = some (.reject .highBit, true) := by decide +kernel
theorem highscan_wins : verdict t1 (bs [0, 0, 0x34, 0x12, 0x10, 0, 1, 2, 0x26, 1, 2, 3, 4, 0, 0x74, 0x85, 6, 7, 8, 0, 0x65]) =
    some (.reject .highBit, true) := by decide +kernel
theorem frameck_second_frame : diagOf t1 (bs [0, 0, 0x34, 0x12, 0x10, 0, 1, 2, 0x26, 1, 2, 3, 4, 0, 0x75, 5, 6, 7, 8, 0, 0x64]) =
    some (0x65, 0x64, .frame, 1) := by decide +kernel
theorem frameck_lowest_index : diagOf t1 (bs [0, 0, 0x34, 0x12, 0x10, 0, 1, 2, 0x26, 1, 2, 3, 4, 0, 0x74, 5, 6, 7, 8, 0, 0x64]) =
    some (0x75, 0x74, .frame, 0) := by decide +kernel

/-- Section 2.4, three rows of the mask table, mask bits 4..6 set. -/
theorem unpack_masks : [0x1#4, 0x6#4, 0xB#4].map (fun m => after (fun t => t.work.d)
    (exec (.unpack ⟨0x12#7, 0x34#7, 0x56#7, 0x78#7, 7#3, m, 0#7⟩) State.reset)) =
    [some (bs [0x92, 0x34, 0x56, 0x78]), some (bs [0x12, 0xB4, 0xD6, 0x78]), some (bs [0x92, 0xB4, 0x56, 0xF8])] := by decide
theorem enc4_vector : enc4 0xFF#8 0x00#8 0x12#8 0xFF#8 = bs [0x7F, 0x00, 0x12, 0x7F, 0x09, 0x66] := by decide

/-- Section 2.5: the twelve fields. -/
theorem field_vectors : after (fun t => (t.fv.take 12).map (·.raw)) (step (closing (table
    [fld true 0 1 1 1, fld false 0 1 1 1, fld true 1 2 1 10, fld false 1 2 1 10, fld true 2 2 1 1, fld true 0 4 1 1,
     fld false 0 4 1 1, fld true 4 4 1 1, fld false 4 4 1 1, fld true 3 1 1 1, fld true 7 1 1 2, fld true 6 2 1 1]) rec2)) =
    some [-128, 128, -1, 65535, 32767, 2147483520, 2147483520, -2147483648, 2147483648, 127, -128, -32768] := by decide +kernel

/-- S4's final values, and -64 = -128/2. -/
theorem final_values : scaledValue (-1) (fld true 0 2 1 10) = -1 / 10 ∧ scaledValue 1 (fld true 0 2 1 10) = 1 / 10 ∧
    scaledValue (-128) (fld true 7 1 1 2) = -64 := by
  refine ⟨?_, ?_, ?_⟩ <;> rw [scaledValue, Rat.mkRat_eq_div] <;> decide +kernel

/-- Section 2.5, the range check: `3 + 2 = 5 > 4`, and `2 + 2 = 4` exactly in range. -/
theorem range_rejects : verdict (table [fld true 3 2 1 1]) s6 = some (.reject .fieldRange, true) := by decide +kernel
theorem range_accepts : verdict (table [fld true 2 2 1 1]) s6 = some (.accept, true) := by decide +kernel

/-! ### Witnesses: a state and operands that meet each statement's hypotheses, each clause at its boundary -/

/-- A block with the smallest buffer, `RB_CAP = 9`, collecting a segment of `n` bytes. -/
def smallCollect (n : Nat) : State :=
  { State.resetWith { maxN := 0 } c0 [Sample.byte 0x01#8] with
    syncState := .collect, len := n, rb := cellsFrom 0 (List.replicate (min n 9) 7#8) }

/-- The reset sample wins over a byte that comes with it. -/
def resetSample : Sample := { rst := true, inValid := true, inByte := 0xAA#8 }

theorem witness_ResetStepPutsEveryRegisterToItsResetValue :
    let s : State := { smallCollect 3 with input := [resetSample] }
    let s' : State := { smallCollect 4 with input := [resetSample], resValid := true }
    s.presented.rst = true ∧ s'.presented.rst = true ∧ s.params = s'.params ∧
      s.presented.config s.cfg = s'.presented.config s'.cfg ∧ s.input.tail = s'.input.tail ∧ s ≠ s' := by decide

theorem witness_NoByteMeansNoChange :
    State.reset.presented.rst = false ∧ State.reset.presented.config State.reset.cfg = State.reset.cfg ∧
      configWf State.reset.params State.reset.cfg = true ∧ State.reset.presented.inValid = false := by decide

theorem witness_StepRunsTheDecodedByte : ∀ b ∈ [0xAA#8, 0x00#8, 0x7F#8, 0x80#8, 0xFF#8],
    let s := State.reset.presentByte b
    s.presented.rst = false ∧ s.presented.config s.cfg = s.cfg ∧ configWf s.params s.cfg = true ∧
      s.presented.inValid = true ∧ s.presented.inByte = b := by decide

theorem witness_UnlawfulConfigurationIsRefused :
    let s : State := { State.reset with input := [{ cfg := some t1 }] }
    let s' : State := { State.reset with cfg := { ft := [] } }
    (s.presented.rst = false ∧ s.presented.config s.cfg ≠ s.cfg) ∧
      (s'.presented.rst = false ∧ s'.presented.config s'.cfg = s'.cfg ∧ configWf s'.params s'.cfg = false) := by decide

theorem witness_DataByteInHuntIsDiscarded : State.reset.syncState = .hunt := rfl

theorem witness_DataByteInCollectIsAppended : ∀ n ∈ [0, 8, 9, 10],
    (smallCollect n).syncState = .collect ∧ (smallCollect n).params.rbCap = 9 ∧ (smallCollect n).len = n := by decide

theorem witness_FirstDelimiterOpensASegment : State.reset.syncState = .hunt := rfl

theorem witness_ShortSegmentIsDroppedSilently : ∀ n ∈ [0, 4],
    (smallCollect n).syncState = .collect ∧ (smallCollect n).len = n ∧ n < 5 := by decide

/-- The shortest candidate of the accepted version. -/
def short5 : List Byte := bs [0, 0, 0x34, 0x12, 0x10]

theorem short5_at : AtClosing (closing c0 short5) ⟨5, short5⟩ := closing_at (by decide) (by decide) (by decide)

theorem s6_at : AtClosing (closing t1 s6) ⟨15, s6⟩ := closing_at (by decide) (by decide) (by decide)

/-- The bytes of the longest segment that is kept whole. -/
def wide : List Byte := List.replicate 1539 0x10#8

theorem wide_length : wide.length = 1539 := List.length_replicate

theorem full_at : AtClosing (closing c0 wide) ⟨1539, wide⟩ := by
  have h := closing_at (c := c0) (cand := wide) (by decide) (by rw [wide_length]; omega) (by rw [wide_length])
  rwa [wide_length] at h

/-- A segment that has overflowed the buffer. -/
def overlong : State :=
  { State.resetWith {} c0 [Sample.byte delim] with syncState := .collect, len := 1540, rb := cellsFrom 0 wide }

/-- Whatever 1539 bytes were kept. -/
theorem overflow_at {kept : List Byte} {s : State} (hs : s.rb = cellsFrom 0 kept) (hk : kept.length = 1539)
    (hl : s.len = 1540) (hp : s.params.rbCap = 1539) (hc : configWf s.params s.cfg = true) (hy : s.syncState = .collect) :
    AtClosing s ⟨1540, kept⟩ where
  config := hc
  collecting := hy
  long := by omega
  bound := by omega
  candidate := by
    have hv : s.validLen = 1539 := by
      rw [State.validLen, hl, hp]
      rfl
    have hr : s.rbRange 0 s.validLen = some kept := by
      have h := readRange_cellsFrom kept
      rw [hk, ← hs] at h
      rw [State.rbRange, if_pos (by omega), hv]
      exact h
    unfold State.candidate
    rw [hr, hl]

theorem overlong_at : AtClosing overlong ⟨1540, wide⟩ := overflow_at rfl wide_length rfl rfl rfl rfl

theorem witness_ClosingDelimiterRefinesDecodeCandidate :
    AtClosing (closing c0 short5) ⟨5, short5⟩ ∧ AtClosing (closing t1 s6) ⟨15, s6⟩ ∧
      AtClosing (closing c0 wide) ⟨1539, wide⟩ ∧
      AtClosing overlong ⟨1540, wide⟩ ∧
      (decodeCandidate c0 ⟨5, short5⟩).isOk = false ∧ (decodeCandidate t1 ⟨15, s6⟩).isOk = true :=
  ⟨short5_at, s6_at, full_at, overlong_at, by decide, by decide +kernel⟩

theorem witness_OnlyADelimiterLeavesHunt :
    (∃ t, step (State.reset.presentByte 0xAA#8) = .next t ∧ (State.reset.presentByte 0xAA#8).presented.rst = false ∧
      (State.reset.presentByte 0xAA#8).syncState = .hunt) ∧
    ∃ t, step (smallCollect 2) = .next t ∧ (smallCollect 2).presented.rst = false ∧ (smallCollect 2).syncState = .collect :=
  ⟨completes_and (by decide +kernel) (by decide), completes_and (by decide +kernel) (by decide)⟩

/-- The same state with another byte at the port. -/
def withByte (b : Byte) (s : State) : State := { s with input := [Sample.byte b] }

theorem witness_LenCountsTheSegment :
    (∃ t, step (withByte 0xAA#8 (smallCollect 4)) = .next t ∧ (withByte 0xAA#8 (smallCollect 4)).presented.inByte = 0xAA#8) ∧
    (∃ t, step (smallCollect 9) = .next t ∧ (smallCollect 9).presented.inByte ≠ 0xAA#8 ∧ (smallCollect 9).syncState = .collect ∧
      (smallCollect 9).len ≤ (smallCollect 9).params.rbCap + 1) ∧
    (∃ t, step (smallCollect 10) = .next t ∧ (smallCollect 10).presented.inByte ≠ 0xAA#8 ∧
      (smallCollect 10).syncState = .collect ∧ (smallCollect 10).len = (smallCollect 10).params.rbCap + 1) ∧
    ∃ t, step (withByte 0xAB#8 State.reset) = .next t ∧ (withByte 0xAB#8 State.reset).presented.inByte ≠ 0xAA#8 ∧
      (withByte 0xAB#8 State.reset).syncState = .hunt ∧ (withByte 0xAB#8 State.reset).presented.rst = false ∧
      (withByte 0xAB#8 State.reset).presented.inValid = true :=
  ⟨completes_and (by decide +kernel) (by decide), completes_and (by decide +kernel) (by decide),
    completes_and (by decide +kernel) (by decide), completes_and (by decide +kernel) (by decide)⟩

theorem witness_OverlongSegmentGetsTheUnboundedResult :
    overlong.params.maxN = 255 ∧ AtClosing overlong ⟨1540, wide⟩ ∧
      1539 < (wide ++ [0x10#8]).length ∧ (wide ++ [0x10#8]).take 1539 = wide :=
  ⟨rfl, overlong_at, by rw [List.length_append, wide_length, List.length_singleton]; omega,
    by rw [List.take_append_of_le_length (by rw [wide_length]), List.take_of_length_le (by rw [wide_length])]⟩

theorem witness_EventsAreThoseOfSplittingTheStream :
    (p0.wf ∧ configWf p0 c0 = true ∧ p0.maxN = 255 ∧ 5 ≤ short5.length) ∧
      (({ maxN := 0 } : Params).wf ∧ configWf { maxN := 0 } c0 = true) ∧
      0xAA#8 ∉ bs [0x01, 0x02] ∧ 0xAA#8 ∈ bs [0x01, 0xAA, 0x02] ∧
      ((bs [0x01, 0xAA, 0x02]).splitOn 0xAA#8).getLast? = some (bs [0x02]) := by decide

theorem witness_ChecksumClosedFormAndConsequences :
    ((bs [0x40, 0x41]).map (·.toNat)).sum % 128 = ((bs [0x01]).map (·.toNat)).sum % 128 ∧
      (bs [2, 1]).Perm (bs [1, 2]) ∧ bs [1, 2, 3] = bs [1] ++ 2#8 :: bs [3] ∧ 7 ≤ 7 :=
  ⟨by decide, List.Perm.swap _ _ _, by decide, by decide⟩

theorem witness_Hv1ChecksTheVersion :
    h6.head.ver = State.reset.cfg.version ∧ ({ h6.head with ver := 0x11#8 } : HeaderHead).ver ≠ State.reset.cfg.version := by decide

theorem witness_Hv2ChecksTheMinimumLength : 9 ≤ (smallCollect 9).len ∧ (smallCollect 8).len < 9 := by decide

theorem witness_Hv3ChecksTheCommand :
    h6.cmd = State.reset.cfg.command ∧ ({ h6 with cmd := 0x0001#16 } : Header).cmd ≠ State.reset.cfg.command := by decide

theorem witness_Hv4ChecksTheHeaderChecksum :
    let covered := bs [0x00, 0x00, 0x34, 0x12, 0x10, 0x00, 0x01, 0x01]
    covered = [h6.dst.setWidth 8, (h6.dst >>> 8).setWidth 8, h6.src.setWidth 8, (h6.src >>> 8).setWidth 8, h6.ver,
      h6.cmd.setWidth 8, (h6.cmd >>> 8).setWidth 8, h6.n] ∧
    h6.hck.toNat = (cksum covered).toNat ∧ ({ h6 with hck := 0x28#8 } : Header).hck.toNat ≠ (cksum covered).toNat ∧
    0x80 ≤ ({ h6 with hck := 0xA7#8 } : Header).hck.toNat := by decide

theorem witness_Hv5ChecksTheFrameCount :
    (closing t1 s6).len = 9 + 6 * h6.n.toNat ∧ (closing t1 (s6 ++ [0#8])).len ≠ 9 + 6 * h6.n.toNat ∧
      (closing t1 (s6.take 14)).len ≠ 9 + 6 * h6.n.toNat := by decide

theorem witness_HdrOkIsHeaderOk :
    (AtClosing (closing c0 short5) ⟨5, short5⟩ ∧ AtClosing (closing t1 s6) ⟨15, s6⟩ ∧
      (⟨4, bs [0, 0, 0x34, 0x12]⟩ : Candidate).len < 5) ∧
    (∃ t, step (smallCollect 4) = .next t) ∧ after (fun t => t.out.event) (step (smallCollect 4)) = some .none :=
  ⟨⟨short5_at, s6_at, by decide⟩, completes (by decide +kernel), by decide +kernel⟩

theorem witness_HighscanRejectsAnyByteWithBit7 :
    (∀ b ∈ bs [0x00, 0x7F], b.toNat < 0x80) ∧ ∃ b ∈ bs [0x00, 0x80], 0x80 ≤ b.toNat := by decide

theorem witness_FrameckChecksTheFrameChecksum :
    let covered := bs [0x64, 0x00, 0x00, 0x00, 0x00]
    covered = [w6.d0.setWidth 8, w6.d1.setWidth 8, w6.d2.setWidth 8, w6.d3.setWidth 8,
      BitVec.ofNat 8 (w6.mask.toNat + 16 * w6.spare.toNat)] ∧
    (decoded []).work.d.length = 4 * 0 ∧ (decoded (bs [1, 2, 3, 4])).work.d.length = 4 * 1 ∧
    w6.fck = cksum covered ∧ ({ w6 with fck := 0x1C#7 } : Frame).fck ≠ cksum covered := by decide

theorem witness_SeptetRoundTrip :
    let w : Frame := ⟨0x12#7, 0x34#7, 0x56#7, 0x78#7, 5#3, 0x9#4, 0#7⟩
    ∃ t, exec (.unpack w) (decoded (bs [1, 2, 3, 4])) = .next t ∧
      t.work.d = (decoded (bs [1, 2, 3, 4])).work.d ++ [0x92#8, 0x34#8, 0x56#8, 0xF8#8] := ⟨_, rfl, by decide⟩

theorem witness_FieldUReadsAnUnsignedInteger :
    let s := decoded (bs [1, 2, 3, 4])
    (⟨2#10, 2#3, 1#16, 1#16⟩ : Field).offset.toNat + (⟨2#10, 2#3, 1#16, 1#16⟩ : Field).length.toNat ≤ s.work.d.length ∧
      s.work.d.length < (⟨3#10, 2#3, 1#16, 1#16⟩ : Field).offset.toNat + (⟨3#10, 2#3, 1#16, 1#16⟩ : Field).length.toNat := by
  decide

theorem witness_FieldSReadsATwosComplementInteger :
    let s := decoded (bs [1, 2, 3, 4])
    let f : Field := ⟨3#10, 1#3, 1#16, 1#16⟩
    let g : Field := ⟨4#10, 1#3, 1#16, 1#16⟩
    1 ≤ f.length.toNat ∧ f.offset.toNat + f.length.toNat ≤ s.work.d.length ∧
      1 ≤ g.length.toNat ∧ s.work.d.length < g.offset.toNat + g.length.toNat := by decide

/-- A field that ends exactly at the last of S6's four data bytes. -/
def inside : Config := table [fld true 2 2 1 1]

/-- A field that ends one byte further. -/
def outside : Config := table [fld true 3 2 1 1]

theorem inside_at : AtClosing (closing inside s6) ⟨15, s6⟩ := closing_at (by decide +kernel) (by decide) (by decide)

theorem outside_at : AtClosing (closing outside s6) ⟨15, s6⟩ := closing_at (by decide +kernel) (by decide) (by decide)

theorem witness_RangeCheckCoversEveryActiveField :
    (AtClosing (closing inside s6) ⟨15, s6⟩ ∧ AtClosing (closing outside s6) ⟨15, s6⟩) ∧
    (∀ c ∈ [inside, outside], headerValidate c ⟨15, s6⟩ = .ok (bs [0x64, 0, 0, 0, 0, 0x1B]) ∧
      payloadDecode ((⟨15, s6⟩ : Candidate).byte 7).toNat (bs [0x64, 0, 0, 0, 0, 0x1B]) = .ok (bs [0x64, 0, 0, 0])) ∧
    (∀ w ∈ inside.ft, descValid w = true →
      (descOffset w).toNat + (descLength w).toNat ≤ 4 * ((⟨15, s6⟩ : Candidate).byte 7).toNat) ∧
    ∃ w ∈ outside.ft, descValid w = true ∧
      4 * ((⟨15, s6⟩ : Candidate).byte 7).toNat < (descOffset w).toNat + (descLength w).toNat :=
  ⟨⟨inside_at, outside_at⟩, by decide +kernel, all_fit (by decide +kernel),
    ⟨fld true 3 2 1 1, List.mem_cons_self, by decide +kernel⟩⟩

theorem witness_FinalValueIsTheExactProduct :
    let s : State := { State.reset with cfg := t1, fv := ⟨true, -1⟩ :: State.reset.fv.tail }
    s.fv[0]? = some ⟨true, -1⟩ ∧ s.cfg.ft[0]? = some (fld true 0 2 1 10) ∧ (⟨true, -1⟩ : FieldVal).present = true := by decide +kernel

/-- A record with `N = 0`, spec/95_test_vectors.md section 2.2. -/
def empty9 : List Byte := bs [0x00, 0x00, 0x34, 0x12, 0x10, 0x00, 0x01, 0x00, 0x28]

theorem witness_EmptyRecordIsAcceptedUnlessAFieldIsActive :
    (AtClosing (closing c0 empty9) ⟨9, empty9⟩ ∧ headerOk c0 ⟨9, empty9⟩ = true ∧ ∀ w ∈ c0.ft, descValid w = false) ∧
    (AtClosing (closing t1 empty9) ⟨9, empty9⟩ ∧ headerOk t1 ⟨9, empty9⟩ = true ∧ ∃ w ∈ t1.ft, descValid w = true) ∧
    (⟨9, empty9⟩ : Candidate).byte 7 = 0#8 :=
  ⟨⟨closing_at (by decide +kernel) (by decide) (by decide), by decide +kernel, all_inactive (by decide +kernel)⟩,
    ⟨closing_at (by decide +kernel) (by decide) (by decide), by decide +kernel,
      ⟨fld true 0 2 1 10, List.mem_cons_self, by decide +kernel⟩⟩, by decide⟩

/-- One candidate for each reject code, and one that passes. -/
def nine : List (List Byte × Option RejectCode) :=
  [(bs [0, 0, 0x34, 0x12, 0x11], some .badVersion),
   (bs [0, 0, 0x34, 0x12, 0x10, 0, 1, 0], some .incomplete),
   (bs [0, 0, 0x34, 0x12, 0x10, 0, 2, 1, 0x26], some .badCommand),
   (bs [0, 0, 0x34, 0x12, 0x10, 0, 1, 0, 0], some .hdrChecksum),
   (s6 ++ [0#8], some .length),
   (bs [0, 0, 0x34, 0x12, 0x10, 0, 1, 1, 0x27, 0xE4, 0, 0, 0, 0, 0x1B], some .highBit),
   (bs [0, 0, 0x34, 0x12, 0x10, 0, 1, 1, 0x27, 0x64, 0, 0, 0, 0, 0x1C], some .frameChecksum),
   (empty9, some .fieldRange),
   (s6, none)]

theorem witness_FirstFailingCheckDecides : ∀ x ∈ nine,
    AtClosing (closing t1 x.1) ⟨x.1.length, x.1⟩ ∧ firstFailure t1 ⟨x.1.length, x.1⟩ = x.2 := by
  have h : ∀ x ∈ nine, 5 ≤ x.1.length ∧ x.1.length ≤ 1539 ∧ firstFailure t1 ⟨x.1.length, x.1⟩ = x.2 := by decide +kernel
  exact fun x hx => ⟨closing_at (by decide +kernel) (h x hx).1 (h x hx).2.1, (h x hx).2.2⟩

theorem witness_ClosingDelimiterRunsTheSelectedRecord :
    let push := closing t1 s6
    let other := closing c0 (bs [0, 0, 0x34, 0x12, 0x10, 0, 2, 1, 0x26])
    let ver := closing c0 (bs [0, 0, 0x34, 0x12, 0x11])
    (push.rbRange 0 (min 9 push.validLen) = some (s6.take 9) ∧ decode push.params push.cfg .record (s6.take 9) = .ok (.push h6)) ∧
    (other.rbRange 0 (min 9 other.validLen) = some (bs [0, 0, 0x34, 0x12, 0x10, 0, 2, 1, 0x26]) ∧
      (decode other.params other.cfg .record (bs [0, 0, 0x34, 0x12, 0x10, 0, 2, 1, 0x26])) =
        .ok (.othercmd ⟨0#16, 0x1234#16, 0x10#8, 0x0200#16, 1#8, 0x26#8⟩)) ∧
    (ver.rbRange 0 (min 9 ver.validLen) = some (bs [0, 0, 0x34, 0x12, 0x11]) ∧
      decode ver.params ver.cfg .record (bs [0, 0, 0x34, 0x12, 0x11]) = .ok (.otherver ⟨0#16, 0x1234#16, 0x11#8, []⟩)) ∧
    AtClosing push ⟨15, s6⟩ :=
  ⟨by decide +kernel, by decide +kernel, by decide +kernel, s6_at⟩

theorem witness_PushLatchesAnAcceptedRecord :
    let s := closing inside s6
    let payload := bs [0x64, 0, 0, 0, 0, 0x1B]
    (configWf s.params s.cfg = true ∧ h6.ver = s.cfg.version ∧ h6.cmd = s.cfg.command ∧
      h6.hck = (cksum h6.covered).setWidth 8 ∧ s.len = 9 + 6 * h6.n.toNat ∧ h6.n.toNat ≤ s.params.maxN ∧
      payload.length = 6 * h6.n.toNat) ∧
    (∀ k, k < 6 * h6.n.toNat → Memory.read s.rb (9 + k) = payload[k]?) ∧
    (∀ b ∈ payload, b.toNat < 0x80) ∧
    (∀ i, i < h6.n.toNat → (payload.getD (6 * i + 5) 0#8).toNat = (cksum ((payload.drop (6 * i)).take 5)).toNat) ∧
    (∀ w ∈ s.cfg.ft, descValid w = true → (descOffset w).toNat + (descLength w).toNat ≤ 4 * h6.n.toNat) :=
  ⟨by decide +kernel, by decide +kernel, by decide +kernel, by decide +kernel, all_fit (by decide +kernel)⟩

/-- The hypotheses of each clause, on the candidates of `nine`. -/
theorem witness_RejectingCheckIsTheOperationsOwn :
    let c7 := bs [0, 0, 0x34, 0x12, 0x10, 0, 1, 1, 0x27, 0x64, 0, 0, 0, 0, 0x1C]
    let c6 := bs [0, 0, 0x34, 0x12, 0x10, 0, 1, 1, 0x27, 0xE4, 0, 0, 0, 0, 0x1B]
    (AtClosing (closing t1 c7) ⟨15, c7⟩ ∧ (closing t1 c7).fetchHead = some h6.head ∧
      (closing t1 c7).fetchHeader = some h6 ∧ h6.head.ver = t1.version ∧ h6.cmd = t1.command ∧
      h6.hck = (cksum h6.covered).setWidth 8 ∧ (closing t1 c7).len = 9 + 6 * h6.n.toNat ∧
      (closing t1 c7).fetchPayload h6.n = some (c7.drop 9) ∧ (∀ b ∈ c7.drop 9, b.toNat < 0x80) ∧
      parseFrame (wireFrame (c7.drop 9) 0) = .ok { w6 with fck := 0x1C#7 } ∧
      frameOk (wireFrame (c7.drop 9) 0) = false) ∧
    ((closing t1 c6).fetchPayload h6.n = some (c6.drop 9) ∧ ∃ b ∈ c6.drop 9, 0x80 ≤ b.toNat) ∧
    ((closing c0 (bs [0, 0, 0x34, 0x12, 0x11])).fetchHead = some ⟨0#16, 0x1234#16, 0x11#8, []⟩ ∧ (0x11#8 : Byte) ≠ c0.version) ∧
    ((closing c0 short5).fetchHead = some ⟨0#16, 0x1234#16, 0x10#8, []⟩ ∧ (closing c0 short5).len < 9) ∧
    ((closing c0 (bs [0, 0, 0x34, 0x12, 0x10, 0, 2, 1, 0x26])).fetchHeader =
        some ⟨0#16, 0x1234#16, 0x10#8, 0x0200#16, 1#8, 0x26#8⟩ ∧ (0x0200#16 : Half) ≠ c0.command) ∧
    ((closing c0 (bs [0, 0, 0x34, 0x12, 0x10, 0, 1, 0, 0])).fetchHeader =
        some ⟨0#16, 0x1234#16, 0x10#8, 0x0100#16, 0#8, 0#8⟩ ∧
      (0#8 : Byte) ≠ (cksum (Header.covered ⟨0#16, 0x1234#16, 0x10#8, 0x0100#16, 0#8, 0#8⟩)).setWidth 8) ∧
    ((closing t1 (s6 ++ [0#8])).fetchHeader = some h6 ∧ (closing t1 (s6 ++ [0#8])).len ≠ 9 + 6 * h6.n.toNat) :=
  ⟨⟨closing_at (by decide +kernel) (by decide +kernel) (by decide +kernel), by decide +kernel⟩, by decide +kernel, by decide +kernel,
    by decide +kernel, by decide +kernel, by decide +kernel, by decide +kernel⟩

theorem witness_AcceptedRecordIsTheRunOfItsOperations :
    AtClosing (closing t1 s6) ⟨15, s6⟩ ∧ (closing t1 s6).fetchHeader = some h6 ∧
      (closing t1 s6).fetchPayload h6.n = some (bs [0x64, 0, 0, 0, 0, 0x1B]) ∧
      (∃ t, exec .sync (closing t1 s6) = .next t) ∧
      after (fun t => t.out.event) (exec .sync (closing t1 s6)) = some .accept ∧
      t1.ft[0]? = some (fld true 0 2 1 10) ∧ decodeDescriptor {} (fld true 0 2 1 10) = .ok (.fieldS f1) :=
  ⟨s6_at, by decide +kernel, by decide +kernel, completes (by decide +kernel), by decide +kernel, by decide +kernel, by decide +kernel⟩

theorem witness_EncodedRecordDecodesToItsData :
    (∀ data ∈ [bs [], bs [0xFF, 0x00, 0x12, 0xFF]], data.length = 4 * (data.length / 4) ∧ data.length / 4 ≤ 255 ∧
      AtClosing (closing c0 (record c0 0x8000#16 0x1234#16 data))
        ⟨9 + 6 * (data.length / 4), record c0 0x8000#16 0x1234#16 data⟩ ∧ reqBytes c0.ft ≤ data.length) ∧
    (let c := table [fld true 2 2 1 1]
     AtClosing (closing c (record c 0#16 0#16 (bs [1, 2, 3, 4]))) ⟨9 + 6 * 1, record c 0#16 0#16 (bs [1, 2, 3, 4])⟩ ∧
      reqBytes c.ft = 4 * 1) := by
  refine ⟨?_, ?_, by decide +kernel⟩
  · simp only [List.mem_cons, List.not_mem_nil, or_false, forall_eq_or_imp, forall_eq]
    exact ⟨⟨by decide +kernel, by decide +kernel, closing_at (by decide +kernel) (by decide +kernel) (by decide +kernel), by decide +kernel⟩,
      ⟨by decide +kernel, by decide +kernel, closing_at (by decide +kernel) (by decide +kernel) (by decide +kernel), by decide +kernel⟩⟩
  · exact closing_at (by decide +kernel) (by decide +kernel) (by decide +kernel)

theorem witness_EvaluationSeesTheCandidateOnly :
    let s' : State := { closing t1 s6 with resValid := true, diagIdx := 9#8, lastCode := .rejected .highBit }
    AtClosing (closing t1 s6) ⟨15, s6⟩ ∧ AtClosing s' ⟨15, s6⟩ ∧ (closing t1 s6).params = s'.params ∧
      (closing t1 s6).cfg = s'.cfg ∧ closing t1 s6 ≠ s' :=
  ⟨s6_at, ⟨s6_at.config, s6_at.collecting, s6_at.long, s6_at.bound, s6_at.candidate⟩, rfl, rfl, by decide +kernel⟩

theorem witness_ResultsChangeOnlyOnAccept :
    ((∃ t, step (closing c0 short5) = .next t ∧ (closing c0 short5).presented.rst = false) ∧
      after (fun t => decide (t.out.event ≠ .accept)) (step (closing c0 short5)) = some true) ∧
    ((∃ t, step (closing t1 s6) = .next t ∧ (closing t1 s6).presented.rst = false) ∧
      after (fun t => decide (t.out.event = .accept)) (step (closing t1 s6)) = some true) ∧
    (let s : State := { closing c0 short5 with resValid := true }
     (∃ t, step s = .next t ∧ s.presented.rst = false) ∧ s.resValid = true) ∧
    (let s : State := { closing t1 s6 with input := [resetSample], resValid := true }
     ∃ t, step s = .next t ∧ s.presented.rst = true) :=
  ⟨⟨completes_and (by decide +kernel) (by decide), by decide +kernel⟩,
    ⟨completes_and (by decide +kernel) (by decide), by decide +kernel⟩,
    ⟨completes_and (by decide +kernel) (by decide), rfl⟩, completes_and (by decide +kernel) (by decide)⟩

/-- A header whose stored checksum is not the computed one. -/
def badHeader : List Byte := bs [0, 0, 0x34, 0x12, 0x10, 0, 1, 0, 0]

/-- Two wire frames, the second with a checksum that is not right: `0x7F - 0x59 = 0x26`, `0x7F - 0x64 = 0x1B`. -/
def badFrame1 : List Byte := bs [0, 0, 0x34, 0x12, 0x10, 0, 1, 2, 0x26, 0x64, 0, 0, 0, 0, 0x1B, 0x64, 0, 0, 0, 0, 0x1C]

theorem witness_StatusRegistersRecordTheEvent :
    (∀ cand ∈ [short5, badHeader, badFrame1], ∃ t, step (closing c0 cand) = .next t ∧ (closing c0 cand).presented.rst = false) ∧
      after (fun t => t.out.event.valid) (step (smallCollect 4)) = some false ∧
      after (fun t => (t.out.event.valid, t.lastCode.num)) (step (closing c0 short5)) = some (true, 2#4) ∧
      after (fun t => (t.out.event.valid, t.lastCode.num)) (step (closing c0 badHeader)) = some (true, 4#4) ∧
      after (fun t => (t.out.event.valid, t.lastCode.num)) (step (closing c0 badFrame1)) = some (true, 7#4) := by
  refine ⟨?_, by decide +kernel, by decide +kernel, by decide +kernel, by decide +kernel⟩
  simp only [List.mem_cons, List.not_mem_nil, or_false, forall_eq_or_imp, forall_eq]
  exact ⟨completes_and (by decide +kernel) (by decide +kernel), completes_and (by decide +kernel) (by decide +kernel),
    completes_and (by decide +kernel) (by decide +kernel)⟩

/-- R29: the diagnostics name the lowest wire frame that fails. -/
theorem diag_names_the_frame : diagOf c0 badFrame1 = some (0x1B, 0x1C, .frame, 1) := by decide +kernel

theorem witness_EventExactlyAtAClosingDelimiter :
    (∃ t, step (closing c0 short5) = .next t ∧ (closing c0 short5).presented.rst = false) ∧
      ∃ t, step (withByte 0xAA#8 (smallCollect 4)) = .next t ∧ (withByte 0xAA#8 (smallCollect 4)).presented.rst = false :=
  ⟨completes_and (by decide +kernel) (by decide +kernel), completes_and (by decide +kernel) (by decide +kernel)⟩

theorem witness_ConfigurationIsNeverWritten :
    (∃ t, exec (.hv1 h6.head) State.reset = .next t) ∧
      ∃ t, step (closing c0 short5) = .next t ∧ (closing c0 short5).presented.rst = false :=
  ⟨completes (by decide +kernel), completes_and (by decide +kernel) (by decide +kernel)⟩

theorem witness_InvariantsHoldAtReset :
    p0.wf ∧ ({ maxN := 0, numFields := 0, maxFieldLen := 7 } : Params).wf ∧ configWf p0 t1 = true ∧
      ∀ x ∈ [({ rst := true, cfg := some t1 } : Sample), Sample.byte 0xAA#8], ∀ c', x.cfg = some c' →
        x.rst = true ∧ configWf p0 c' = true := by
  refine ⟨by decide +kernel, by decide +kernel, by decide +kernel, ?_⟩
  simp only [List.mem_cons, List.not_mem_nil, or_false, forall_eq_or_imp, forall_eq]
  exact ⟨fun c' h => by cases h; decide, fun c' h => by cases h⟩

/-- A state in the middle of a segment. -/
theorem mid_bufferInv : BufferInv (closing c0 (bs [5])) where
  params := by decide +kernel
  lenBound := by decide +kernel
  lenFits := by decide +kernel
  huntEmpty := fun h => by cases h
  canonical := by decide +kernel
  inSpace := by decide +kernel
  written := fun a ha => by
    obtain rfl : a = 0 := Nat.lt_one_iff.mp ha
    exact ⟨5#8, rfl, by decide +kernel⟩
  idle := rfl

theorem witness_EveryStepKeepsTheBufferInvariant :
    BufferInv (closing c0 (bs [5])) ∧ ∃ t, step (closing c0 (bs [5])) = .next t := ⟨mid_bufferInv, completes (by decide +kernel)⟩

/-- A state that has accepted a record. -/
def accepted : State :=
  { closing t1 (bs [5]) with
    resValid := true, resDst := h6.dst, resSrc := h6.src, resVer := h6.ver, resCmd := h6.cmd, resN := 1#8, resHck := 0x27#8
    resDbLen := 4#10, resDb := cellsFrom 0 (bs [0x64, 0, 0, 0]), fv := ⟨true, 100⟩ :: List.replicate 15 .absent
    candSeen := true }

theorem accepted_resultInv : ResultInv accepted where
  canonical := by decide +kernel
  inSpace := by decide +kernel
  lenOfN := by decide +kernel
  written := by decide +kernel
  slots := by decide +kernel
  fits := by
    intro v hv
    have : v = ⟨true, 100⟩ ∨ v = .absent := by
      rcases List.mem_cons.mp hv with h | h
      · exact .inl h
      · exact .inr (List.eq_of_mem_replicate h)
    rcases this with rfl | rfl <;> exact ⟨by decide +kernel, by decide +kernel, by decide +kernel⟩
  hckLow := by decide +kernel
  pushed := fun _ => by decide +kernel
  unlatched := fun h => by cases h
  unseen := fun h => by cases h
  diag := by decide +kernel

theorem witness_EveryStepKeepsTheResultInvariant :
    BufferInv accepted ∧ ResultInv accepted ∧ ∃ t, step accepted = .next t :=
  ⟨⟨by decide +kernel, by decide +kernel, by decide +kernel, fun h => (by cases h), by decide +kernel, by decide +kernel, mid_bufferInv.written, rfl⟩, accepted_resultInv,
    completes (by decide +kernel)⟩

theorem witness_LawfulHostNeverStopsTheBlock :
    BufferInv (closing c0 (bs [5])) ∧ HostInv (closing c0 (bs [5])) :=
  ⟨mid_bufferInv, ⟨by decide +kernel, fun p hp c hc => by
    obtain rfl := List.mem_singleton.mp hp
    cases hc⟩⟩

theorem witness_DescriptorFieldsStandAtTheirBits :
    decodeDescriptor p0 (fld true 1023 4 1 65535) = .ok (.fieldS ⟨1023#10, 4#3, 1#16, 65535#16⟩) ∧
      decodeDescriptor p0 (fld false 0 1 0 1) = .ok (.fieldU ⟨0#10, 1#3, 0#16, 1#16⟩) ∧
      ((fld false 0 5 1 1).toNat / 2 ^ 15 % 2 = 1 ∧ p0.maxFieldLen < (fld false 0 5 1 1).toNat / 2 ^ 10 % 8) ∧
      (0x7FFF#64 : DescWord).toNat / 2 ^ 15 % 2 ≠ 1 := by decide +kernel

theorem witness_HeaderQuantitiesAreLittleEndian : (closing t1 s6).fetchHeader = some h6 := by decide +kernel

/-- One well-formed operation of each row. -/
def each : List Instr :=
  [.sync, .septet 0x7F#7, .high 0x2B#7, .cksum (bs [0xAA]), .hv1 ⟨0#16, 0#16, 0x10#8, []⟩, .hv2 h6.head, .hv3 h6, .hv4 h6,
   .hv5 h6, .push h6, .othercmd { h6 with cmd := 0x0200#16 }, .otherver ⟨0#16, 0#16, 0x11#8, bs [1, 2, 3, 4]⟩,
   .highscan (bs [0x7F, 0x80, 0, 0, 0, 0]), .frameck w6, .unpack w6, .fieldU f1, .fieldS f1]

theorem witness_DecodeOfEncodeIsTheOperation : ∀ i ∈ each, Instr.wf p0 c0 i = true := by decide +kernel

theorem witness_EncodeOfDecodeIsTheBytes : decode p0 c0 .record (s6.take 9) = .ok (.push h6) := by decide +kernel

end Sys2Proof.Tests
end

section
/-!
PROOFS. spec/00_scope.md: the derived parameters of R6.
-/
namespace Sys2Proof.Proofs
open Sys2Proof.Machine

/-! ### The width of `LEN` is the least that holds `RB_CAP + 1` -/

/-- Any register that holds `RB_CAP + 1` has at least `LEN_W` bits: `2 ^ (LEN_W - 1)` is already in its range. -/
theorem lenW_le_of_rbCap_succ_lt {p : Params} {width : Nat} (h : p.rbCap + 1 < 2 ^ width) : p.lenW ≤ width := by
  have hpow : 2 ^ (p.lenW - 1) < 2 ^ width := Nat.lt_of_le_of_lt (pow_lenW_le_rbCap_succ p) h
  exact Nat.le_of_pred_lt ((Nat.pow_lt_pow_iff_right Nat.one_lt_two).mp hpow)

/-- A width is `LEN_W` as soon as it holds `RB_CAP + 1` and the next smaller one does not. -/
theorem lenW_eq_of_bounds {p : Params} {k : Nat} (hlo : 2 ^ k ≤ p.rbCap + 1) (hhi : p.rbCap + 1 < 2 ^ (k + 1)) :
    p.lenW = k + 1 := by
  have hpow : 2 ^ k < 2 ^ p.lenW := Nat.lt_of_le_of_lt hlo (rbCap_succ_lt_pow_lenW p)
  exact Nat.le_antisymm (lenW_le_of_rbCap_succ_lt hhi) ((Nat.pow_lt_pow_iff_right Nat.one_lt_two).mp hpow)

/-- Settles O54: the capacities are R6's products by definition, `LEN_W` is the least width by the two bounds on
`RB_CAP + 1`, and the default `LEN_W` follows from `2 ^ 10 ≤ 1540 < 2 ^ 11`. -/
theorem derivedParametersAreThoseOfTheSpec : Obligations.DerivedParametersAreThoseOfTheSpec := by
  unfold Obligations.DerivedParametersAreThoseOfTheSpec
  have hrb : ({} : Params).rbCap = 1539 := rfl
  refine ⟨fun p => ⟨rfl, rfl, rbCap_succ_lt_pow_lenW p, fun _ => lenW_le_of_rbCap_succ_lt⟩, hrb, rfl, ?_⟩
  exact lenW_eq_of_bounds (k := 10) (by rw [hrb]; decide) (by rw [hrb]; decide)

end Sys2Proof.Proofs
end

section
/-!
PROOFS. spec/10_state.md: what a step out of reset does to the registers, said once, and the statements of that file
from it.
-/
namespace Sys2Proof.Proofs
open Sys2Proof.Machine

/-! ### What a step out of reset can do -/

/-- A step out of reset that evaluates no candidate: no byte; a byte discarded in `HUNT` (spec/41_frame_sync.md R102) or
appended in `COLLECT` (R104); the first delimiter (R103); a delimiter that drops a short segment (R105). -/
inductive QuietEnd (s t : State) : Prop
  | idle (hin : s.presented.inValid = false) (ht : t = endStep silent s)
  | discarded (hb : s.presented.inByte ≠ delim) (hs : s.syncState = .hunt) (ht : t = endStep silent s)
  | appended (hb : s.presented.inByte ≠ delim) (hs : s.syncState = .collect)
      (ht : t = endStep silent (appendByte s.presented.inByte s))
  | opened (hb : s.presented.inByte = delim) (hs : s.syncState = .hunt)
      (ht : t = endStep silent { s with syncState := .collect, len := 0 })
  | dropped (hb : s.presented.inByte = delim) (hs : s.syncState = .collect) (hl : s.len < 5)
      (ht : t = endStep silent { s with len := 0 })

/-- The delimiter that closes a segment of five bytes or more is at the port (spec/41_frame_sync.md R106). -/
structure ClosesCandidate (s : State) : Prop where
  config : configWf s.params s.cfg = true
  valid : s.presented.inValid = true
  delimiter : s.presented.inByte = delim
  collecting : s.syncState = .collect
  long : 5 ≤ s.len

/-- The record in the buffer has passed every check, with the header `h` and the decoded bytes `d`. -/
structure AcceptedRecord (s : State) (h : Header) (d : List Byte) : Prop where
  header : s.fetchHeader = some h
  version : h.ver = s.cfg.version
  command : h.cmd = s.cfg.command
  checksum : h.hck = lowByte (cksum h.covered)
  inBuffer : 9 + 6 * h.n.toNat ≤ s.params.rbCap
  decodedLength : d.length = 4 * h.n.toNat
  decodes : ∃ c, s.candidate = some c ∧ decodeCandidate s.cfg c = .ok ⟨h, d, s.cfg.ft.map (slotValue d)⟩

/-- Wire frame `i` of the payload is the lowest one whose checksum is not right, behind a header `h` that passed and with
no payload byte of 0x80 or more (spec/43_payload_decoder.md R141, R142). -/
structure LowestBadFrame (s : State) (h : Header) (payload : List Byte) (i : Nat) : Prop where
  header : s.fetchHeader = some h
  operand : s.fetchPayload h.n = some payload
  low : ∀ b ∈ payload, b.toNat < 0x80
  index : i < h.n.toNat
  bad : frameOk (wireFrame payload i) = false
  lowest : ∀ j, j < i → frameOk (wireFrame payload j) = true

/-- A step that evaluates a candidate: a rejection without diagnostics, one with the header's, one with a wire frame's
(spec/60_exceptions.md R190), or the acceptance (R191). -/
inductive EvaluationEnd (s t : State) : Prop
  | rejected (code : RejectCode) (h4 : code ≠ .hdrChecksum) (h7 : code ≠ .frameChecksum)
      (ht : t = takeReject code none s)
  | badHeader (h : Header) (hh : s.fetchHeader = some h) (hk : h.hck ≠ lowByte (cksum h.covered))
      (ht : t = takeReject .hdrChecksum (some ⟨cksum h.covered, h.hck, .header, 0#8⟩) s)
  | badFrame (h : Header) (payload : List Byte) (i : Nat) (hf : LowestBadFrame s h payload i)
      (ht : t = takeReject .frameChecksum (some ⟨cksum ((wireFrame payload i).take 5),
        (wireFrame payload i).getD 5 0#8, .frame, BitVec.ofNat 8 i⟩) s)
  | accepted (h : Header) (d : List Byte) (ha : AcceptedRecord s h d)
      (ht : t = takeAccept h d (s.cfg.ft.map (slotValue d)) s)

/-- Under a well-formed configuration an evaluation runs (spec/30_encoding.md R80). -/
theorem underConfig_of_wf {s : State} (h : configWf s.params s.cfg = true) (p : Progress) :
    underConfig s p = p := if_pos h

/-- A delimiter that closes a candidate evaluates it (spec/41_frame_sync.md R106). -/
theorem execSync_candidate {s : State} (hc : configWf s.params s.cfg = true) (hs : s.syncState = .collect)
    (hl : 5 ≤ s.len) : execSync s = (candidateOp s).outcome := by
  have h5 : ¬s.len < minSeg := Nat.not_lt.mpr hl
  simp only [execSync, hs, if_neg h5, underConfig_of_wf hc]

/-- The operands of an evaluation that passed every check make an accepted record: the whole candidate can be read, and
the head and the header of the buffer are its own. -/
theorem acceptedRecord_of_operands {s : State} (hs : ClosesCandidate s) {hd : HeaderHead} {h : Header}
    {payload d : List Byte} (hhd : s.fetchHead = some hd) (hv : hd.ver = s.cfg.version) (hh : s.fetchHeader = some h)
    (hcmd : h.cmd = s.cfg.command) (hk : h.hck = lowByte (cksum h.covered)) (hl : s.len = 9 + 6 * h.n.toNat)
    (hp : s.fetchPayload h.n = some payload) (hd' : payloadDecode h.n.toNat payload = .ok d)
    (hr : reqBytes s.cfg.ft ≤ d.length) : AcceptedRecord s h d := by
  obtain ⟨hcap, c, hc⟩ := candidate_of_payload hh hl hp
  have hat : AtClosing s c := ⟨hs.config, hs.collecting, hs.long, Nat.le_succ_of_le hcap, hc⟩
  have hver : h.ver = s.cfg.version := by
    obtain ⟨hd₁, e₁, hb, -⟩ := fetchHead_closing hat
    have e₂ := (fetchHeader_closing hat (by omega)).1
    obtain rfl := Option.some.inj (hhd.symm.trans e₁)
    obtain rfl := Option.some.inj (hh.symm.trans e₂)
    exact hb.symm.trans hv
  exact {
    header := hh, version := hver, command := hcmd, checksum := hk, inBuffer := hl ▸ hcap
    decodedLength := payloadDecode_length _ _ _ hd'
    decodes := ⟨c, hc, decodeCandidate_closing_ok hat hhd hv hh hcmd hk hl hp hd' hr⟩ }

/-- How an evaluation that answers a next state has ended. -/
theorem evaluationEnd_of_execSync {s t : State} (hs : ClosesCandidate s) (h : execSync s = .next t) :
    EvaluationEnd s t := by
  rw [execSync_candidate hs.config hs.collecting hs.long] at h
  rcases candidateOp_next hs.config h with ⟨code, h4, h7, ht⟩ | ⟨h, hh, hk, ht⟩ | ⟨h, payload, diag, hh, hp, he, ht⟩ |
    ⟨hd, h, payload, d, hhd, hv, hh, hcmd, hk, hl, hp, hd', hr, ht⟩
  · exact .rejected code h4 h7 ht
  · exact .badHeader h hh hk ht
  · rcases payloadDecode_error he with ⟨hcode, -⟩ | ⟨-, hlow, i, hi, hbad, hmin, rfl⟩
    · cases hcode
    · exact .badFrame h payload i ⟨hh, hp, hlow, hi, hbad, hmin⟩ ht
  · exact .accepted h d (acceptedRecord_of_operands hs hhd hv hh hcmd hk hl hp hd' hr) ht

/-- A data byte is discarded or appended. -/
theorem quietEnd_dataByte {s : State} (hb : s.presented.inByte ≠ delim) :
    QuietEnd s (dataByte s.presented.inByte s) := by
  cases hs : s.syncState with
  | hunt => exact .discarded hb hs (by simp only [dataByte, hs])
  | collect => exact .appended hb hs (by simp only [dataByte, hs])

/-- A step out of reset evaluates the candidate that a delimiter closes, or nothing. -/
theorem step_outOfReset {s t : State} (h : step s = .next t) (hr : s.presented.rst = false) :
    QuietEnd s t ∨ (ClosesCandidate s ∧ EvaluationEnd s t) := by
  rcases step_next h with ⟨hr', -⟩ | ⟨-, -, hc, hcase⟩
  · cases hr.symm.trans hr'
  rcases hcase with ⟨hin, ht⟩ | ⟨-, hb, rfl⟩ | ⟨hin, hb, hx⟩
  · exact .inl (.idle hin ht)
  · exact .inl (quietEnd_dataByte hb)
  · rcases execSync_next hx with ⟨hs, ht⟩ | ⟨hs, hl, ht⟩ | ⟨hs, hl, -⟩
    · exact .inl (.opened hb hs ht)
    · exact .inl (.dropped hb hs hl ht)
    · have hcl : ClosesCandidate s := ⟨hc, hin, hb, hs, hl⟩
      exact .inr ⟨hcl, evaluationEnd_of_execSync hcl hx⟩

/-- A step out of reset runs under a well-formed configuration only (spec/30_encoding.md R80). -/
theorem configWf_of_step {s t : State} (h : step s = .next t) (hr : s.presented.rst = false) :
    configWf s.params s.cfg = true := by
  rcases step_next h with ⟨hr', -⟩ | ⟨-, -, hc, -⟩
  · cases hr.symm.trans hr'
  · exact hc

/-- A step with `rst = 1` is the reset of the block. -/
theorem step_reset {s t : State} (h : step s = .next t) (hr : s.presented.rst = true) :
    t = resetStep s.presented s := by
  rw [step, if_pos hr] at h
  exact (Host.Outcome.next.inj h).symm

/-- A step that evaluates nothing writes the sequencing state, the buffer and the outputs only. -/
theorem QuietEnd.frame {s t : State} (h : QuietEnd s t) :
    t = { s with syncState := t.syncState, len := t.len, rb := t.rb, out := {}, work := {}, input := s.input.tail } := by
  rcases h with ⟨-, rfl⟩ | ⟨-, -, rfl⟩ | ⟨-, -, rfl⟩ | ⟨-, -, rfl⟩ | ⟨-, -, -, rfl⟩ <;> rfl

/-- It shows no event (spec/10_state.md R30). -/
theorem QuietEnd.out_eq {s t : State} (h : QuietEnd s t) : t.out = {} := by
  rw [h.frame]

/-- Its sample closes no candidate. -/
theorem QuietEnd.not_closesCandidate {s t : State} (h : QuietEnd s t) : ¬ClosesCandidate s := by
  intro hc
  cases h with
  | idle hin => cases hin.symm.trans hc.valid
  | discarded hb => exact hb hc.delimiter
  | appended hb => exact hb hc.delimiter
  | opened _ hs => cases hs.symm.trans hc.collecting
  | dropped _ _ hl => exact Nat.not_lt.mpr hc.long hl

/-- An evaluation ends in the reject entry or in the accept entry of an accepted record. -/
theorem EvaluationEnd.reject_or_accept {s t : State} (h : EvaluationEnd s t) :
    (∃ code diag, t = takeReject code diag s) ∨
    ∃ hdr d, AcceptedRecord s hdr d ∧ t = takeAccept hdr d (s.cfg.ft.map (slotValue d)) s := by
  cases h with
  | rejected code _ _ ht => exact .inl ⟨_, _, ht⟩
  | badHeader hdr _ _ ht => exact .inl ⟨_, _, ht⟩
  | badFrame hdr payload i _ ht => exact .inl ⟨_, _, ht⟩
  | accepted hdr d ha ht => exact .inr ⟨hdr, d, ha, ht⟩

/-- An evaluation shows an event (spec/10_state.md R30). -/
theorem EvaluationEnd.event_valid {s t : State} (h : EvaluationEnd s t) : t.out.event.valid = true := by
  rcases h.reject_or_accept with ⟨code, diag, rfl⟩ | ⟨hdr, d, -, rfl⟩
  · rw [takeReject_out]
    rfl
  · rfl

/-- It opens an empty segment (spec/60_exceptions.md R190, R191). -/
theorem EvaluationEnd.len_eq {s t : State} (h : EvaluationEnd s t) : t.len = 0 := by
  rcases h.reject_or_accept with ⟨code, diag, rfl⟩ | ⟨hdr, d, -, rfl⟩
  · exact takeReject_len code diag s
  · rfl

/-- It leaves the parameters, the configuration, the sequencing state and the buffer, and takes the sample. -/
theorem EvaluationEnd.unchanged {s t : State} (h : EvaluationEnd s t) :
    t.params = s.params ∧ t.cfg = s.cfg ∧ t.syncState = s.syncState ∧ t.rb = s.rb ∧ t.work = {} ∧
      t.input = s.input.tail := by
  rcases h.reject_or_accept with ⟨code, diag, rfl⟩ | ⟨hdr, d, -, rfl⟩
  · simp only [takeReject_params, takeReject_cfg, takeReject_syncState, takeReject_rb, takeReject_work,
      takeReject_input, and_self]
  · exact ⟨rfl, rfl, rfl, rfl, rfl, rfl⟩

/-! ### The buffer invariant -/

/-- The buffer invariant holds right after reset (spec/10_state.md R34). -/
theorem bufferInv_resetWith {p : Params} (hp : p.wf) (c : Config) (input : List Sample) :
    BufferInv (State.resetWith p c input) where
  params := hp
  lenBound := Nat.zero_le _
  lenFits := lt_pow_lenW (Nat.zero_le _)
  huntEmpty := fun _ => rfl
  canonical := (resetWith_wf p c input).1
  inSpace := List.forall_mem_nil _
  written := fun a ha => absurd (Nat.lt_of_lt_of_le ha (Nat.min_le_left _ _)) (Nat.not_lt_zero a)
  idle := rfl

/-- Emptying the segment keeps the buffer invariant. -/
theorem bufferInv_emptied {s t : State} (inv : BufferInv s) (hp : t.params = s.params) (hrb : t.rb = s.rb)
    (hlen : t.len = 0) (hw : t.work = {}) : BufferInv t where
  params := hp ▸ inv.params
  lenBound := hlen ▸ Nat.zero_le _
  lenFits := lt_pow_lenW (hlen ▸ Nat.zero_le _)
  huntEmpty := fun _ => hlen
  canonical := hrb ▸ inv.canonical
  inSpace := by
    rw [hrb, hp]
    exact inv.inSpace
  written := fun a ha => by
    rw [State.validLen, hlen, Nat.zero_min] at ha
    exact absurd ha (Nat.not_lt_zero a)
  idle := hw

/-- The end of a step keeps the buffer invariant. -/
theorem bufferInv_endStep {s : State} (inv : BufferInv s) (o : Output) : BufferInv (endStep o s) :=
  { inv with idle := rfl }

/-- An appended byte extends the written part by one byte, or falls outside the full buffer (spec/41_frame_sync.md R104). -/
theorem written_appendByte {s : State} (inv : BufferInv s) {b : Byte} (hb : b ≠ delim) {a : Nat}
    (ha : a < (appendByte b s).validLen) : ∃ b', Memory.read (appendByte b s).rb a = some b' ∧ b' ≠ delim := by
  by_cases hl : s.len < s.params.rbCap
  · rw [appendByte_rb, if_pos hl]
    by_cases haeq : a = s.len
    · exact ⟨b, haeq ▸ Memory.read_write_same _ _ _, hb⟩
    · rw [Memory.read_write_other _ _ haeq]
      refine inv.written a ?_
      rw [State.validLen, appendByte_len, appendByte_params, if_pos hl.le] at ha
      rw [State.validLen]
      omega
  · rw [appendByte_rb, if_neg hl]
    refine inv.written a ?_
    rw [State.validLen, appendByte_params] at ha
    rw [State.validLen]
    omega

/-- The length after an appended byte is the saturated count (spec/41_frame_sync.md R104). -/
theorem appendByte_len_eq_min {s : State} (h : s.len ≤ s.params.rbCap + 1) (b : Byte) :
    (appendByte b s).len = min (s.len + 1) (s.params.rbCap + 1) := by
  rw [appendByte_len]
  split <;> omega

/-- A byte appended in `COLLECT` keeps the buffer invariant. -/
theorem bufferInv_appendByte {s : State} (inv : BufferInv s) (hs : s.syncState = .collect) {b : Byte}
    (hb : b ≠ delim) : BufferInv (appendByte b s) := by
  have hlen : (appendByte b s).len ≤ s.params.rbCap + 1 :=
    appendByte_len_eq_min inv.lenBound b ▸ Nat.min_le_right _ _
  refine ⟨inv.params, hlen, lt_pow_lenW hlen, fun h => ?_, appendByte_wf b inv.canonical, fun cell hc => ?_,
    fun a ha => written_appendByte inv hb ha, inv.idle⟩
  · cases hs.symm.trans h
  · rw [appendByte_rb] at hc
    split at hc
    case isTrue hl =>
      rcases Memory.mem_write hc with rfl | hc
      · exact hl
      · exact inv.inSpace cell hc
    case isFalse => exact inv.inSpace cell hc

/-- A step that evaluates nothing keeps the buffer invariant. -/
theorem bufferInv_quietEnd {s t : State} (inv : BufferInv s) (h : QuietEnd s t) : BufferInv t := by
  cases h with
  | idle _ ht => exact ht ▸ bufferInv_endStep inv silent
  | discarded _ _ ht => exact ht ▸ bufferInv_endStep inv silent
  | appended hb hs ht => exact ht ▸ bufferInv_endStep (bufferInv_appendByte inv hs hb) silent
  | opened _ _ ht => exact ht ▸ bufferInv_emptied inv rfl rfl rfl rfl
  | dropped _ _ _ ht => exact ht ▸ bufferInv_emptied inv rfl rfl rfl rfl

/-- So does an evaluation: it leaves the buffer and empties the segment. -/
theorem bufferInv_evaluationEnd {s t : State} (inv : BufferInv s) (h : EvaluationEnd s t) : BufferInv t := by
  obtain ⟨hp, -, -, hrb, hw, -⟩ := h.unchanged
  exact bufferInv_emptied inv hp hrb h.len_eq hw

/-- Settles O45: reset establishes the invariant, a quiet step appends one byte to the written part or empties it, and an
evaluation empties it. -/
theorem everyStepKeepsTheBufferInvariant : Obligations.EveryStepKeepsTheBufferInvariant := by
  intro s t inv h
  cases hr : s.presented.rst with
  | true => exact step_reset h hr ▸ bufferInv_resetWith inv.params _ _
  | false =>
    rcases step_outOfReset h hr with hq | ⟨-, he⟩
    · exact bufferInv_quietEnd inv hq
    · exact bufferInv_evaluationEnd inv he

/-! ### The result invariant -/

/-- The result invariant holds right after reset (spec/10_state.md R34). -/
theorem resultInv_resetWith (p : Params) (c : Config) (input : List Sample) :
    ResultInv (State.resetWith p c input) where
  canonical := (resetWith_wf p c input).2
  inSpace := List.forall_mem_nil _
  lenOfN := rfl
  written := fun a ha => absurd ha (Nat.not_lt_zero a)
  slots := List.length_replicate
  fits := fun v hv => by
    obtain rfl := List.eq_of_mem_replicate hv
    exact ⟨by simp [FieldVal.absent], by simp [FieldVal.absent], fun _ => rfl⟩
  hckLow := (by decide : (0#8 : Byte).toNat < 0x80)
  pushed := fun h => by cases h
  unlatched := fun _ => ⟨rfl, rfl, rfl, rfl, rfl, rfl, rfl⟩
  unseen := fun _ => rfl
  diag := ⟨fun _ => rfl, fun h => by cases h⟩

/-- A step that evaluates nothing keeps the result invariant: it writes none of its registers. -/
theorem resultInv_quietEnd {s t : State} (inv : ResultInv s) (h : QuietEnd s t) : ResultInv t := by
  rw [h.frame]
  exact { inv with }

/-- A rejection keeps the result invariant as long as its diagnostics are in their ranges. -/
theorem resultInv_takeReject {s : State} (inv : ResultInv s) (code : RejectCode) (diag : Option Diag)
    (hd : ∀ d ∈ diag, (d.kind = .header → d.idx = 0#8) ∧ (d.kind = .frame → d.act.toNat < 0x80)) :
    ResultInv (takeReject code diag s) := by
  have hpushed (h : s.resValid = true) : s.resVer = s.cfg.version ∧ s.resCmd = s.cfg.command ∧ true = true ∧
      s.fv.map (·.present) = s.cfg.ft.map descValid := by
    obtain ⟨hver, hcmd, -, hfv⟩ := inv.pushed h
    exact ⟨hver, hcmd, rfl, hfv⟩
  cases diag with
  | none => exact { inv with pushed := hpushed, unseen := fun h => by cases h }
  | some d => exact { inv with pushed := hpushed, unseen := fun h => (by cases h), diag := hd d rfl }

/-! #### The values of the field map (spec/44_field_mapper.md R162, R164, R166) -/

/-- `n` bytes make a number below `2 ^ (8*n)`. -/
theorem leValue_lt (bytes : List Byte) : leValue bytes < 2 ^ (8 * bytes.length) := by
  induction bytes with
  | nil => decide
  | cons b rest ih =>
    have hb := b.isLt
    rw [leValue, List.length_cons, Nat.mul_succ, Nat.pow_add]
    omega

/-- The bits of a field of `LENGTH` bytes make a number below `2 ^ (8*LENGTH)`. -/
theorem fieldBits_lt (f : Field) (d : List Byte) : fieldBits f d < 2 ^ (8 * f.length.toNat) :=
  Nat.lt_of_lt_of_le (leValue_lt _)
    (Nat.pow_le_pow_right (by decide) (Nat.mul_le_mul_left 8 (List.length_take_le _ _)))

/-- `2 ^ N` is twice `2 ^ (N-1)`. -/
theorem two_pow_eq_double_pred {bits : Nat} (hb : 1 ≤ bits) : (2 : Int) ^ bits = 2 * 2 ^ (bits - 1) := by
  conv_lhs => rw [← Nat.sub_add_cancel hb, pow_succ, mul_comm]

/-- The two's complement of `N` bits lies in `-2 ^ (N-1) .. 2 ^ (N-1)` (spec/44_field_mapper.md R164). -/
theorem signExtend_bounds {bits v : Nat} (hb : 1 ≤ bits) (hv : v < 2 ^ bits) :
    -2 ^ (bits - 1) ≤ signExtend bits v ∧ signExtend bits v < 2 ^ (bits - 1) := by
  have hdouble := two_pow_eq_double_pred hb
  have hv' : (v : Int) < 2 ^ bits := by exact_mod_cast hv
  unfold signExtend
  split
  case isTrue hge =>
    have hge' : (2 : Int) ^ (bits - 1) ≤ v := by exact_mod_cast hge
    omega
  case isFalse hlt =>
    have hlt' : (v : Int) < 2 ^ (bits - 1) := by exact_mod_cast Nat.not_le.mp hlt
    omega

/-- A number of at most `MAX_FIELD_LEN` bytes, signed or not, fits `FV[k].RAW`. -/
theorem fits_of_bounds {p : Params} {k : Nat} (hk : 1 ≤ k) (hkp : k ≤ p.maxFieldLen) {raw : Int}
    (hlo : -2 ^ (8 * k - 1) ≤ raw) (hhi : raw < 2 ^ (8 * k)) : FieldVal.fits p ⟨true, raw⟩ := by
  have hlow : (2 : Int) ^ (8 * k - 1) ≤ 2 ^ (8 * p.maxFieldLen - 1) := pow_le_pow_right₀ (by decide) (by omega)
  have hhigh : (2 : Int) ^ (8 * k) ≤ 2 ^ (8 * p.maxFieldLen) := pow_le_pow_right₀ (by decide) (by omega)
  exact ⟨by dsimp only; omega, hhi.trans_le hhigh, fun h => by cases h⟩

/-- The value of a slot with a well-formed descriptor fits its register (spec/44_field_mapper.md R166). -/
theorem slotValue_fits {p : Params} {w : DescWord} (hw : descriptorWf p w = true) (d : List Byte) :
    (slotValue d w).fits p := by
  unfold slotValue
  split
  case isTrue => exact ⟨by simp [FieldVal.absent], by simp [FieldVal.absent], fun _ => rfl⟩
  case isFalse hv =>
    simp only [descriptorWf, hv, Bool.not_true, Bool.false_or, Bool.and_eq_true, decide_eq_true_eq] at hw
    obtain ⟨⟨⟨-, hpos⟩, hmax⟩, -⟩ := hw
    have hbits : fieldBits (descField w) d < 2 ^ (8 * (descLength w).toNat) := fieldBits_lt (descField w) d
    split
    case isTrue =>
      obtain ⟨hlo, hhi⟩ := signExtend_bounds (by omega) hbits
      exact fits_of_bounds hpos hmax hlo (hhi.trans_le (pow_le_pow_right₀ (by decide) (Nat.sub_le _ _)))
    case isFalse =>
      have hneg : -(2 : Int) ^ (8 * (descLength w).toNat - 1) ≤ 0 := neg_nonpos.mpr (by positivity)
      exact fits_of_bounds hpos hmax (hneg.trans (Int.natCast_nonneg _)) (by exact_mod_cast hbits)

/-- A field value is present exactly for an active slot (spec/44_field_mapper.md R161). -/
theorem slotValue_present (d : List Byte) (w : DescWord) : (slotValue d w).present = descValid w := by
  unfold slotValue
  split
  case isTrue hv => exact hv.symm
  case isFalse hv =>
    have hv' : descValid w = true := by simpa using hv
    rw [hv']
    split <;> rfl

/-! #### The acceptance -/

/-- A well-formed configuration fills the slots of the field table (spec/30_encoding.md R80). -/
theorem ft_length_of_configWf {p : Params} {c : Config} (h : configWf p c = true) : c.ft.length = p.numFields := by
  rw [configWf, Bool.and_eq_true, decide_eq_true_eq] at h
  exact h.1

/-- `RES_DBLEN` holds `4*N` for every byte `N` (spec/10_state.md R20). -/
theorem takeAccept_resDbLen_toNat (h : Header) (d : List Byte) (fv : List FieldVal) (s : State) :
    (takeAccept h d fv s).resDbLen.toNat = 4 * h.n.toNat := by
  have hn := h.n.isLt
  rw [takeAccept_resDbLen, BitVec.toNat_ofNat, dataPerFrame, Nat.mod_eq_of_lt (by omega)]

/-- The accept entry writes the decoded bytes at the indices from 0 (spec/60_exceptions.md R191). -/
theorem read_takeAccept_resDb (h : Header) {d : List Byte} (fv : List FieldVal) (s : State) {i : Nat}
    (hi : i < d.length) : Memory.read (takeAccept h d fv s).resDb i = d[i]? := by
  have hread := Memory.read_writeRange_inside s.resDb 0 d hi
  rwa [Nat.zero_add] at hread

/-- The acceptance of a record that passed every check keeps the result invariant. -/
theorem resultInv_accepted {s : State} {h : Header} {d : List Byte} (inv : ResultInv s)
    (hc : configWf s.params s.cfg = true) (ha : AcceptedRecord s h d) :
    ResultInv (takeAccept h d (s.cfg.ft.map (slotValue d)) s) where
  canonical := Memory.writeRange_wf inv.canonical 0 d
  inSpace := fun cell hcell => by
    rcases Memory.mem_writeRange hcell with ⟨-, hlt⟩ | hold
    · have hlen := ha.decodedLength
      have hcap := ha.inBuffer
      rw [takeAccept_params, Params.dbCap, dataPerFrame]
      rw [Params.rbCap, hdrLen, frameLen] at hcap
      omega
    · exact inv.inSpace cell hold
  lenOfN := takeAccept_resDbLen_toNat h d _ s
  written := fun a hlt => by
    rw [takeAccept_resDbLen_toNat, ← ha.decodedLength] at hlt
    rw [read_takeAccept_resDb h _ s hlt, List.getElem?_eq_getElem hlt]
    rfl
  slots := (List.length_map _).trans (ft_length_of_configWf hc)
  fits := fun v hv => by
    obtain ⟨w, hw, rfl⟩ := List.mem_map.mp hv
    exact slotValue_fits (descriptorWf_of_mem hc w hw) d
  hckLow := by
    rw [takeAccept_resHck, ha.checksum, lowByte_toNat]
    exact septet_lt _
  pushed := fun _ => by
    refine ⟨ha.version, ha.command, rfl, ?_⟩
    rw [takeAccept_fv, List.map_map]
    exact List.map_congr_left fun w _ => slotValue_present d w
  unlatched := fun h => by cases h
  unseen := fun h => by cases h
  diag := inv.diag

/-- The byte that stands for a missing one is below 0x80, so every byte of a low payload's wire frame is. -/
theorem wireFrame_getD_lt {payload : List Byte} (hlow : ∀ b ∈ payload, b.toNat < 0x80) (i k : Nat) :
    ((wireFrame payload i).getD k 0#8).toNat < 0x80 := by
  by_cases hk : k < (wireFrame payload i).length
  · rw [List.getD_eq_getElem _ _ hk]
    exact hlow _ (List.mem_of_mem_drop (List.mem_of_mem_take (List.getElem_mem hk)))
  · rw [List.getD_eq_default _ _ (Nat.not_lt.mp hk)]
    decide

/-- An evaluation keeps the result invariant. -/
theorem resultInv_evaluationEnd {s t : State} (inv : ResultInv s) (hs : ClosesCandidate s) (h : EvaluationEnd s t) :
    ResultInv t := by
  cases h with
  | rejected code _ _ ht => exact ht ▸ resultInv_takeReject inv code none (by simp)
  | badHeader h _ _ ht => exact ht ▸ resultInv_takeReject inv _ _ (by simp)
  | badFrame h payload i hf ht =>
    exact ht ▸ resultInv_takeReject inv _ _ (by simpa using wireFrame_getD_lt hf.low i 5)
  | accepted h d ha ht => exact ht ▸ resultInv_accepted inv hs.config ha

/-- Settles O46: reset establishes the invariant, a quiet step writes none of its registers, a rejection writes the status
and the diagnostics only, and an acceptance latches a record that passed every check. -/
theorem everyStepKeepsTheResultInvariant : Obligations.EveryStepKeepsTheResultInvariant := by
  intro s t _ inv h
  cases hr : s.presented.rst with
  | true => exact step_reset h hr ▸ resultInv_resetWith _ _ _
  | false =>
    rcases step_outOfReset h hr with hq | ⟨hs, he⟩
    · exact resultInv_quietEnd inv hq
    · exact resultInv_evaluationEnd inv hs he

/-! ### The ports, the length and the configuration -/

/-- Settles O11: each kind of step names its new length, and every one of them is at most `RB_CAP + 1`. -/
theorem lenCountsTheSegment : Obligations.LenCountsTheSegment := by
  intro s t h hr hin hbound
  rcases step_outOfReset h hr with hq | ⟨hs, he⟩
  · have hp : t.params = s.params := by rw [hq.frame]
    rw [hp]
    cases hq with
    | idle hin' => cases hin'.symm.trans hin
    | discarded hb hs ht =>
      have hlen : t.len = s.len := ht ▸ rfl
      exact ⟨fun e => absurd e hb, fun _ hs' => (by cases hs.symm.trans hs'), fun _ _ => hlen,
        hlen ▸ lt_pow_lenW hbound⟩
    | appended hb hs ht =>
      have hlen : t.len = min (s.len + 1) (s.params.rbCap + 1) := by
        rw [ht, endStep_len, appendByte_len_eq_min hbound]
      exact ⟨fun e => absurd e hb, fun _ _ => hlen, fun _ hs' => (by cases hs.symm.trans hs'),
        hlen ▸ lt_pow_lenW (Nat.min_le_right _ _)⟩
    | opened hb _ ht =>
      have hlen : t.len = 0 := ht ▸ rfl
      exact ⟨fun _ => hlen, fun hne => absurd hb hne, fun hne => absurd hb hne, hlen ▸ Nat.two_pow_pos _⟩
    | dropped hb _ _ ht =>
      have hlen : t.len = 0 := ht ▸ rfl
      exact ⟨fun _ => hlen, fun hne => absurd hb hne, fun hne => absurd hb hne, hlen ▸ Nat.two_pow_pos _⟩
  · exact ⟨fun _ => he.len_eq, fun hne => absurd hs.delimiter hne, fun hne => absurd hs.delimiter hne,
      he.len_eq ▸ Nat.two_pow_pos _⟩

/-- Settles O41: a quiet step shows no event and its sample closes no candidate; an evaluation shows one. -/
theorem eventExactlyAtAClosingDelimiter : Obligations.EventExactlyAtAClosingDelimiter := by
  intro s t h hr
  rcases step_outOfReset h hr with hq | ⟨hs, he⟩
  · refine ⟨fun hv => ?_, fun ⟨hin, hb, hs, hl⟩ =>
      absurd ⟨configWf_of_step h hr, hin, hb, hs, hl⟩ hq.not_closesCandidate⟩
    rw [hq.out_eq] at hv
    cases hv
  · exact ⟨fun _ => ⟨hs.valid, hs.delimiter, hs.collecting, hs.long⟩, fun _ => he.event_valid⟩

/-- An operation that leaves an evaluation in one of the ways of `Progress.From` keeps the configuration. -/
theorem config_of_from {s t : State} {p : Progress} (hp : Progress.From s p) (h : p.outcome = .next t) :
    t.cfg = s.cfg ∧ t.params = s.params := by
  cases p with
  | goOn u =>
    obtain ⟨w, rfl⟩ := hp
    obtain rfl := Host.Outcome.next.inj h
    exact ⟨rfl, rfl⟩
  | ended o =>
    obtain rfl : o = .next t := h
    rcases hp with ⟨code, diag, -, e⟩ | ⟨hdr, d, fv, e⟩ | ⟨r, e⟩ | ⟨r, e⟩
    · obtain rfl := Host.Outcome.next.inj e
      exact ⟨takeReject_cfg code diag s, takeReject_params code diag s⟩
    · obtain rfl := Host.Outcome.next.inj e
      exact ⟨rfl, rfl⟩
    · cases e
    · cases e

/-- A data byte keeps the configuration. -/
theorem config_dataByte (b : Byte) (s : State) : (dataByte b s).cfg = s.cfg ∧ (dataByte b s).params = s.params := by
  unfold dataByte
  split <;> exact ⟨rfl, rfl⟩

/-- So does the delimiter. -/
theorem config_execSync {s t : State} (h : execSync s = .next t) : t.cfg = s.cfg ∧ t.params = s.params := by
  rcases execSync_next h with ⟨-, rfl⟩ | ⟨-, -, rfl⟩ | ⟨-, -, ⟨code, diag, -, rfl⟩ | ⟨hdr, d, fv, rfl⟩⟩
  · exact ⟨rfl, rfl⟩
  · exact ⟨rfl, rfl⟩
  · exact ⟨takeReject_cfg code diag s, takeReject_params code diag s⟩
  · exact ⟨rfl, rfl⟩

/-- No operation writes the configuration or the parameters (spec/10_state.md R13). -/
theorem exec_keeps_config {i : Instr} {s t : State} (h : exec i s = .next t) :
    t.cfg = s.cfg ∧ t.params = s.params := by
  cases i with
  | sync => exact config_execSync h
  | septet d =>
    obtain rfl := Host.Outcome.next.inj h
    exact config_dataByte _ s
  | high x =>
    obtain rfl := Host.Outcome.next.inj h
    exact config_dataByte _ s
  | cksum bytes =>
    obtain rfl := Host.Outcome.next.inj h
    exact ⟨rfl, rfl⟩
  | hv1 hd => exact config_of_from (hv1Op_from hd s) h
  | hv2 hd => exact config_of_from (hv2Op_from hd s) h
  | hv3 hd => exact config_of_from (hv3Op_from hd s) h
  | hv4 hd => exact config_of_from (hv4Op_from hd s) h
  | hv5 hd => exact config_of_from (hv5Op_from hd s) h
  | push hd => exact config_of_from (underConfig_from (recordOp_from hd s)) h
  | othercmd hd =>
    obtain rfl := Host.Outcome.next.inj h
    exact ⟨takeReject_cfg .badCommand none s, takeReject_params .badCommand none s⟩
  | otherver hd =>
    obtain rfl := Host.Outcome.next.inj h
    exact ⟨takeReject_cfg .badVersion none s, takeReject_params .badVersion none s⟩
  | highscan payload => exact config_of_from (highscanOp_from payload s) h
  | frameck w => exact config_of_from (frameckOp_from w s) h
  | unpack w => exact config_of_from (unpackOp_from w s) h
  | fieldU f => exact config_of_from (readField_from f _ s) h
  | fieldS f => exact config_of_from (readField_from f _ s) h

/-- Settles O42: operation by operation, and for a step by its kinds. -/
theorem configurationIsNeverWritten : Obligations.ConfigurationIsNeverWritten := by
  refine ⟨fun i s t => exec_keeps_config, fun s t h hr => ?_⟩
  rcases step_outOfReset h hr with hq | ⟨-, he⟩
  · rw [hq.frame]
    exact ⟨rfl, rfl⟩
  · obtain ⟨hp, hc, -⟩ := he.unchanged
    exact ⟨hc, hp⟩

/-- A step out of reset under an unchanged, well-formed configuration runs the byte at the port, if there is one. -/
theorem step_eq_of_lawful {s : State} (hr : s.presented.rst = false) (hcfg : s.presented.config s.cfg = s.cfg)
    (hc : configWf s.params s.cfg = true) :
    step s = if s.presented.inValid then exec (decodeByte s.presented.inByte) s else .next (endStep silent s) := by
  rw [step, if_neg (by rw [hr]; decide), if_neg (not_not.mpr hcfg), if_neg (by rw [hc]; decide)]

/-- Settles O2: without a byte the step is the end of a step and nothing else. -/
theorem noByteMeansNoChange : Obligations.NoByteMeansNoChange := by
  intro s hr hcfg hc hin
  refine ⟨endStep silent s, ?_, rfl⟩
  rw [step_eq_of_lawful hr hcfg hc, if_neg (by rw [hin]; decide)]

/-- A step out of reset takes the sample at the ports (spec/10_state.md R11). -/
theorem step_takes_sample {s t : State} (h : step s = .next t) (hr : s.presented.rst = false) :
    t.input = s.input.tail := by
  rcases step_outOfReset h hr with hq | ⟨-, he⟩
  · rw [hq.frame]
  · obtain ⟨-, -, -, -, -, hi⟩ := he.unchanged
    exact hi

/-- The operation of every byte is well-formed: the delimiter is no `HIGH` byte (spec/30_encoding.md R61). -/
theorem decodeByte_wf (p : Params) (c : Config) (b : Byte) : (decodeByte b).wf p c = true := by
  unfold decodeByte
  split
  case isTrue => rfl
  case isFalse hb =>
    split
    case isTrue h7 =>
      rw [Instr.wf, bne_iff_ne]
      intro hx
      apply hb
      rw [← highByte_septetOf h7, hx]
      rfl
    case isFalse => rfl

/-- Settles O3: the decoder's operation at the stream level is the one the step runs. -/
theorem stepRunsTheDecodedByte : Obligations.StepRunsTheDecodedByte := by
  intro s hr hcfg hc hin
  have hstep : step s = exec (decodeByte s.presented.inByte) s := by rw [step_eq_of_lawful hr hcfg hc, if_pos hin]
  exact ⟨_, rfl, decodeByte_wf _ _ _, hstep, fun t ht => step_takes_sample (hstep.trans ht) hr⟩

/-- `SYNCED` as a number (spec/10_state.md R24). -/
theorem syncState_bit_toNat (x : SyncState) : x.bit.toNat = if x = .collect then 1 else 0 := by
  cases x <;> rfl

/-- Settles O43: each field stands above the bits of those to its right. -/
theorem statusPacksItsFields : Obligations.StatusPacksItsFields := by
  intro s
  rw [State.status, toNat_append_eq, toNat_append_eq, toNat_append_eq, toNat_append_eq, syncState_bit_toNat,
    BitVec.toNat_ofBool, BitVec.toNat_ofBool, BitVec.toNat_zero]
  ring

/-- Settles O44: by the reset lemmas of the two invariants; what the host owes is the hypothesis. -/
theorem invariantsHoldAtReset : Obligations.InvariantsHoldAtReset := by
  have hreset : ∀ (p : Params) (c : Config) (input : List Sample), p.wf → configWf p c = true →
      (∀ x ∈ input, ∀ c', x.cfg = some c' → x.rst = true ∧ configWf p c' = true) →
      BufferInv (State.resetWith p c input) ∧ ResultInv (State.resetWith p c input) ∧
        HostInv (State.resetWith p c input) :=
    fun p c input hp hc hl => ⟨bufferInv_resetWith hp c input, resultInv_resetWith p c input, ⟨hc, hl⟩⟩
  exact ⟨hreset, hreset {} (Config.default {}) [] (by decide) (by decide) (List.forall_mem_nil _)⟩

/-! ### The result registers -/

/-- The accept entry makes the writes of spec/60_exceptions.md R191: `RES_DB` by the laws of a range write, the rest by
definition. -/
theorem acceptWrites_takeAccept (h : Header) (d : List Byte) (fv : List FieldVal) (s : State) :
    AcceptWrites h d fv s (takeAccept h d fv s) :=
  ⟨rfl, takeAccept_resDbLen_toNat h d fv s, fun _ hi => read_takeAccept_resDb h fv s hi,
    fun i hi => Memory.read_writeRange_above s.resDb d (by omega)⟩

/-- Reset puts every register to the value of spec/10_state.md R34. -/
theorem resetValues_resetStep (p : Sample) (s : State) : ResetValues (resetStep p s) := by
  have hfv : ∀ v ∈ (resetStep p s).fv, v.present = false ∧ v.raw = 0 := fun v hv => by
    obtain rfl := List.eq_of_mem_replicate hv
    exact ⟨rfl, rfl⟩
  have hstatus : (resetStep p s).status = 0x00#8 := BitVec.eq_of_toNat_eq ((statusPacksItsFields _).trans rfl)
  exact ⟨rfl, rfl, rfl, rfl, rfl, rfl, rfl, rfl, rfl, rfl, List.length_replicate, hfv, rfl, rfl, hstatus, rfl, rfl, rfl,
    rfl, rfl, rfl, rfl, rfl⟩

/-- Settles O39: a quiet step and a rejection write no result register, and an acceptance makes the accept entry of the
record in the buffer. -/
theorem resultsChangeOnlyOnAccept : Obligations.ResultsChangeOnlyOnAccept := by
  intro s t h
  cases hr : s.presented.rst with
  | true =>
    refine ⟨fun hf => (by cases hf), fun hf => (by cases hf), fun hf => (by cases hf), fun _ => ?_⟩
    exact step_reset h hr ▸ resetValues_resetStep _ s
  | false =>
    rcases step_outOfReset h hr with hq | ⟨-, he⟩
    · refine ⟨fun _ _ => ?_, fun _ hev => ?_, fun _ hv => ?_, fun hf => (by cases hf)⟩
      · rw [hq.frame]
        exact ⟨rfl, rfl, rfl, rfl, rfl, rfl, rfl, rfl, rfl, rfl⟩
      · rw [hq.out_eq] at hev
        cases hev
      · rw [hq.frame]
        exact hv
    · rcases he.reject_or_accept with ⟨code, diag, rfl⟩ | ⟨hdr, d, ha, rfl⟩
      · refine ⟨fun _ _ => by simp, fun _ hev => ?_, fun _ hv => ?_, fun hf => (by cases hf)⟩
        · rw [takeReject_out] at hev
          cases hev
        · rw [takeReject_resValid, hv]
      · refine ⟨fun _ hne => absurd rfl hne, fun _ _ => ?_, fun _ _ => rfl, fun hf => (by cases hf)⟩
        obtain ⟨c, hc, hdec⟩ := ha.decodes
        exact ⟨c, _, hc, hdec, ha.header, ha.decodedLength, acceptWrites_takeAccept hdr d _ s⟩

/-! ### The status and the diagnostic registers -/

/-- Only `HDR_CHECKSUM` has code 4 (spec/60_exceptions.md R181). -/
theorem num_eq_four_iff (code : RejectCode) : code.num = 4#4 ↔ code = .hdrChecksum := by
  cases code <;> decide

/-- Only `FRAME_CHECKSUM` has code 7 (spec/60_exceptions.md R181). -/
theorem num_eq_seven_iff (code : RejectCode) : code.num = 7#4 ↔ code = .frameChecksum := by
  cases code <;> decide

/-- A reject reason has a code from 1 to 8 (spec/60_exceptions.md R181). -/
theorem num_range (code : RejectCode) : code.num ≠ 0#4 ∧ code.num.toNat ≤ 8 := by
  cases code <;> decide

/-- `LAST_CODE` and `CAND_SEEN` record the event of an evaluation (spec/10_state.md R22, R23, R30). -/
theorem EvaluationEnd.status {s t : State} (h : EvaluationEnd s t) :
    t.candSeen = true ∧ t.lastCode.num = t.out.event.code ∧ (t.out.event.ok = true ↔ t.lastCode.num = 0#4) ∧
      t.lastCode.num.toNat ≤ 8 := by
  rcases h.reject_or_accept with ⟨code, diag, rfl⟩ | ⟨hdr, d, -, rfl⟩
  · obtain ⟨hne, hle⟩ := num_range code
    simpa [ResultCode.num, Event.code, Event.ok, hne] using hle
  · exact ⟨rfl, rfl, ⟨fun _ => rfl, fun _ => rfl⟩, Nat.zero_le _⟩

/-- The diagnostic registers change for codes 4 and 7 only (spec/10_state.md R27 to R29). -/
theorem EvaluationEnd.diag_unchanged {s t : State} (h : EvaluationEnd s t) (h4 : t.lastCode.num ≠ 4#4)
    (h7 : t.lastCode.num ≠ 7#4) :
    t.diagExp = s.diagExp ∧ t.diagAct = s.diagAct ∧ t.diagKind = s.diagKind ∧ t.diagIdx = s.diagIdx := by
  cases h with
  | rejected code _ _ ht => simp [ht]
  | badHeader hdr _ _ ht => exact absurd (ht ▸ rfl) h4
  | badFrame hdr payload i _ ht => exact absurd (ht ▸ rfl) h7
  | accepted hdr d _ ht => simp [ht]

/-- Code 4 records the header's computed and stored checksum, which differ (spec/42_header_validator.md R124). -/
theorem EvaluationEnd.diag_header {s t : State} (h : EvaluationEnd s t) (h4 : t.lastCode.num = 4#4) :
    ∃ hdr, s.fetchHeader = some hdr ∧ t.diagExp = cksum hdr.covered ∧ t.diagAct = hdr.hck ∧
      t.diagAct.toNat ≠ t.diagExp.toNat ∧ t.diagKind.bit = 0#1 ∧ t.diagIdx = 0#8 := by
  cases h with
  | rejected code hne _ ht =>
    rw [ht, takeReject_lastCode] at h4
    exact absurd ((num_eq_four_iff code).mp h4) hne
  | badHeader hdr hh hk ht =>
    have hne : hdr.hck.toNat ≠ (cksum hdr.covered).toNat := mt (eq_lowByte_iff _ _).mpr hk
    subst ht
    exact ⟨hdr, hh, rfl, rfl, hne, rfl, rfl⟩
  | badFrame hdr payload i _ ht =>
    rw [ht] at h4
    cases h4
  | accepted hdr d _ ht =>
    rw [ht] at h4
    cases h4

/-- The checksum byte of a wire frame is the payload's (spec/43_payload_decoder.md R140). -/
theorem wireFrame_getD_five (payload : List Byte) (i : Nat) :
    (wireFrame payload i).getD 5 0#8 = payload.getD (6 * i + 5) 0#8 := by
  simp [wireFrame, List.getD_eq_getElem?_getD, List.getElem?_drop]

/-- The covered bytes of a wire frame are the payload's (spec/43_payload_decoder.md R140). -/
theorem wireFrame_take_five (payload : List Byte) (i : Nat) :
    (wireFrame payload i).take 5 = (payload.drop (6 * i)).take 5 := by
  rw [wireFrame, List.take_take]
  rfl

/-- A wire frame's checksum is right exactly when `FRAMECK` passes it (spec/43_payload_decoder.md R142). -/
theorem frameRight_iff (payload : List Byte) (i : Nat) :
    FrameRight payload i ↔ frameOk (wireFrame payload i) = true := by
  rw [FrameRight, frameOk, beq_iff_eq, eq_lowByte_iff, wireFrame_getD_five, wireFrame_take_five]

/-- Code 7 records the computed and the stored checksum of the lowest wire frame that is not right, and its index
(spec/43_payload_decoder.md R142). -/
theorem EvaluationEnd.diag_frame {s t : State} (h : EvaluationEnd s t) (h7 : t.lastCode.num = 7#4) :
    ∃ hdr payload, s.fetchHeader = some hdr ∧ s.fetchPayload hdr.n = some payload ∧
      t.diagIdx.toNat < hdr.n.toNat ∧ ¬FrameRight payload t.diagIdx.toNat ∧
      (∀ j, j < t.diagIdx.toNat → FrameRight payload j) ∧
      t.diagExp = cksum ((payload.drop (6 * t.diagIdx.toNat)).take 5) ∧
      t.diagAct = payload.getD (6 * t.diagIdx.toNat + 5) 0#8 ∧ t.diagAct.toNat < 0x80 ∧ t.diagKind.bit = 1#1 := by
  cases h with
  | rejected code _ hne ht =>
    rw [ht, takeReject_lastCode] at h7
    exact absurd ((num_eq_seven_iff code).mp h7) hne
  | badHeader hdr _ _ ht =>
    rw [ht] at h7
    cases h7
  | badFrame hdr payload i hf ht =>
    have hidx : t.diagIdx.toNat = i := by
      have hi := hf.index
      have hn := hdr.n.isLt
      rw [ht, takeReject_diagIdx]
      exact Nat.mod_eq_of_lt (by omega)
    have hexp : t.diagExp = cksum ((wireFrame payload i).take 5) := ht ▸ rfl
    have hact : t.diagAct = (wireFrame payload i).getD 5 0#8 := ht ▸ rfl
    have hkind : t.diagKind.bit = 1#1 := ht ▸ rfl
    have hbad : ¬FrameRight payload i := by
      rw [frameRight_iff, hf.bad]
      decide
    rw [hidx]
    exact ⟨hdr, payload, hf.header, hf.operand, hf.index, hbad, fun j hj => (frameRight_iff _ _).mpr (hf.lowest j hj),
      wireFrame_take_five payload i ▸ hexp, wireFrame_getD_five payload i ▸ hact,
      hact ▸ wireFrame_getD_lt hf.low i 5, hkind⟩
  | accepted hdr d _ ht =>
    rw [ht] at h7
    cases h7

/-- Settles O40: a quiet step writes none of these registers, and an evaluation writes them by its code. -/
theorem statusRegistersRecordTheEvent : Obligations.StatusRegistersRecordTheEvent := by
  intro s t h hr
  rcases step_outOfReset h hr with hq | ⟨-, he⟩
  · refine ⟨fun _ => ?_, fun hv => ?_⟩
    · rw [hq.frame]
      exact ⟨rfl, rfl, rfl, rfl, rfl, rfl, rfl, rfl, rfl⟩
    · rw [hq.out_eq] at hv
      cases hv
  · refine ⟨fun hv => (by cases hv.symm.trans he.event_valid), fun _ => ?_⟩
    obtain ⟨hseen, hcode, hok, hle⟩ := he.status
    exact ⟨hseen, hcode, hok, hle, he.diag_unchanged, he.diag_header, he.diag_frame⟩

/-! ### The closing delimiter and `DecodeCandidate` (spec/44_field_mapper.md R168) -/

/-- Where `DecodeCandidate` stops: in the header validator, in the payload decoder, at the range check, or at the end. -/
theorem decodeCandidate_cases (cfg : Config) (c : Candidate) :
    (∃ r, headerValidate cfg c = .error r ∧ decodeCandidate cfg c = .error r) ∨
    (∃ payload, headerValidate cfg c = .ok payload ∧
      ((∃ r, payloadDecode (c.byte 7).toNat payload = .error r ∧ decodeCandidate cfg c = .error r) ∨
       (∃ d, payloadDecode (c.byte 7).toNat payload = .ok d ∧
        ((d.length < reqBytes cfg.ft ∧ decodeCandidate cfg c = .error ⟨.fieldRange, none⟩) ∨
         (reqBytes cfg.ft ≤ d.length ∧ decodeCandidate cfg c = .ok ⟨c.header, d, cfg.ft.map (slotValue d)⟩))))) := by
  cases hval : headerValidate cfg c with
  | error r => exact .inl ⟨r, rfl, by rw [decodeCandidate, hval]⟩
  | ok payload =>
    refine .inr ⟨payload, rfl, ?_⟩
    cases hdec : payloadDecode (c.byte 7).toNat payload with
    | error r => exact .inl ⟨r, rfl, by simp only [decodeCandidate, hval, hdec]⟩
    | ok d =>
      refine .inr ⟨d, rfl, ?_⟩
      by_cases hr : d.length < reqBytes cfg.ft
      · exact .inl ⟨hr, by simp only [decodeCandidate, hval, hdec, if_pos hr]⟩
      · exact .inr ⟨Nat.not_lt.mp hr, by simp only [decodeCandidate, hval, hdec, if_neg hr]⟩

/-- A rejection of the header validator has a code of 5 or less, and code 4 comes with its diagnostics
(spec/60_exceptions.md R181). -/
theorem headerValidate_error {cfg : Config} {c : Candidate} {r : Rejection} (h : headerValidate cfg c = .error r) :
    r.code.headerPassed = false ∧ (r.code = .hdrChecksum → r.diag.isSome = true) := by
  unfold headerValidate at h
  split at h
  · cases h
    exact ⟨rfl, fun e => by cases e⟩
  split at h
  · cases h
    exact ⟨rfl, fun e => by cases e⟩
  split at h
  · cases h
    exact ⟨rfl, fun e => by cases e⟩
  split at h
  · cases h
    exact ⟨rfl, fun _ => rfl⟩
  split at h
  · cases h
    exact ⟨rfl, fun e => by cases e⟩
  · cases h

/-- A rejection in the header validator is the candidate's. -/
theorem decodeCandidate_of_headerError {cfg : Config} {c : Candidate} {r : Rejection}
    (h : headerValidate cfg c = .error r) : decodeCandidate cfg c = .error r := by
  rw [decodeCandidate, h]

/-- The part of an evaluation behind an accepted header does what `DecodeCandidate` says behind `HeaderValidate`. -/
theorem bodyOp_closing {s : State} {c : Candidate} (ha : AtClosing s c) (w : Work)
    (hl : s.len = 9 + 6 * (c.byte 7).toNat)
    (hval : headerValidate s.cfg c = .ok ((c.bytes.drop 9).take (6 * (c.byte 7).toNat))) :
    (bodyOp c.header { s with work := w }).outcome = .next (applyResult (decodeCandidate s.cfg c) s) := by
  obtain ⟨hp, hplen⟩ := fetchPayload_closing ha (c.byte 7) hl
  rw [bodyOp_spec _ c.header _ { s with work := w } (descriptorWf_of_mem (s := s) ha.config) hp hplen]
  rcases decodeCandidate_cases s.cfg c with ⟨r, hr, -⟩ | ⟨payload, hok, hcase⟩
  · cases hval.symm.trans hr
  obtain rfl := Except.ok.inj (hval.symm.trans hok)
  rcases hcase with ⟨r, hr, e⟩ | ⟨d, hd, ⟨hlt, e⟩ | ⟨hle, e⟩⟩
  · rw [hr, e]
    exact congrArg Host.Outcome.next (takeReject_ignores_work _ _ w s)
  · rw [hd, e]
    dsimp only
    rw [if_pos hlt]
    exact congrArg Host.Outcome.next (takeReject_ignores_work _ _ w s)
  · rw [hd, e]
    dsimp only
    rw [if_neg (Nat.not_lt.mpr hle)]
    rfl

/-- The checks of an evaluation from `HV3` on do what `DecodeCandidate` says of a candidate with the right version and a
whole header (spec/42_header_validator.md R126). -/
theorem headerOp_closing {s : State} {c : Candidate} (ha : AtClosing s c) (hv : c.byte 4 = s.cfg.version)
    (h9 : 9 ≤ s.len) : (headerOp c.header s).outcome = .next (applyResult (decodeCandidate s.cfg c) s) := by
  have hlen : c.len = s.len := (candidate_bytes ha.candidate).1
  have hcov : c.header.covered = c.bytes.take 8 := (fetchHeader_closing ha h9).2
  have hval : headerValidate s.cfg c =
      if c.header.cmd ≠ s.cfg.command then .error ⟨.badCommand, none⟩
      else if c.header.hck ≠ lowByte (cksum c.header.covered) then
        .error ⟨.hdrChecksum, some ⟨cksum c.header.covered, c.header.hck, .header, 0#8⟩⟩
      else if s.len ≠ 9 + 6 * c.header.n.toNat then .error ⟨.length, none⟩
      else .ok ((c.bytes.drop 9).take (6 * c.header.n.toNat)) := by
    rw [headerValidate, if_neg (not_not.mpr hv), if_neg (by omega), hlen, hcov]
    rfl
  unfold headerOp
  rcases hv3Op_cases c.header s with ⟨h3, e⟩ | ⟨h3, e⟩ <;> rw [e]
  swap
  · rw [if_pos h3] at hval
    rw [decodeCandidate_of_headerError hval]
    rfl
  rw [if_neg (not_not.mpr h3)] at hval
  rcases hv4Op_cases c.header s with ⟨h4, e⟩ | ⟨h4, e⟩ <;> rw [Progress.goOn_andThen, e]
  swap
  · rw [if_pos h4] at hval
    rw [decodeCandidate_of_headerError hval]
    exact congrArg Host.Outcome.next (takeReject_ignores_work _ _ _ s)
  rw [if_neg (not_not.mpr h4)] at hval
  rcases hv5Op_cases c.header (cksumOp c.header.covered s) with ⟨h5, e⟩ | ⟨h5, e⟩ <;> rw [Progress.goOn_andThen, e]
  swap
  · rw [cksumOp_len] at h5
    rw [if_pos h5] at hval
    rw [decodeCandidate_of_headerError hval]
    exact congrArg Host.Outcome.next (takeReject_ignores_work _ _ _ s)
  rw [cksumOp_len] at h5
  rw [if_neg (not_not.mpr h5)] at hval
  exact bodyOp_closing ha _ h5 hval

/-- The evaluation of a candidate does what `DecodeCandidate` says of it (spec/44_field_mapper.md R168). -/
theorem candidateOp_closing {s : State} {c : Candidate} (ha : AtClosing s c) :
    (candidateOp s).outcome = .next (applyResult (decodeCandidate s.cfg c) s) := by
  obtain ⟨hd, hhd, hver, -⟩ := fetchHead_closing ha
  have hlen : c.len = s.len := (candidate_bytes ha.candidate).1
  rw [candidateOp, hhd]
  dsimp only
  rcases hv1Op_cases hd s with ⟨hv, e⟩ | ⟨hv, e⟩ <;> rw [hver] at hv <;> rw [e]
  swap
  · have hval : headerValidate s.cfg c = .error ⟨.badVersion, none⟩ := by rw [headerValidate, if_pos hv]
    rw [decodeCandidate_of_headerError hval]
    rfl
  rcases hv2Op_cases hd s with ⟨h9, e⟩ | ⟨h9, e⟩ <;> rw [Progress.goOn_andThen, e]
  swap
  · have hval : headerValidate s.cfg c = .error ⟨.incomplete, none⟩ := by
      rw [headerValidate, if_neg (not_not.mpr hv), if_pos (hlen ▸ h9)]
    rw [decodeCandidate_of_headerError hval]
    rfl
  rw [Progress.goOn_andThen, (fetchHeader_closing ha h9).1]
  exact headerOp_closing ha hv h9

/-- A closing delimiter makes the writes of `DecodeCandidate`'s result (spec/41_frame_sync.md R106). -/
theorem exec_sync_closing {s : State} {c : Candidate} (ha : AtClosing s c) :
    exec .sync s = .next (applyResult (decodeCandidate s.cfg c) s) :=
  (execSync_candidate ha.config ha.collecting ha.long).trans (candidateOp_closing ha)

/-! ### `hdr_ok` -/

/-- A rejection by the payload decoder comes behind an accepted header (spec/60_exceptions.md R181). -/
theorem payloadDecode_error_headerPassed {n : Nat} {payload : List Byte} {r : Rejection}
    (h : payloadDecode n payload = .error r) : r.code.headerPassed = true := by
  rcases payloadDecode_error (code := r.code) (diag := r.diag) h with ⟨hc, -⟩ | ⟨hc, -⟩
  · rw [hc]
    rfl
  · rw [hc]
    rfl

/-- `hdr_ok` at a closing delimiter is `HeaderOk` (spec/10_state.md R31). -/
theorem hdrOk_applyResult {cfg : Config} {c : Candidate} (h5 : 5 ≤ c.len) (s : State) :
    (applyResult (decodeCandidate cfg c) s).out.hdrOk = headerOk cfg c := by
  have hmin : decide (minSeg ≤ c.len) = true := decide_eq_true h5
  rcases decodeCandidate_cases cfg c with ⟨r, hval, e⟩ | ⟨payload, hval, hcase⟩
  · rw [e, headerOk, hval, applyResult, takeReject_out, (headerValidate_error hval).1]
    exact (Bool.and_false _).symm
  · have hok : headerOk cfg c = true := by
      rw [headerOk, hval, hmin]
      rfl
    rw [hok]
    rcases hcase with ⟨r, hr, e⟩ | ⟨d, -, ⟨-, e⟩ | ⟨-, e⟩⟩
    · rw [e, applyResult, takeReject_out, payloadDecode_error_headerPassed hr]
    · rw [e]
      rfl
    · rw [e]
      rfl

/-- The codes behind an accepted header are 6 to 8 (spec/60_exceptions.md R181). -/
theorem headerPassed_iff (code : RejectCode) : code.headerPassed = true ↔ 6 ≤ code.num.toNat := by
  cases code <;> decide

/-- The outputs of an evaluation agree: `hdr_ok` is 1 on `ACCEPT` and on a reject with code 6 or more. -/
theorem hdrOk_iff_event (r : Except Rejection Acceptance) (s : State) :
    (applyResult r s).out.hdrOk = true ↔
      (applyResult r s).out.event = .accept ∨ ∃ code, (applyResult r s).out.event = .reject code ∧ 6 ≤ code.num.toNat := by
  cases r with
  | error r => simp [applyResult, headerPassed_iff]
  | ok a => exact ⟨fun _ => .inl rfl, fun _ => rfl⟩

/-- Settles O22: at a closing delimiter by `DecodeCandidate`'s result, in every other step by its outputs. -/
theorem hdrOkIsHeaderOk : Obligations.HdrOkIsHeaderOk := by
  refine ⟨fun s c ha => ?_, fun s t h hev => ?_, fun cfg c hl => ?_⟩
  · have h5 : 5 ≤ c.len := (candidate_bytes ha.candidate).1 ▸ ha.long
    exact ⟨_, exec_sync_closing ha, hdrOk_applyResult h5 s, hdrOk_iff_event _ s⟩
  · cases hr : s.presented.rst with
    | true => exact step_reset h hr ▸ rfl
    | false =>
      rcases step_outOfReset h hr with hq | ⟨-, he⟩
      · rw [hq.out_eq]
      · have hv := he.event_valid
        rw [hev] at hv
        cases hv
  · rw [headerOk, decide_eq_false (Nat.not_le.mpr hl), Bool.false_and]

/-! ### An evaluation sees the candidate only -/

/-- An accepted candidate has four decoded bytes for each wire frame (spec/43_payload_decoder.md R144). -/
theorem decodeCandidate_ok_length {cfg : Config} {c : Candidate} {a : Acceptance}
    (h : decodeCandidate cfg c = .ok a) : a.d.length = 4 * a.header.n.toNat := by
  rcases decodeCandidate_cases cfg c with ⟨r, -, e⟩ | ⟨payload, -, ⟨r, -, e⟩ | ⟨d, hd, ⟨-, e⟩ | ⟨-, e⟩⟩⟩
  · cases h.symm.trans e
  · cases h.symm.trans e
  · cases h.symm.trans e
  · obtain rfl := Except.ok.inj (h.symm.trans e)
    exact payloadDecode_length _ _ _ hd

/-- Codes 4 and 7 come with diagnostics (spec/60_exceptions.md R181). -/
theorem decodeCandidate_error_diag {cfg : Config} {c : Candidate} {r : Rejection} (h : decodeCandidate cfg c = .error r)
    (hc : r.code = .hdrChecksum ∨ r.code = .frameChecksum) : ∃ d, r.diag = some d := by
  rcases decodeCandidate_cases cfg c with ⟨r', hval, e⟩ | ⟨payload, -, ⟨r', hr, e⟩ | ⟨d, -, ⟨-, e⟩ | ⟨-, e⟩⟩⟩
  · obtain rfl := Except.error.inj (h.symm.trans e)
    obtain ⟨hlow, hdiag⟩ := headerValidate_error hval
    rcases hc with hc | hc
    · exact Option.isSome_iff_exists.mp (hdiag hc)
    · rw [hc] at hlow
      cases hlow
  · obtain rfl := Except.error.inj (h.symm.trans e)
    rcases payloadDecode_error (code := r.code) (diag := r.diag) hr with ⟨hb, -⟩ | ⟨-, -, i, -, -, -, hd⟩
    · rw [hb] at hc
      rcases hc with hc | hc <;> cases hc
    · exact ⟨_, hd⟩
  · obtain rfl := Except.error.inj (h.symm.trans e)
    rcases hc with hc | hc <;> cases hc
  · cases h.symm.trans e

/-- Settles O38: both evaluations make the writes of one result of `DecodeCandidate`, and what they write is the
result's. -/
theorem evaluationSeesTheCandidateOnly : Obligations.EvaluationSeesTheCandidateOnly := by
  intro s s' c ha ha' _ hcfg
  refine ⟨_, _, exec_sync_closing ha, exec_sync_closing ha', ?_⟩
  rw [← hcfg]
  cases hres : decodeCandidate s.cfg c with
  | error r =>
    simp only [applyResult, takeReject_out, takeReject_lastCode, takeReject_diagExp, takeReject_diagAct,
      takeReject_diagKind, takeReject_diagIdx, Event.reject.injEq]
    refine ⟨trivial, trivial, fun hev => (by cases hev), fun hev => ?_⟩
    obtain ⟨d, hd⟩ := decodeCandidate_error_diag hres hev
    rw [hd]
    exact ⟨rfl, rfl, rfl, rfl⟩
  | ok a =>
    refine ⟨rfl, rfl, fun _ => ⟨rfl, rfl, rfl, rfl, rfl, rfl, rfl, rfl, fun i hi => ?_⟩, fun hev => ?_⟩
    · rw [applyResult, takeAccept_resDbLen_toNat, ← decodeCandidate_ok_length hres] at hi
      exact (read_takeAccept_resDb _ _ s hi).trans (read_takeAccept_resDb _ _ s' hi).symm
    · rcases hev with hev | hev <;> cases hev

end Sys2Proof.Proofs
end

section
/-!
PROOFS. spec/20_memory.md: the header read from the record buffer, against the bytes that stand there.
-/
namespace Sys2Proof.Proofs
open Sys2Proof.Machine

/-- The header is parsed from a read of the first nine bytes of the record buffer (R51). -/
theorem fetchHeader_eq_some {s : State} {h : Header} :
    s.fetchHeader = some h ↔ ∃ bytes, s.rbRange 0 hdrLen = some bytes ∧ parseHeader bytes = .ok h := by
  unfold State.fetchHeader
  cases s.rbRange 0 hdrLen with
  | none => simp
  | some bytes => cases hp : parseHeader bytes <;> simp [hp, Except.toOption]

/-- What a read of the record buffer answers are the bytes that stand at its indices (R45). -/
theorem read_of_rbRange {s : State} {a n i : Nat} {bytes : List Byte} (h : s.rbRange a n = some bytes) (hi : i < n) :
    Memory.read s.rb (a + i) = some (bytes.getD i 0#8) := by
  obtain ⟨-, hr⟩ := State.rbRange_eq_some.mp h
  obtain ⟨hlen, hread⟩ := Memory.readRange_eq_some.mp hr
  have hib : i < bytes.length := hlen ▸ hi
  rw [hread i hi, List.getElem?_eq_getElem hib, List.getD_eq_getElem bytes 0#8 hib]

/-- Settles O51: the nine bytes are those of the read, which the header is parsed from; a two-byte quantity joins its
bytes with the lower index as the less significant one. -/
theorem headerQuantitiesAreLittleEndian : Obligations.HeaderQuantitiesAreLittleEndian := by
  intro s h hf
  obtain ⟨bytes, hrange, hp⟩ := fetchHeader_eq_some.mp hf
  have hread : ∀ i, i < 9 → Memory.read s.rb i = some (bytes.getD i 0#8) := fun i hi => by
    simpa only [Nat.zero_add] using read_of_rbRange hrange hi
  obtain ⟨b0, b1, b2, b3, v, b5, b6, n, k, rfl, rfl⟩ := parseHeader_ok hp
  exact ⟨fun i => [b0, b1, b2, b3, v, b5, b6, n, k].getD i 0#8, hread, joinBytes_toNat b0 b1, joinBytes_toNat b2 b3, rfl,
    joinBytes_toNat b5 b6, rfl, rfl⟩

end Sys2Proof.Proofs
end

section
/-!
PROOFS. spec/30_encoding.md: the decoder against the encoder, and the operations that a closing delimiter runs against
their own meanings.
-/
namespace Sys2Proof.Proofs
open Sys2Proof.Machine

/-! ### Bits of a word as arithmetic -/

/-- A bit of a word by its weight. -/
theorem getLsbD_eq_true_iff {n : Nat} (w : BitVec n) (k : Nat) : w.getLsbD k = true ↔ w.toNat / 2 ^ k % 2 = 1 := by
  rw [← BitVec.testBit_toNat, Nat.testBit_eq_decide_div_mod_eq, decide_eq_true_iff]

/-- A run of bits of a word by its weight. -/
theorem extractLsb'_toNat_eq {n : Nat} (w : BitVec n) (k m : Nat) :
    (w.extractLsb' k m).toNat = w.toNat / 2 ^ k % 2 ^ m := by
  rw [BitVec.extractLsb'_toNat, Nat.shiftRight_eq_div_pow]

/-- A septet as a byte, spelled as the statements spell it. -/
theorem lowByte_eq_setWidth (d : Septet) : lowByte d = d.setWidth 8 := by
  apply BitVec.eq_of_toNat_eq
  have := septet_lt d
  rw [lowByte_toNat, BitVec.toNat_setWidth, Nat.mod_eq_of_lt (by omega)]

/-! ### Format B: the classes of an input byte (R61) -/

/-- The class and its data bits give the byte back. -/
theorem encode_decodeByte (b : Byte) : encode (decodeByte b) = [b] := by
  unfold decodeByte
  split
  case isTrue hb => exact hb ▸ rfl
  case isFalse =>
    split
    case isTrue h7 => exact congrArg (fun x => [x]) (highByte_septetOf h7)
    case isFalse h7 => exact congrArg (fun x => [x]) (lowByte_septetOf (Bool.eq_false_iff.mpr h7))

/-- A byte below 0x80 is a `SEPTET`. -/
theorem decodeByte_lowByte (d : Septet) : decodeByte (lowByte d) = .septet d := by
  have hne : lowByte d ≠ delim := fun h => by
    have h7 : delim.getLsbD 7 = false := h ▸ bit7_lowByte d
    cases h7
  rw [decodeByte, if_neg hne, if_neg (by rw [bit7_lowByte]; decide), septetOf_lowByte]

/-- A byte of 0x80 or more that is no delimiter is a `HIGH`. -/
theorem decodeByte_highByte {x : Septet} (hx : x ≠ 0x2A#7) : decodeByte (highByte x) = .high x := by
  have hne : highByte x ≠ delim := fun h => hx (by rw [← septetOf_highByte x, h]; rfl)
  rw [decodeByte, if_neg hne, if_pos (bit7_highByte x), septetOf_highByte]

/-- Every class stands at the stream level. -/
theorem levelOf_decodeByte (b : Byte) : levelOf (decodeByte b) = .stream := by
  unfold decodeByte
  split
  case isTrue => rfl
  case isFalse => split <;> rfl

/-! ### Format H: the header of a candidate (R63, R64) -/

/-- No delimiter in a header quantity, byte by byte. -/
theorem noDelim16_iff (v : Half) : noDelim16 v = true ↔ loByte v ≠ delim ∧ hiByte v ≠ delim := by
  rw [noDelim16, Bool.and_eq_true, bne_iff_ne, bne_iff_ne]
  rfl

/-- A head is well-formed when it is no longer than a header and holds no delimiter (R62). -/
theorem headerHead_wf_iff {h : HeaderHead} : h.wf = true ↔ h.tail.length ≤ 4 ∧ delim ∉ h.bytes := by
  simp only [HeaderHead.wf, HeaderHead.bytes, Bool.and_eq_true, noDelim16_iff, bne_iff_ne, decide_eq_true_eq,
    List.all_eq_true, List.mem_append, List.mem_cons, List.not_mem_nil, or_false, not_or, ne_comm (b := delim)]
  rw [← List.forall_mem_ne]
  tauto

/-- A header is well-formed when it holds no delimiter (R62). -/
theorem header_wf_iff {h : Header} : h.wf = true ↔ delim ∉ h.bytes := by
  simp only [Header.wf, Header.bytes, Header.covered, Bool.and_eq_true, noDelim16_iff, bne_iff_ne, List.mem_append,
    List.mem_cons, List.not_mem_nil, or_false, not_or, ne_comm (b := delim)]
  tauto

/-- A parsed head is the head with those bytes. -/
theorem parseHead_eq_ok {bytes : List Byte} {h : HeaderHead} :
    parseHead bytes = .ok h ↔ h.tail.length ≤ 4 ∧ h.bytes = bytes := by
  constructor
  · intro hp
    obtain ⟨b0, b1, b2, b3, v, tail, rfl, hl, rfl⟩ := parseHead_ok hp
    exact ⟨hl, by simp [HeaderHead.bytes]⟩
  · rintro ⟨hl, rfl⟩
    simp [HeaderHead.bytes, parseHead, hl]

/-- A parsed header is the header with those bytes. -/
theorem parseHeader_eq_ok {bytes : List Byte} {h : Header} : parseHeader bytes = .ok h ↔ h.bytes = bytes := by
  constructor
  · intro hp
    obtain ⟨b0, b1, b2, b3, v, b5, b6, n, k, rfl, rfl⟩ := parseHeader_ok hp
    simp [Header.bytes, Header.covered]
  · rintro rfl
    simp [Header.bytes, Header.covered, parseHeader]

/-- The head of a header has the header's bytes. -/
theorem header_head_bytes (h : Header) : h.head.bytes = h.bytes := rfl

/-- A whole header parses as a head, too. -/
theorem parseHead_headerBytes (h : Header) : parseHead h.bytes = .ok h.head :=
  parseHead_eq_ok.mpr ⟨Nat.le_refl 4, header_head_bytes h⟩

/-- The guard of R62 passes the bytes that hold no delimiter. -/
theorem guardDelim_eq_ok {α : Type} {bytes : List Byte} {r : Except DecodeError α} {a : α} :
    guardDelim bytes r = .ok a ↔ delim ∉ bytes ∧ r = .ok a := by
  unfold guardDelim
  split <;> simp_all

/-- What is read through a map was read before it. -/
theorem map_eq_ok {α β : Type} {f : α → β} {r : Except DecodeError α} {b : β} :
    r.map f = .ok b ↔ ∃ a, r = .ok a ∧ f a = b := by
  cases r <;> simp [Except.map]

/-- Which record a header selects (R65). -/
theorem decodeRecord_eq_ok {c : Config} {bytes : List Byte} {i : Instr} :
    decodeRecord c bytes = .ok i ↔
      (∃ hd, parseHead bytes = .ok hd ∧ hd.ver ≠ c.version ∧ i = .otherver hd) ∨
      (∃ h, parseHeader bytes = .ok h ∧ h.ver = c.version ∧
        i = if h.cmd = c.command then .push h else .othercmd h) := by
  constructor
  · intro hi
    unfold decodeRecord at hi
    split at hi
    case h_1 => cases hi
    case h_2 hd hp =>
      split at hi
      case isTrue hv => exact .inl ⟨hd, hp, hv, (Except.ok.inj hi).symm⟩
      case isFalse hv =>
        split at hi
        case h_1 => cases hi
        case h_2 h hh =>
          obtain rfl : hd = h.head :=
            Except.ok.inj (hp.symm.trans (parseHeader_eq_ok.mp hh ▸ parseHead_headerBytes h))
          exact .inr ⟨h, hh, not_not.mp hv, (Except.ok.inj hi).symm⟩
  · rintro (⟨hd, hp, hv, rfl⟩ | ⟨h, hp, hv, rfl⟩)
    · rw [decodeRecord, hp]
      exact if_pos hv
    · have hp' : parseHead bytes = .ok h.head := parseHeader_eq_ok.mp hp ▸ parseHead_headerBytes h
      rw [decodeRecord, hp', hp]
      exact if_neg (not_not.mpr hv)

/-! ### Format W: a wire frame (R66) -/

/-- The mask byte splits into the spare bits and the mask. -/
theorem extractLsb'_maskByte (spare : BitVec 3) (mask : BitVec 4) :
    (lowByte (spare ++ mask)).extractLsb' 4 3 = spare ∧ (lowByte (spare ++ mask)).extractLsb' 0 4 = mask := by
  have hn : (lowByte (spare ++ mask)).toNat = mask.toNat + 2 ^ 4 * spare.toNat :=
    (lowByte_toNat _).trans (toNat_append_eq spare mask)
  have := spare.isLt
  have := mask.isLt
  constructor <;>
  · apply BitVec.eq_of_toNat_eq
    rw [extractLsb'_toNat_eq, hn]
    omega

/-- A parsed wire frame is the frame with those bytes; in particular each of them is below 0x80 (R84). -/
theorem parseFrame_eq_ok {bytes : List Byte} {w : Frame} : parseFrame bytes = .ok w ↔ w.bytes = bytes := by
  constructor
  · intro hp
    unfold parseFrame at hp
    split at hp
    case h_1 b0 b1 b2 b3 m k =>
      split at hp
      case isTrue => cases hp
      case isFalse hlow =>
        obtain rfl := Except.ok.inj hp
        simp only [List.any_cons, List.any_nil, Bool.or_false, Bool.or_eq_true, not_or, Bool.not_eq_true] at hlow
        obtain ⟨h0, h1, h2, h3, hm, hk⟩ := hlow
        simp only [Frame.bytes, Frame.covered, lowByte_septetOf h0, lowByte_septetOf h1, lowByte_septetOf h2,
          lowByte_septetOf h3, lowByte_maskByte m hm, lowByte_septetOf hk, List.cons_append, List.nil_append]
    case h_2 => cases hp
  · rintro rfl
    obtain ⟨hspare, hmask⟩ := extractLsb'_maskByte w.spare w.mask
    have hlow : [lowByte w.d0, lowByte w.d1, lowByte w.d2, lowByte w.d3, lowByte (w.spare ++ w.mask),
        lowByte w.fck].any (·.getLsbD 7) = false := by
      simp only [List.any_cons, List.any_nil, bit7_lowByte, Bool.or_false]
    simp only [Frame.bytes, Frame.covered, List.cons_append, List.nil_append, parseFrame, hlow, hspare, hmask,
      septetOf_lowByte, Bool.false_eq_true, if_false]

/-! ### Format F: a field descriptor (R78, R80) -/

/-! #### Its fields as arithmetic -/

theorem descOffset_toNat (w : DescWord) : (descOffset w).toNat = w.toNat % 2 ^ 10 := by
  rw [descOffset, extractLsb'_toNat_eq, Nat.pow_zero, Nat.div_one]

theorem descLength_toNat (w : DescWord) : (descLength w).toNat = w.toNat / 2 ^ 10 % 2 ^ 3 := extractLsb'_toNat_eq w 10 3

theorem descFnum_toNat (w : DescWord) : (descFnum w).toNat = w.toNat / 2 ^ 16 % 2 ^ 16 := extractLsb'_toNat_eq w 16 16

theorem descFden_toNat (w : DescWord) : (descFden w).toNat = w.toNat / 2 ^ 32 % 2 ^ 16 := extractLsb'_toNat_eq w 32 16

theorem descSigned_iff (w : DescWord) : descSigned w = true ↔ w.toNat / 2 ^ 13 % 2 = 1 := getLsbD_eq_true_iff w 13

theorem descValid_iff (w : DescWord) : descValid w = true ↔ w.toNat / 2 ^ 15 % 2 = 1 := getLsbD_eq_true_iff w 15

theorem descFden_eq_zero_iff (w : DescWord) : descFden w = 0#16 ↔ w.toNat / 2 ^ 32 % 2 ^ 16 = 0 := by
  rw [← BitVec.toNat_inj, descFden_toNat]
  rfl

theorem descReservedClear_iff (w : DescWord) :
    descReservedClear w = true ↔ w.toNat / 2 ^ 14 % 2 = 0 ∧ w.toNat / 2 ^ 48 = 0 := by
  have hw := w.isLt
  rw [descReservedClear, Bool.and_eq_true, Bool.not_eq_true', Bool.eq_false_iff, ne_eq, getLsbD_eq_true_iff, beq_iff_eq,
    ← BitVec.toNat_inj, extractLsb'_toNat_eq, BitVec.toNat_zero]
  omega

/-- The 64 bits of an active descriptor as a number, its lowest field first (R78). -/
theorem fieldWord_toNat (signed : Bool) (f : Field) :
    (fieldWord signed f).toNat = f.offset.toNat + 2 ^ 10 * (f.length.toNat + 2 ^ 3 * (signed.toNat + 2 * (2 * (1 +
      2 * (f.fnum.toNat + 2 ^ 16 * f.fden.toNat))))) := by
  simp only [fieldWord, toNat_append_eq, BitVec.toNat_ofBool]
  simp only [BitVec.toNat_ofNat]
  omega

/-- The descriptor of a field holds its operands, is active, and keeps the reserved bits clear. -/
theorem desc_fieldWord (signed : Bool) (f : Field) :
    descField (fieldWord signed f) = f ∧ descSigned (fieldWord signed f) = signed ∧
      descValid (fieldWord signed f) = true ∧ descReservedClear (fieldWord signed f) = true := by
  have hn := fieldWord_toNat signed f
  have ho := f.offset.isLt
  have hl := f.length.isLt
  have hfn := f.fnum.isLt
  have hfd := f.fden.isLt
  have hs := signed.toNat_lt
  have hoffset : descOffset (fieldWord signed f) = f.offset :=
    BitVec.eq_of_toNat_eq (by rw [descOffset_toNat]; omega)
  have hlength : descLength (fieldWord signed f) = f.length :=
    BitVec.eq_of_toNat_eq (by rw [descLength_toNat]; omega)
  have hfnum : descFnum (fieldWord signed f) = f.fnum :=
    BitVec.eq_of_toNat_eq (by rw [descFnum_toNat]; omega)
  have hfden : descFden (fieldWord signed f) = f.fden :=
    BitVec.eq_of_toNat_eq (by rw [descFden_toNat]; omega)
  refine ⟨by rw [descField, hoffset, hlength, hfnum, hfden], ?_, ?_, ?_⟩
  · rw [Bool.eq_iff_iff, descSigned_iff, ← Bool.toNat_eq_one]
    omega
  · rw [descValid_iff]
    omega
  · rw [descReservedClear_iff]
    omega

/-- An active descriptor with clear reserved bits is the descriptor of its fields. -/
theorem fieldWord_desc {w : DescWord} (hv : descValid w = true) (hr : descReservedClear w = true) :
    fieldWord (descSigned w) (descField w) = w := by
  have hsigned : (descSigned w).toNat = w.toNat / 2 ^ 13 % 2 := by
    have h := descSigned_iff w
    rw [← Bool.toNat_eq_one] at h
    have := (descSigned w).toNat_lt
    omega
  rw [descValid_iff] at hv
  obtain ⟨h14, h48⟩ := (descReservedClear_iff w).mp hr
  apply BitVec.eq_of_toNat_eq
  rw [fieldWord_toNat, hsigned]
  simp only [descField, descOffset_toNat, descLength_toNat, descFnum_toNat, descFden_toNat]
  omega

/-- The operation of a field. -/
def fieldInstr (signed : Bool) (f : Field) : Instr := if signed then .fieldS f else .fieldU f

/-- The legal operands of a field (R80). -/
theorem field_wf_iff {p : Params} {f : Field} :
    f.wf p = true ↔ 1 ≤ f.length.toNat ∧ f.length.toNat ≤ p.maxFieldLen ∧ f.fden ≠ 0#16 := by
  rw [Field.wf, Bool.and_eq_true, Bool.and_eq_true, decide_eq_true_iff, decide_eq_true_iff, bne_iff_ne, and_assoc]

/-- A descriptor decodes exactly when it is active and legal (R80). -/
theorem decodeDescriptor_eq_ok {p : Params} {w : DescWord} {i : Instr} :
    decodeDescriptor p w = .ok i ↔ descValid w = true ∧ descReservedClear w = true ∧ (descField w).wf p = true ∧
      fieldInstr (descSigned w) (descField w) = i := by
  rw [field_wf_iff]
  constructor
  · intro h
    unfold decodeDescriptor at h
    split at h
    · cases h
    split at h
    · cases h
    split at h
    · cases h
    split at h
    · cases h
    case isFalse hv hr hl hz =>
      rw [not_or, Nat.not_lt, Nat.not_lt] at hl
      exact ⟨by simpa using hv, by simpa using hr, ⟨hl.1, hl.2, hz⟩, Except.ok.inj h⟩
  · rintro ⟨hv, hr, ⟨hpos, hmax, hz⟩, rfl⟩
    have hz' : descFden w ≠ 0#16 := hz
    have hl : ¬((descLength w).toNat < 1 ∨ p.maxFieldLen < (descLength w).toNat) :=
      not_or.mpr ⟨Nat.not_lt.mpr hpos, Nat.not_lt.mpr hmax⟩
    rw [decodeDescriptor, if_neg (by rw [hv]; decide), if_neg (by rw [hr]; decide), if_neg hl, if_neg hz']
    rfl

/-! #### The bytes of a descriptor (log 16) -/

/-- The number that eight bytes make, the first one the least significant. -/
theorem wordOfBytes_toNat (b0 b1 b2 b3 b4 b5 b6 b7 : Byte) :
    (wordOfBytes b0 b1 b2 b3 b4 b5 b6 b7).toNat = b0.toNat + 2 ^ 8 * (b1.toNat + 2 ^ 8 * (b2.toNat + 2 ^ 8 *
      (b3.toNat + 2 ^ 8 * (b4.toNat + 2 ^ 8 * (b5.toNat + 2 ^ 8 * (b6.toNat + 2 ^ 8 * b7.toNat)))))) := by
  simp only [wordOfBytes, toNat_append_eq]

/-- The bytes of the descriptor that eight bytes make are those bytes. -/
theorem wordBytes_wordOfBytes (b0 b1 b2 b3 b4 b5 b6 b7 : Byte) :
    wordBytes (wordOfBytes b0 b1 b2 b3 b4 b5 b6 b7) = [b0, b1, b2, b3, b4, b5, b6, b7] := by
  have hn := wordOfBytes_toNat b0 b1 b2 b3 b4 b5 b6 b7
  simp only [wordBytes, List.cons.injEq, and_true, ← BitVec.toNat_inj, extractLsb'_toNat_eq]
  omega

/-- A descriptor is made of its eight bytes. -/
theorem wordOfBytes_slices (w : DescWord) :
    wordOfBytes (w.extractLsb' 0 8) (w.extractLsb' 8 8) (w.extractLsb' 16 8) (w.extractLsb' 24 8)
      (w.extractLsb' 32 8) (w.extractLsb' 40 8) (w.extractLsb' 48 8) (w.extractLsb' 56 8) = w := by
  have hw := w.isLt
  apply BitVec.eq_of_toNat_eq
  simp only [wordOfBytes_toNat, extractLsb'_toNat_eq]
  omega

/-- What the descriptor level reads are the bytes of a descriptor. -/
theorem decode_descriptor_eq_ok {p : Params} {c : Config} {bytes : List Byte} {i : Instr} :
    decode p c .descriptor bytes = .ok i ↔ ∃ w, wordBytes w = bytes ∧ decodeDescriptor p w = .ok i := by
  constructor
  · intro h
    unfold decode at h
    split at h <;> cases ‹Level.descriptor = _›
    · exact ⟨_, wordBytes_wordOfBytes _ _ _ _ _ _ _ _, h⟩
    · cases h
  · rintro ⟨w, rfl, h⟩
    exact (congrArg (decodeDescriptor p) (wordOfBytes_slices w)).trans h

/-! ### Decoding and encoding are inverse -/

/-- A payload is at most 255 whole wire frames with no delimiter in them (R62, R68). -/
theorem payloadWf_iff {bytes : List Byte} :
    payloadWf bytes = true ↔ bytes.length % frameLen = 0 ∧ bytes.length ≤ frameLen * 255 ∧ delim ∉ bytes := by
  rw [payloadWf, Bool.and_eq_true, Bool.and_eq_true, decide_eq_true_iff, decide_eq_true_iff, List.all_eq_true,
    and_assoc]
  simp only [bne_iff_ne, ne_eq, List.forall_mem_ne']

/-- The stream level reads one byte (R61). -/
theorem decode_stream_eq_ok {p : Params} {c : Config} {bytes : List Byte} {i : Instr} :
    decode p c .stream bytes = .ok i ↔ ∃ b, bytes = [b] ∧ decodeByte b = i := by
  rcases bytes with _ | ⟨b, _ | ⟨b', rest⟩⟩ <;> simp [decode]

/-- The payload level reads whole wire frames (R68). -/
theorem decode_payload_eq_ok {p : Params} {c : Config} {bytes : List Byte} {i : Instr} :
    decode p c .payload bytes = .ok i ↔ payloadWf bytes = true ∧ i = .highscan bytes := by
  rw [decode, guardDelim_eq_ok, payloadWf_iff]
  constructor
  · rintro ⟨hm, h⟩
    split at h
    · cases h
    split at h
    · cases h
    case isFalse hmod hlen => exact ⟨⟨not_not.mp hmod, Nat.not_lt.mp hlen, hm⟩, (Except.ok.inj h).symm⟩
  · rintro ⟨⟨hmod, hlen, hm⟩, rfl⟩
    exact ⟨hm, by rw [if_neg (not_not.mpr hmod), if_neg (Nat.not_lt.mpr hlen)]⟩

/-- A level that reads the head of a candidate gives its operation every well-formed head (R62, R63). -/
theorem guardDelim_parseHead_eq_ok {bytes : List Byte} {f : HeaderHead → Instr} {i : Instr} :
    guardDelim bytes ((parseHead bytes).map f) = .ok i ↔
      ∃ hd : HeaderHead, hd.wf = true ∧ hd.bytes = bytes ∧ f hd = i := by
  simp only [guardDelim_eq_ok, map_eq_ok, parseHead_eq_ok, headerHead_wf_iff]
  constructor
  · rintro ⟨hm, hd, ⟨hl, rfl⟩, rfl⟩
    exact ⟨hd, ⟨hl, hm⟩, rfl, rfl⟩
  · rintro ⟨hd, ⟨hl, hm⟩, rfl, rfl⟩
    exact ⟨hm, hd, ⟨hl, rfl⟩, rfl⟩

/-- A level that reads a header gives its operation every well-formed header (R62, R63). -/
theorem guardDelim_parseHeader_eq_ok {bytes : List Byte} {f : Header → Instr} {i : Instr} :
    guardDelim bytes ((parseHeader bytes).map f) = .ok i ↔
      ∃ h : Header, h.wf = true ∧ h.bytes = bytes ∧ f h = i := by
  simp only [guardDelim_eq_ok, map_eq_ok, parseHeader_eq_ok, header_wf_iff]
  constructor
  · rintro ⟨hm, h, rfl, rfl⟩
    exact ⟨h, hm, rfl, rfl⟩
  · rintro ⟨h, hm, rfl, rfl⟩
    exact ⟨hm, h, rfl, rfl⟩

/-- Whatever decodes is well-formed, stands at its level, and encodes to the bytes it was read from. -/
theorem encode_of_decode {p : Params} {c : Config} {level : Level} {bytes : List Byte} {i : Instr}
    (h : decode p c level bytes = .ok i) : i.wf p c = true ∧ levelOf i = level ∧ encode i = bytes := by
  cases level with
  | stream =>
    obtain ⟨b, rfl, rfl⟩ := decode_stream_eq_ok.mp h
    exact ⟨decodeByte_wf p c b, levelOf_decodeByte b, encode_decodeByte b⟩
  | checksum =>
    obtain rfl := Except.ok.inj h
    exact ⟨rfl, rfl, rfl⟩
  | hv1 =>
    obtain ⟨hd, hw, rfl, rfl⟩ := guardDelim_parseHead_eq_ok.mp h
    exact ⟨hw, rfl, rfl⟩
  | hv2 =>
    obtain ⟨hd, hw, rfl, rfl⟩ := guardDelim_parseHead_eq_ok.mp h
    exact ⟨hw, rfl, rfl⟩
  | hv3 =>
    obtain ⟨hdr, hw, rfl, rfl⟩ := guardDelim_parseHeader_eq_ok.mp h
    exact ⟨hw, rfl, rfl⟩
  | hv4 =>
    obtain ⟨hdr, hw, rfl, rfl⟩ := guardDelim_parseHeader_eq_ok.mp h
    exact ⟨hw, rfl, rfl⟩
  | hv5 =>
    obtain ⟨hdr, hw, rfl, rfl⟩ := guardDelim_parseHeader_eq_ok.mp h
    exact ⟨hw, rfl, rfl⟩
  | record =>
    obtain ⟨hm, hr⟩ := guardDelim_eq_ok.mp h
    rcases decodeRecord_eq_ok.mp hr with ⟨hd, hp, hv, rfl⟩ | ⟨hdr, hp, hv, rfl⟩
    · obtain ⟨hl, rfl⟩ := parseHead_eq_ok.mp hp
      have hw : hd.wf = true := headerHead_wf_iff.mpr ⟨hl, hm⟩
      exact ⟨by simp [Instr.wf, hw, hv], rfl, rfl⟩
    · obtain rfl := parseHeader_eq_ok.mp hp
      have hw : hdr.wf = true := header_wf_iff.mpr hm
      split
      case isTrue hc => exact ⟨by simp [Instr.wf, hw, hv, hc], rfl, rfl⟩
      case isFalse hc => exact ⟨by simp [Instr.wf, hw, hv, hc], rfl, rfl⟩
  | payload =>
    obtain ⟨hw, rfl⟩ := decode_payload_eq_ok.mp h
    exact ⟨hw, rfl, rfl⟩
  | frameCheck =>
    obtain ⟨w, hp, rfl⟩ := map_eq_ok.mp h
    exact ⟨rfl, rfl, parseFrame_eq_ok.mp hp⟩
  | frameUnpack =>
    obtain ⟨w, hp, rfl⟩ := map_eq_ok.mp h
    exact ⟨rfl, rfl, parseFrame_eq_ok.mp hp⟩
  | descriptor =>
    obtain ⟨w, rfl, hd⟩ := decode_descriptor_eq_ok.mp h
    obtain ⟨hv, hr, hw, rfl⟩ := decodeDescriptor_eq_ok.mp hd
    have hword := fieldWord_desc hv hr
    unfold fieldInstr
    split
    case isTrue hs => exact ⟨hw, rfl, congrArg wordBytes (hs ▸ hword)⟩
    case isFalse hs => exact ⟨hw, rfl, congrArg wordBytes (Bool.eq_false_iff.mpr hs ▸ hword)⟩

/-- The descriptor of a well-formed field decodes to its operation (R78, R80). -/
theorem decode_fieldWord {p : Params} {f : Field} (c : Config) (signed : Bool) (hw : f.wf p = true) :
    decode p c .descriptor (wordBytes (fieldWord signed f)) = .ok (fieldInstr signed f) := by
  obtain ⟨hf, hs, hv, hr⟩ := desc_fieldWord signed f
  exact decode_descriptor_eq_ok.mpr ⟨_, rfl, decodeDescriptor_eq_ok.mpr ⟨hv, hr, by rwa [hf], by rw [hf, hs]⟩⟩

/-- The bytes of a well-formed operation decode to it. -/
theorem decode_of_encode {p : Params} {c : Config} {i : Instr} (hw : i.wf p c = true) :
    decode p c (levelOf i) (encode i) = .ok i := by
  cases i with
  | sync => rfl
  | septet d => exact decode_stream_eq_ok.mpr ⟨_, rfl, decodeByte_lowByte d⟩
  | high x => exact decode_stream_eq_ok.mpr ⟨_, rfl, decodeByte_highByte (bne_iff_ne.mp hw)⟩
  | cksum bytes => rfl
  | hv1 h => exact guardDelim_parseHead_eq_ok.mpr ⟨h, hw, rfl, rfl⟩
  | hv2 h => exact guardDelim_parseHead_eq_ok.mpr ⟨h, hw, rfl, rfl⟩
  | hv3 h => exact guardDelim_parseHeader_eq_ok.mpr ⟨h, hw, rfl, rfl⟩
  | hv4 h => exact guardDelim_parseHeader_eq_ok.mpr ⟨h, hw, rfl, rfl⟩
  | hv5 h => exact guardDelim_parseHeader_eq_ok.mpr ⟨h, hw, rfl, rfl⟩
  | push h =>
    simp only [Instr.wf, Bool.and_eq_true, beq_iff_eq] at hw
    obtain ⟨⟨hh, hv⟩, hc⟩ := hw
    exact guardDelim_eq_ok.mpr ⟨header_wf_iff.mp hh,
      decodeRecord_eq_ok.mpr (.inr ⟨h, parseHeader_eq_ok.mpr rfl, hv, (if_pos hc).symm⟩)⟩
  | othercmd h =>
    simp only [Instr.wf, Bool.and_eq_true, beq_iff_eq, bne_iff_ne] at hw
    obtain ⟨⟨hh, hv⟩, hc⟩ := hw
    exact guardDelim_eq_ok.mpr ⟨header_wf_iff.mp hh,
      decodeRecord_eq_ok.mpr (.inr ⟨h, parseHeader_eq_ok.mpr rfl, hv, (if_neg hc).symm⟩)⟩
  | otherver h =>
    simp only [Instr.wf, Bool.and_eq_true, bne_iff_ne] at hw
    obtain ⟨hh, hv⟩ := hw
    obtain ⟨hl, hm⟩ := headerHead_wf_iff.mp hh
    exact guardDelim_eq_ok.mpr ⟨hm, decodeRecord_eq_ok.mpr (.inl ⟨h, parseHead_eq_ok.mpr ⟨hl, rfl⟩, hv, rfl⟩)⟩
  | highscan bytes => exact decode_payload_eq_ok.mpr ⟨hw, rfl⟩
  | frameck w => exact map_eq_ok.mpr ⟨w, parseFrame_eq_ok.mpr rfl, rfl⟩
  | unpack w => exact map_eq_ok.mpr ⟨w, parseFrame_eq_ok.mpr rfl, rfl⟩
  | fieldU f => exact decode_fieldWord c false hw
  | fieldS f => exact decode_fieldWord c true hw

/-- Settles O52: operation by operation, each by the reading of its format. -/
theorem decodeOfEncodeIsTheOperation : Obligations.DecodeOfEncodeIsTheOperation :=
  fun _ _ _ => decode_of_encode

/-- Settles O53: level by level, each by the reading of its format. -/
theorem encodeOfDecodeIsTheBytes : Obligations.EncodeOfDecodeIsTheBytes :=
  fun _ _ _ _ _ => encode_of_decode

/-- Settles O48: the decoder evaluates each written-out word to its operation. -/
theorem writtenOutWordsDecode : Obligations.WrittenOutWordsDecode := ⟨rfl, rfl, rfl, rfl, rfl, rfl⟩

/-! ### Each class of an input byte by its values (R61) -/

theorem decodeByte_eq_sync_iff (b : Byte) : decodeByte b = .sync ↔ b.toNat = 0xAA := by
  constructor
  · intro h
    have hb := encode_decodeByte b
    rw [h] at hb
    obtain rfl := List.singleton_inj.mp hb
    rfl
  · intro h
    obtain rfl : b = delim := BitVec.eq_of_toNat_eq h
    rfl

theorem decodeByte_eq_septet_iff (b : Byte) : (∃ d, decodeByte b = .septet d) ↔ b.toNat < 0x80 := by
  constructor
  · rintro ⟨d, h⟩
    have hb := encode_decodeByte b
    rw [h] at hb
    obtain rfl := List.singleton_inj.mp hb
    rw [lowByte_toNat]
    exact septet_lt d
  · intro h
    have h7 : b.getLsbD 7 = false := by
      rw [Bool.eq_false_iff, ne_eq, bit7_iff]
      omega
    exact ⟨septetOf b, (congrArg decodeByte (lowByte_septetOf h7).symm).trans (decodeByte_lowByte _)⟩

theorem decodeByte_eq_high_iff (b : Byte) : (∃ x, decodeByte b = .high x) ↔ 0x80 ≤ b.toNat ∧ b.toNat ≠ 0xAA := by
  constructor
  · rintro ⟨x, h⟩
    have hb := encode_decodeByte b
    rw [h] at hb
    obtain rfl := List.singleton_inj.mp hb
    refine ⟨by rw [highByte_toNat]; omega, fun hAA => ?_⟩
    rw [(decodeByte_eq_sync_iff _).mpr hAA] at h
    cases h
  · rintro ⟨h80, hAA⟩
    have hb : highByte (septetOf b) = b := highByte_septetOf ((bit7_iff b).mpr h80)
    have hx : septetOf b ≠ 0x2A#7 := fun hx => hAA (by rw [← hb, hx]; rfl)
    exact ⟨septetOf b, (congrArg decodeByte hb.symm).trans (decodeByte_highByte hx)⟩

/-- Settles O49: the byte given back fixes the values of each class. -/
theorem everyByteHasOneClass : Obligations.EveryByteHasOneClass := fun b =>
  ⟨encode_decodeByte b, decodeByte_eq_sync_iff b, decodeByte_eq_septet_iff b, decodeByte_eq_high_iff b⟩

/-! ### The descriptor's fields at their bits (R78, R80) -/

/-- The operand fields of a descriptor are runs of bits of its number. -/
theorem descField_eq_ofNat (w : DescWord) :
    descField w = ⟨BitVec.ofNat 10 w.toNat, BitVec.ofNat 3 (w.toNat / 2 ^ 10), BitVec.ofNat 16 (w.toNat / 2 ^ 16),
      BitVec.ofNat 16 (w.toNat / 2 ^ 32)⟩ := by
  have ho : descOffset w = BitVec.ofNat 10 w.toNat :=
    BitVec.eq_of_toNat_eq ((descOffset_toNat w).trans (BitVec.toNat_ofNat _ _).symm)
  have hl : descLength w = BitVec.ofNat 3 (w.toNat / 2 ^ 10) :=
    BitVec.eq_of_toNat_eq ((descLength_toNat w).trans (BitVec.toNat_ofNat _ _).symm)
  have hn : descFnum w = BitVec.ofNat 16 (w.toNat / 2 ^ 16) :=
    BitVec.eq_of_toNat_eq ((descFnum_toNat w).trans (BitVec.toNat_ofNat _ _).symm)
  have hd : descFden w = BitVec.ofNat 16 (w.toNat / 2 ^ 32) :=
    BitVec.eq_of_toNat_eq ((descFden_toNat w).trans (BitVec.toNat_ofNat _ _).symm)
  rw [descField, ho, hl, hn, hd]

/-- Legal descriptors (R80) in numbers. -/
theorem desc_legal_iff (p : Params) (w : DescWord) :
    (descReservedClear w = true ∧ (descField w).wf p = true) ↔
      w.toNat / 2 ^ 14 % 2 = 0 ∧ w.toNat / 2 ^ 48 = 0 ∧ 1 ≤ w.toNat / 2 ^ 10 % 8 ∧
        w.toNat / 2 ^ 10 % 8 ≤ p.maxFieldLen ∧ w.toNat / 2 ^ 32 % 2 ^ 16 ≠ 0 := by
  rw [descReservedClear_iff, field_wf_iff, and_assoc]
  simp only [descField, descLength_toNat, ne_eq, descFden_eq_zero_iff, Nat.reducePow]

/-- Settles O50: a descriptor decodes exactly when it is active and legal, and both are read off its number. -/
theorem descriptorFieldsStandAtTheirBits : Obligations.DescriptorFieldsStandAtTheirBits := by
  intro p w n active legal f
  have hactive : descValid w = true ↔ active := descValid_iff w
  have hlegal : (descReservedClear w = true ∧ (descField w).wf p = true) ↔ legal := desc_legal_iff p w
  refine ⟨fun ha hl => ?_, fun ha hl => ?_, fun ha => if_pos (Bool.eq_false_iff.mpr (mt hactive.mp ha))⟩
  · obtain ⟨hr, hw⟩ := hlegal.mpr hl
    refine decodeDescriptor_eq_ok.mpr ⟨hactive.mpr ha, hr, hw, ?_⟩
    rw [descField_eq_ofNat, fieldInstr]
    simp only [descSigned_iff]
    rfl
  · cases hd : decodeDescriptor p w with
    | error e => exact ⟨e, rfl⟩
    | ok i =>
      obtain ⟨-, hr, hw, -⟩ := decodeDescriptor_eq_ok.mp hd
      exact absurd (hlegal.mp ⟨hr, hw⟩) hl

/-! ### Refusals and rejections (R77, R80) -/

/-- Settles O4: the two refusals come before anything that a step out of reset does. -/
theorem unlawfulConfigurationIsRefused : Obligations.UnlawfulConfigurationIsRefused := by
  intro s hr
  refine ⟨fun hne => ?_, fun heq hwf => ?_⟩
  · rw [step, if_neg (by rw [hr]; decide), if_pos hne]
  · rw [step, if_neg (by rw [hr]; decide), if_neg (not_not.mpr heq), if_pos hwf]

/-- The reject entry makes the writes of spec/60_exceptions.md R190. -/
theorem rejectWrites_takeReject (code : RejectCode) (diag : Option Diag) (s : State) :
    RejectWrites code diag s (takeReject code diag s) := by
  have hpassed : code.headerPassed = decide (6 ≤ code.num.toNat) :=
    Bool.eq_iff_iff.mpr ((headerPassed_iff code).trans decide_eq_true_iff.symm)
  rw [RejectWrites, ← hpassed]
  cases diag <;> rfl

/-- Settles O21: both operations are the reject entry. -/
theorem foreignRecordsAreRejectedWithNoOtherEffect : Obligations.ForeignRecordsAreRejectedWithNoOtherEffect :=
  fun s => ⟨fun _ => ⟨_, rfl, rejectWrites_takeReject .badCommand none s⟩,
    fun _ => ⟨_, rfl, rejectWrites_takeReject .badVersion none s⟩⟩

/-! ### The chain of checks up to the one that fails (R75, spec/60_exceptions.md R192) -/

/-- A rejection takes effect in the same way whatever intermediate values it finds. -/
theorem outcome_raiseReject_of_work (code : RejectCode) (diag : Option Diag) (w : Work) (s : State) :
    (raiseReject code diag { s with work := w }).outcome = (raiseReject code diag s).outcome :=
  congrArg Host.Outcome.next (takeReject_ignores_work code diag w s)

/-- A foreign version ends the evaluation in `HV1`. -/
theorem candidateOp_eq_hv1Op {s : State} {hd : HeaderHead} (hhd : s.fetchHead = some hd)
    (hv : hd.ver ≠ s.cfg.version) : candidateOp s = hv1Op hd s := by
  have e : hv1Op hd s = raiseReject .badVersion none s := if_neg hv
  rw [candidateOp, hhd]
  dsimp only
  rw [e]
  rfl

/-- A candidate without a whole header ends in `HV2`. -/
theorem candidateOp_eq_hv2Op {s : State} {hd : HeaderHead} (hhd : s.fetchHead = some hd)
    (hv : hd.ver = s.cfg.version) (hl : s.len < 9) : candidateOp s = hv2Op hd s := by
  have e₁ : hv1Op hd s = .goOn s := if_pos hv
  have e₂ : hv2Op hd s = raiseReject .incomplete none s := if_pos hl
  rw [candidateOp, hhd]
  dsimp only
  rw [e₁, Progress.goOn_andThen, e₂]
  rfl

/-- A candidate with the accepted version and a whole header goes on to `HV3`. -/
theorem candidateOp_eq_headerOp {s : State} {hd : HeaderHead} {h : Header} (hhd : s.fetchHead = some hd)
    (hv : hd.ver = s.cfg.version) (hl : 9 ≤ s.len) (hh : s.fetchHeader = some h) :
    candidateOp s = headerOp h s := by
  have e₁ : hv1Op hd s = .goOn s := if_pos hv
  have e₂ : hv2Op hd s = .goOn s := if_neg (Nat.not_lt.mpr hl)
  rw [candidateOp, hhd]
  dsimp only
  rw [e₁, Progress.goOn_andThen, e₂, Progress.goOn_andThen, hh]

/-- So does a `PUSH` record. -/
theorem recordOp_eq_headerOp {s : State} {h : Header} (hv : h.ver = s.cfg.version) (hl : 9 ≤ s.len) :
    recordOp h s = headerOp h s := by
  have e₁ : hv1Op h.head s = .goOn s := if_pos hv
  have e₂ : hv2Op h.head s = .goOn s := if_neg (Nat.not_lt.mpr hl)
  rw [recordOp, e₁, Progress.goOn_andThen, e₂, Progress.goOn_andThen]

/-- Another command ends the evaluation in `HV3`. -/
theorem headerOp_eq_hv3Op {s : State} {h : Header} (hc : h.cmd ≠ s.cfg.command) : headerOp h s = hv3Op h s := by
  have e : hv3Op h s = raiseReject .badCommand none s := if_neg hc
  rw [headerOp, e]
  rfl

/-- A header checksum that is not right ends it in `HV4`. -/
theorem headerOp_eq_hv4Op {s : State} {h : Header} (hc : h.cmd = s.cfg.command)
    (hk : h.hck ≠ lowByte (cksum h.covered)) : headerOp h s = hv4Op h s := by
  have e₃ : hv3Op h s = .goOn s := if_pos hc
  rw [headerOp, e₃, Progress.goOn_andThen]
  rcases hv4Op_cases h s with ⟨hk', -⟩ | ⟨-, e₄⟩
  · exact absurd hk' hk
  · rw [e₄]
    rfl

/-- Behind the right checksum the evaluation goes on to `HV5`. -/
theorem headerOp_eq_hv5Op_andThen {s : State} {h : Header} (hc : h.cmd = s.cfg.command)
    (hk : h.hck = lowByte (cksum h.covered)) :
    headerOp h s = (hv5Op h (cksumOp h.covered s)).andThen (bodyOp h) := by
  have e₃ : hv3Op h s = .goOn s := if_pos hc
  rw [headerOp, e₃, Progress.goOn_andThen]
  rcases hv4Op_cases h s with ⟨-, e₄⟩ | ⟨hk', -⟩
  · rw [e₄, Progress.goOn_andThen]
  · exact absurd hk hk'

/-- A frame count that does not fit the length ends it in `HV5`. -/
theorem headerOp_outcome_eq_hv5Op {s : State} {h : Header} (hc : h.cmd = s.cfg.command)
    (hk : h.hck = lowByte (cksum h.covered)) (hl : s.len ≠ 9 + 6 * h.n.toNat) :
    (headerOp h s).outcome = (hv5Op h s).outcome := by
  have e (w : Work) : hv5Op h { s with work := w } = raiseReject .length none { s with work := w } := if_neg hl
  have e₅ : hv5Op h (cksumOp h.covered s) = raiseReject .length none (cksumOp h.covered s) := e _
  rw [headerOp_eq_hv5Op_andThen hc hk, e₅, raiseReject_andThen, show hv5Op h s = _ from e s.work]
  exact outcome_raiseReject_of_work _ _ _ s

/-- A right header goes on to the payload. -/
theorem headerOp_eq_bodyOp {s : State} {h : Header} (hc : h.cmd = s.cfg.command)
    (hk : h.hck = lowByte (cksum h.covered)) (hl : s.len = 9 + 6 * h.n.toNat) :
    headerOp h s = bodyOp h (cksumOp h.covered s) := by
  have e₅ : hv5Op h (cksumOp h.covered s) = .goOn (cksumOp h.covered s) := if_pos hl
  rw [headerOp_eq_hv5Op_andThen hc hk, e₅, Progress.goOn_andThen]

/-- What a record with a right header does with its payload, in one place: reject it as `PayloadDecode` says, reject it
by the range check, or accept it (spec/44_field_mapper.md R168). -/
theorem headerOp_outcome {s : State} {h : Header} {payload : List Byte} (hwf : configWf s.params s.cfg = true)
    (hc : h.cmd = s.cfg.command) (hk : h.hck = lowByte (cksum h.covered)) (hl : s.len = 9 + 6 * h.n.toNat)
    (hp : s.fetchPayload h.n = some payload) :
    (headerOp h s).outcome = match payloadDecode h.n.toNat payload with
      | .error r => .next (takeReject r.code r.diag s)
      | .ok d => if d.length < reqBytes s.cfg.ft then .next (takeReject .fieldRange none s)
        else .next (takeAccept h d (s.cfg.ft.map (slotValue d)) s) := by
  rw [headerOp_eq_bodyOp hc hk hl, bodyOp_spec h.n.toNat h payload (cksumOp h.covered s)
    (descriptorWf_of_mem (s := s) hwf) hp (fetchPayload_length hp)]
  cases payloadDecode h.n.toNat payload with
  | error r => exact outcome_raiseReject_of_work r.code r.diag _ s
  | ok d =>
    dsimp only
    rw [cksumOp_cfg]
    split
    case isTrue => exact outcome_raiseReject_of_work .fieldRange none _ s
    case isFalse => rfl

/-! ### The operands in the record buffer -/

/-- The head is parsed from a read of the first nine bytes, or of all of a shorter candidate (spec/20_memory.md R51). -/
theorem fetchHead_eq_some {s : State} {hd : HeaderHead} :
    s.fetchHead = some hd ↔
      ∃ bytes, s.rbRange 0 (min hdrLen s.validLen) = some bytes ∧ parseHead bytes = .ok hd := by
  unfold State.fetchHead
  cases s.rbRange 0 (min hdrLen s.validLen) with
  | none => simp
  | some bytes => cases hp : parseHead bytes <;> simp [hp, Except.toOption]

/-- A whole header in the buffer is read as that header, and its head as that head. -/
theorem fetch_of_headerBytes {s : State} {h : Header} (hr : s.rbRange 0 hdrLen = some h.bytes) :
    s.fetchHead = some h.head ∧ s.fetchHeader = some h ∧ 9 ≤ s.len := by
  have hvalid : hdrLen ≤ s.validLen := by simpa using (State.rbRange_eq_some.mp hr).1
  refine ⟨fetchHead_eq_some.mpr ⟨h.bytes, ?_, parseHead_headerBytes h⟩,
    fetchHeader_eq_some.mpr ⟨h.bytes, hr, parseHeader_eq_ok.mpr rfl⟩, hvalid.trans (Nat.min_le_left _ _)⟩
  rwa [Nat.min_eq_left hvalid]

/-- At a closing delimiter, the evaluation runs. -/
theorem exec_sync_eq_candidateOp {s : State} {c : Candidate} (ha : AtClosing s c) :
    exec .sync s = (candidateOp s).outcome :=
  execSync_candidate ha.config ha.collecting ha.long

/-- Settles O33: the evaluation of the buffer and the selected record end in the same check, or go on alike from
`HV3`. -/
theorem closingDelimiterRunsTheSelectedRecord : Obligations.ClosingDelimiterRunsTheSelectedRecord := by
  intro s c bytes i ha hr hdec
  rw [exec_sync_eq_candidateOp ha]
  rcases decodeRecord_eq_ok.mp (guardDelim_eq_ok.mp hdec).2 with ⟨hd, hp, hv, rfl⟩ | ⟨h, hp, hv, rfl⟩
  · have e : hv1Op hd s = raiseReject .badVersion none s := if_neg hv
    rw [candidateOp_eq_hv1Op (fetchHead_eq_some.mpr ⟨bytes, hr, hp⟩) hv, e]
    rfl
  · obtain rfl := parseHeader_eq_ok.mp hp
    have hmin : min 9 s.validLen = 9 := (Memory.readRange_length (State.rbRange_eq_some.mp hr).2).symm
    rw [hmin] at hr
    obtain ⟨hhd, hh, hl⟩ := fetch_of_headerBytes hr
    rw [candidateOp_eq_headerOp hhd hv hl hh]
    split
    case isTrue =>
      show _ = (underConfig s (recordOp h s)).outcome
      rw [underConfig_of_wf ha.config, recordOp_eq_headerOp hv hl]
    case isFalse hc =>
      have e : hv3Op h s = raiseReject .badCommand none s := if_neg hc
      rw [headerOp_eq_hv3Op hc, e]
      rfl

/-! ### A payload as its wire frames (R66, R69) -/

/-- Pieces of one length, joined: each is cut out again at its own place. -/
theorem take_drop_flatMap {α β : Type} {f : α → List β} {k : Nat} (hf : ∀ a, (f a).length = k) {l : List α} {i : Nat}
    {a : α} (h : l[i]? = some a) : ((l.flatMap f).drop (k * i)).take k = f a := by
  induction l generalizing i with
  | nil => cases h
  | cons x rest ih =>
    rw [List.flatMap_cons]
    cases i with
    | zero =>
      obtain rfl : x = a := Option.some.inj h
      rw [Nat.mul_zero, List.drop_zero, List.take_left' (hf x)]
    | succ i =>
      rw [Nat.mul_succ, Nat.add_comm, ← List.drop_drop, List.drop_left' (hf x)]
      exact ih h

/-- Their elements, too. -/
theorem getElem?_flatMap_of_length {α β : Type} {f : α → List β} {k : Nat} (hf : ∀ a, (f a).length = k) {l : List α}
    {i j : Nat} {a : α} (h : l[i]? = some a) (hj : j < k) : (l.flatMap f)[k * i + j]? = (f a)[j]? := by
  rw [← take_drop_flatMap hf h, List.getElem?_take_of_lt hj, List.getElem?_drop]

/-- How many elements they have together. -/
theorem length_flatMap_of_length {α β : Type} {f : α → List β} {k : Nat} (hf : ∀ a, (f a).length = k) (l : List α) :
    (l.flatMap f).length = k * l.length := by
  induction l with
  | nil => rfl
  | cons x rest ih => rw [List.flatMap_cons, List.length_append, hf, ih, List.length_cons, Nat.mul_succ, Nat.add_comm]

theorem frameBytes_length (w : Frame) : w.bytes.length = 6 := rfl

/-- Wire frame `i` of joined frames is the frame at index `i`. -/
theorem wireFrame_flatMap_bytes {frames : List Frame} {i : Nat} {w : Frame} (h : frames[i]? = some w) :
    wireFrame (frames.flatMap Frame.bytes) i = w.bytes :=
  take_drop_flatMap frameBytes_length h

/-- Whole wire frames with every byte below 0x80 are joined frames. -/
theorem exists_frames {n : Nat} {payload : List Byte} (hl : payload.length = 6 * n)
    (hlow : ∀ b ∈ payload, b.toNat < 0x80) :
    ∃ frames : List Frame, frames.length = n ∧ payload = frames.flatMap Frame.bytes := by
  induction n generalizing payload with
  | zero => exact ⟨[], rfl, List.length_eq_zero_iff.mp hl⟩
  | succ n ih =>
    obtain ⟨b0, b1, b2, b3, b4, b5, rest, rfl, hr⟩ := six_more payload n hl
    have hsix : [b0, b1, b2, b3, b4, b5].any (·.getLsbD 7) = false := by
      rw [← any_high_eq, List.any_eq_false]
      intro b hb
      have := hlow b (List.mem_append_left rest hb)
      simpa using this
    obtain ⟨w, hw, -⟩ := parseFrame_six b0 b1 b2 b3 b4 b5 hsix
    obtain ⟨frames, hlen, hrest⟩ := ih hr fun b hb => hlow b (List.mem_append_right [b0, b1, b2, b3, b4, b5] hb)
    refine ⟨w :: frames, congrArg Nat.succ hlen, ?_⟩
    rw [List.flatMap_cons, parseFrame_eq_ok.mp hw, ← hrest]
    rfl

/-- Every byte of a wire frame is below 0x80 (R84). -/
theorem frameBytes_low {w : Frame} {b : Byte} (hb : b ∈ w.bytes) : b.toNat < 0x80 := by
  have hlow (d : Septet) : (lowByte d).toNat < 0x80 := (lowByte_toNat d).symm ▸ septet_lt d
  simp only [Frame.bytes, Frame.covered, List.mem_append, List.mem_cons, List.not_mem_nil, or_false] at hb
  rcases hb with (rfl | rfl | rfl | rfl | rfl) | rfl <;> exact hlow _

/-- The checksum comparison of R142 on the bytes of a wire frame. -/
theorem frameOk_bytes (w : Frame) : frameOk w.bytes = true ↔ w.fck = cksum w.covered := by
  have hinj : lowByte w.fck = lowByte (cksum w.covered) ↔ w.fck = cksum w.covered := by
    rw [eq_lowByte_iff, lowByte_toNat, BitVec.toNat_inj]
  rw [← hinj, frameOk, beq_iff_eq]
  rfl

/-- The recovered bytes of R143 on the bytes of a wire frame. -/
theorem recoverBytes_bytes (w : Frame) : recoverBytes w.bytes = unpackBytes w := by
  have hsix : w.bytes.any (·.getLsbD 7) = false := by
    rw [← any_high_eq, List.any_eq_false]
    intro b hb
    simpa using frameBytes_low hb
  obtain ⟨w', hw', -, -, hu⟩ := parseFrame_six _ _ _ _ _ _ hsix
  obtain rfl : w = w' := Except.ok.inj ((parseFrame_eq_ok.mpr rfl).symm.trans hw')
  exact hu.symm

/-- All wire frames of joined frames, in index order. -/
theorem map_wireFrame_range (frames : List Frame) :
    (List.range frames.length).map (wireFrame (frames.flatMap Frame.bytes)) = frames.map Frame.bytes := by
  refine List.ext_getElem (by simp) fun i hi _ => ?_
  rw [List.length_map, List.length_range] at hi
  simpa using wireFrame_flatMap_bytes (List.getElem?_eq_getElem hi)

/-- `PayloadDecode` of joined frames: they are accepted exactly when each checksum is right, and give the recovered
bytes of each (spec/43_payload_decoder.md R144). -/
theorem payloadDecode_frames {frames : List Frame} {d : List Byte} :
    payloadDecode frames.length (frames.flatMap Frame.bytes) = .ok d ↔
      (∀ w ∈ frames, w.fck = cksum w.covered) ∧ frames.flatMap unpackBytes = d := by
  have hlow : ((frames.flatMap Frame.bytes).any fun b => decide (0x80 ≤ b.toNat)) = false := by
    rw [List.any_eq_false]
    intro b hb
    obtain ⟨w, -, hw⟩ := List.mem_flatMap.mp hb
    simpa using frameBytes_low hw
  have hall : ((List.range frames.length).find? fun i => !frameOk (wireFrame (frames.flatMap Frame.bytes) i)) = none ↔
      ∀ w ∈ frames, w.fck = cksum w.covered := by
    rw [List.find?_eq_none, ← List.forall_mem_map (P := fun x => ¬(!frameOk x) = true), map_wireFrame_range,
      List.forall_mem_map]
    simp only [Bool.not_eq_true', Bool.not_eq_false, frameOk_bytes]
  have hd : ((List.range frames.length).flatMap fun i => recoverBytes (wireFrame (frames.flatMap Frame.bytes) i)) =
      frames.flatMap unpackBytes := by
    rw [← List.flatMap_map, map_wireFrame_range, List.flatMap_map]
    simp only [recoverBytes_bytes]
  rw [payloadDecode, hlow, ← hall, hd, if_neg Bool.false_ne_true]
  cases (List.range frames.length).find? fun i => !frameOk (wireFrame (frames.flatMap Frame.bytes) i) with
  | none => exact ⟨fun h => ⟨rfl, Except.ok.inj h⟩, fun h => congrArg Except.ok h.2⟩
  | some i => exact ⟨fun h => (by cases h), fun h => (by cases h.1)⟩

/-! ### An accepted record (R65; spec/60_exceptions.md R191) -/

/-- How far the active fields reach (spec/44_field_mapper.md R163): at most `n` bytes when each of them does. -/
theorem reqBytes_le_iff {ft : List DescWord} {n : Nat} :
    reqBytes ft ≤ n ↔ ∀ w ∈ ft, descValid w = true → fieldEnd (descField w) ≤ n := by
  induction ft with
  | nil => simp [reqBytes]
  | cons w rest ih =>
    rw [reqBytes, Nat.max_le, ih, List.forall_mem_cons]
    refine and_congr_left' ?_
    split
    case isTrue hv => exact ⟨fun h _ => h, fun h => h hv⟩
    case isFalse hv => exact ⟨fun _ h => absurd h hv, fun _ => Nat.zero_le n⟩

/-- A record whose payload is wire frames with right checksums, long enough for every active field, is accepted with
what they unpack to. -/
theorem headerOp_outcome_frames {s : State} {h : Header} {frames : List Frame} (hwf : configWf s.params s.cfg = true)
    (hc : h.cmd = s.cfg.command) (hk : h.hck = lowByte (cksum h.covered)) (hl : s.len = 9 + 6 * h.n.toNat)
    (hp : s.fetchPayload h.n = some (frames.flatMap Frame.bytes)) (hn : frames.length = h.n.toNat)
    (hf : ∀ w ∈ frames, w.fck = cksum w.covered) (hr : reqBytes s.cfg.ft ≤ 4 * h.n.toNat) :
    (headerOp h s).outcome =
      .next (takeAccept h (frames.flatMap unpackBytes) (s.cfg.ft.map (slotValue (frames.flatMap unpackBytes))) s) := by
  have hd : payloadDecode h.n.toNat (frames.flatMap Frame.bytes) = .ok (frames.flatMap unpackBytes) :=
    hn ▸ payloadDecode_frames.mpr ⟨hf, rfl⟩
  rw [headerOp_outcome hwf hc hk hl hp, hd]
  exact if_neg (Nat.not_lt.mpr (payloadDecode_length _ _ _ hd ▸ hr))

/-- Lane `j` of a wire frame on its bytes: byte `j` plus 128 when mask bit `j` is 1 (R67). -/
theorem unpackBytes_getD_toNat (w : Frame) {j : Nat} (hj : j < 4) :
    ((unpackBytes w).getD j 0#8).toNat =
      (w.bytes.getD j 0#8).toNat + 128 * ((w.bytes.getD 4 0#8).getLsbD j).toNat := by
  have hmask : (w.bytes.getD 4 0#8).getLsbD j = w.mask.getLsbD j := by
    show (lowByte (w.spare ++ w.mask)).getLsbD j = _
    conv_rhs => rw [← (extractLsb'_maskByte w.spare w.mask).2, BitVec.getLsbD_extractLsb', decide_eq_true hj]
    rw [Bool.true_and, Nat.zero_add]
  rw [hmask]
  have hlane (d : Septet) (b : Bool) : (restoreByte d b).toNat = (lowByte d).toNat + 128 * b.toNat := by
    rw [restoreByte_toNat, lowByte_toNat]
  interval_cases j
  · exact hlane w.d0 _
  · exact hlane w.d1 _
  · exact hlane w.d2 _
  · exact hlane w.d3 _

/-- Settles O34: the payload is wire frames with right checksums, so the record is accepted with what they unpack to. -/
theorem pushLatchesAnAcceptedRecord : Obligations.PushLatchesAnAcceptedRecord := by
  intro s h payload hwf hv hc hk hl hn hlen hread hlow hfck hfit
  obtain ⟨frames, hframes, rfl⟩ := exists_frames hlen hlow
  have hframe {i : Nat} (hi : i < h.n.toNat) : ∃ w, frames[i]? = some w :=
    ⟨_, List.getElem?_eq_getElem (hframes ▸ hi)⟩
  have hright : ∀ w ∈ frames, w.fck = cksum w.covered := by
    intro w hw
    obtain ⟨i, hi, hget⟩ := List.mem_iff_getElem.mp hw
    have hok := (frameRight_iff _ i).mp (hfck i (hframes ▸ hi))
    rwa [wireFrame_flatMap_bytes (hget ▸ List.getElem?_eq_getElem hi), frameOk_bytes] at hok
  have hp : s.fetchPayload h.n = some (frames.flatMap Frame.bytes) := by
    refine State.rbRange_eq_some.mpr ⟨?_, Memory.readRange_eq_some.mpr ⟨hlen, hread⟩⟩
    rw [State.validLen, hl, Params.rbCap]
    exact Nat.le_min.mpr ⟨Nat.le_refl _, Nat.add_le_add_left (Nat.mul_le_mul_left 6 hn) 9⟩
  have hexec : exec (.push h) s = (headerOp h s).outcome := by
    show (underConfig s (recordOp h s)).outcome = _
    rw [underConfig_of_wf hwf, recordOp_eq_headerOp hv (by omega)]
  rw [hexec, headerOp_outcome_frames hwf hc (hk.trans (lowByte_eq_setWidth _).symm) hl hp hframes hright
    (reqBytes_le_iff.mpr hfit)]
  refine ⟨_, _, rfl, acceptWrites_takeAccept h _ _ s, ?_, fun i j hi hj => ?_⟩
  · rw [length_flatMap_of_length unpackBytes_length, hframes]
  · obtain ⟨w, hw⟩ := hframe hi
    have hd := getElem?_flatMap_of_length unpackBytes_length hw hj
    have hb {k : Nat} (hk : k < 6) := getElem?_flatMap_of_length frameBytes_length hw hk
    have hlane := unpackBytes_getD_toNat w hj
    simp only [List.getD_eq_getElem?_getD] at hlane ⊢
    rw [hd, hb (by omega), hb (by decide), hlane]

/-! ### The check that ends an evaluation (R75; spec/60_exceptions.md R192) -/

/-- The lowest wire frame whose checksum is not right is the one that `PayloadDecode` reports
(spec/43_payload_decoder.md R142). -/
theorem payloadDecode_of_lowestBad {n i : Nat} {payload : List Byte} (hlow : ∀ b ∈ payload, b.toNat < 0x80) (hi : i < n)
    (hbad : frameOk (wireFrame payload i) = false) (hmin : ∀ j, j < i → frameOk (wireFrame payload j) = true) :
    payloadDecode n payload = .error ⟨.frameChecksum, some ⟨cksum ((wireFrame payload i).take 5),
      (wireFrame payload i).getD 5 0#8, .frame, BitVec.ofNat 8 i⟩⟩ := by
  have hany : (payload.any fun b => decide (0x80 ≤ b.toNat)) = false := by simpa using hlow
  have hfind : (List.range n).find? (fun i => !frameOk (wireFrame payload i)) = some i :=
    List.find?_range_eq_some.mpr ⟨by rw [hbad]; rfl, List.mem_range.mpr hi, fun j hj => by rw [hmin j hj]; decide⟩
  rw [payloadDecode, hany, if_neg Bool.false_ne_true, hfind]

/-- A payload byte of 0x80 or more ends the evaluation as `HIGHSCAN` by itself does
(spec/43_payload_decoder.md R141). -/
theorem headerOp_outcome_eq_highscanOp {s : State} {h : Header} {payload : List Byte}
    (hwf : configWf s.params s.cfg = true) (hc : h.cmd = s.cfg.command) (hk : h.hck = lowByte (cksum h.covered))
    (hl : s.len = 9 + 6 * h.n.toNat) (hp : s.fetchPayload h.n = some payload) (hb : ∃ b ∈ payload, 0x80 ≤ b.toNat) :
    (headerOp h s).outcome = (highscanOp payload s).outcome := by
  have hany : (payload.any fun b => decide (0x80 ≤ b.toNat)) = true := by simpa using hb
  have hd : payloadDecode h.n.toNat payload = .error ⟨.highBit, none⟩ := by rw [payloadDecode, if_pos hany]
  rw [headerOp_outcome hwf hc hk hl hp, hd, highscanOp, if_pos (any_high_eq payload ▸ hany)]
  rfl

/-- The lowest wire frame with a wrong checksum ends it as `FRAMECK` by itself does, run with the decoded bytes of the
frames before it (log 15). -/
theorem headerOp_outcome_eq_frameckOp {s : State} {h : Header} {payload : List Byte} {i : Nat} {w : Frame}
    (hwf : configWf s.params s.cfg = true) (hc : h.cmd = s.cfg.command) (hk : h.hck = lowByte (cksum h.covered))
    (hl : s.len = 9 + 6 * h.n.toNat) (hp : s.fetchPayload h.n = some payload) (hlow : ∀ b ∈ payload, b.toNat < 0x80)
    (hi : i < h.n.toNat) (hw : parseFrame (wireFrame payload i) = .ok w)
    (hmin : ∀ j, j < i → frameOk (wireFrame payload j) = true) (hbad : frameOk (wireFrame payload i) = false)
    {d : List Byte} (hd : d.length = 4 * i) :
    (headerOp h s).outcome = (frameckOp w { s with work := { d := d } }).outcome := by
  rw [headerOp_outcome hwf hc hk hl hp, payloadDecode_of_lowestBad hlow hi hbad hmin, ← parseFrame_eq_ok.mp hw]
  rw [← parseFrame_eq_ok.mp hw] at hbad
  have hindex : d.length / 4 = i := by omega
  rcases frameckOp_cases w { s with work := { d := d } } with ⟨hok, -⟩ | ⟨-, e⟩
  · cases hbad.symm.trans ((frameOk_bytes w).mpr hok)
  · rw [e, hindex]
    exact (outcome_raiseReject_of_work _ _ _ s).symm

/-- Settles O35: the evaluation stops in the first check that fails, and that check alone makes its rejection. -/
theorem rejectingCheckIsTheOperationsOwn : Obligations.RejectingCheckIsTheOperationsOwn := by
  intro s c hd ha hhd
  rw [exec_sync_eq_candidateOp ha]
  refine ⟨fun hv => congrArg Progress.outcome (candidateOp_eq_hv1Op hhd hv),
    fun hv hl => congrArg Progress.outcome (candidateOp_eq_hv2Op hhd hv hl), fun h hv hl hh => ?_⟩
  rw [candidateOp_eq_headerOp hhd hv hl hh, ← lowByte_eq_setWidth]
  refine ⟨fun hc => congrArg Progress.outcome (headerOp_eq_hv3Op hc), fun hc =>
    ⟨fun hk => congrArg Progress.outcome (headerOp_eq_hv4Op hc hk), fun hk =>
      ⟨headerOp_outcome_eq_hv5Op hc hk, fun hl payload hp => ⟨?_, ?_⟩⟩⟩⟩
  · exact headerOp_outcome_eq_highscanOp ha.config hc hk hl hp
  · exact fun hlow i w hi hw hmin hbad =>
      headerOp_outcome_eq_frameckOp ha.config hc hk hl hp hlow hi hw hmin hbad List.length_replicate

/-! ### The operations of an accepted record, one after another (R75) -/

/-- An operation that completes hands its state to the next. -/
theorem runOps_cons {i : Instr} {rest : List Instr} {s t : State} (h : exec i s = .next t) :
    runOps (i :: rest) s = runOps rest t := by
  rw [runOps, h]

/-- So does a run of operations. -/
theorem runOps_append {front back : List Instr} {s t : State} (h : runOps front s = .next t) :
    runOps (front ++ back) s = runOps back t := by
  induction front generalizing s with
  | nil =>
    obtain rfl := Host.Outcome.next.inj h
    rfl
  | cons i rest ih =>
    cases hi : exec i s with
    | next u =>
      rw [runOps_cons hi] at h
      rw [List.cons_append, runOps_cons hi]
      exact ih h
    | fault r =>
      rw [runOps, hi] at h
      cases h
    | refused r =>
      rw [runOps, hi] at h
      cases h

/-- The five header checks and the payload scan of a record that passes them leave nothing but the header's checksum, an
intermediate value. -/
theorem runOps_headerChecks {s : State} {h : Header} {payload : List Byte} (hv : h.ver = s.cfg.version)
    (hc : h.cmd = s.cfg.command) (hk : h.hck = lowByte (cksum h.covered)) (hl : s.len = 9 + 6 * h.n.toNat)
    (hlow : ∀ b ∈ payload, b.toNat < 0x80) :
    runOps [.hv1 h.head, .hv2 h.head, .hv3 h, .hv4 h, .hv5 h, .highscan payload] s = .next (cksumOp h.covered s) := by
  have h9 : ¬s.len < hdrLen := Nat.not_lt.mpr (hl ▸ Nat.le_add_right 9 _)
  have hany : ¬payload.any (·.getLsbD 7) = true := by
    rw [← any_high_eq]
    simpa using hlow
  have e₁ : exec (.hv1 h.head) s = .next s := congrArg Progress.outcome (if_pos hv)
  have e₂ : exec (.hv2 h.head) s = .next s := congrArg Progress.outcome (if_neg h9)
  have e₃ : exec (.hv3 h) s = .next s := congrArg Progress.outcome (if_pos hc)
  have e₄ : exec (.hv4 h) s = .next (cksumOp h.covered s) := congrArg Progress.outcome (if_pos hk)
  have e₅ : exec (.hv5 h) (cksumOp h.covered s) = .next (cksumOp h.covered s) := congrArg Progress.outcome (if_pos hl)
  have e₆ : exec (.highscan payload) (cksumOp h.covered s) = .next (cksumOp h.covered s) :=
    congrArg Progress.outcome (if_neg hany)
  rw [runOps_cons e₁, runOps_cons e₂, runOps_cons e₃, runOps_cons e₄, runOps_cons e₅, runOps_cons e₆]
  rfl

/-- `FRAMECK` and `UNPACK` of frames with right checksums append what they unpack to; besides, only the latest checksum
changes. -/
theorem runOps_frames {frames : List Frame} (hf : ∀ w ∈ frames, w.fck = cksum w.covered) (s : State) :
    ∃ ck, runOps (frames.flatMap fun w => [.frameck w, .unpack w]) s =
      .next { s with work := { s.work with ck := ck, d := s.work.d ++ frames.flatMap unpackBytes } } := by
  induction frames generalizing s with
  | nil => exact ⟨s.work.ck, by rw [List.flatMap_nil, List.flatMap_nil, List.append_nil]; rfl⟩
  | cons w rest ih =>
    obtain ⟨hw, hrest⟩ := List.forall_mem_cons.mp hf
    have e₁ : exec (.frameck w) s = .next (cksumOp w.covered s) := congrArg Progress.outcome (if_pos hw)
    obtain ⟨ck, hrun⟩ := ih hrest
      { s with work := { s.work with ck := cksum w.covered, d := s.work.d ++ unpackBytes w } }
    refine ⟨ck, ?_⟩
    rw [List.flatMap_cons, List.flatMap_cons, ← List.append_assoc]
    exact (runOps_cons e₁).trans ((runOps_cons rfl).trans hrun)

/-- The `FIELD` operation of an active slot, on decoded bytes that hold its field, gives the slot's value
(spec/44_field_mapper.md R168). -/
theorem exec_field {p : Params} {w : DescWord} {i : Instr} {s : State} (hdec : decodeDescriptor p w = .ok i)
    (hfit : fieldEnd (descField w) ≤ s.work.d.length) :
    exec i s = .next (pushField (slotValue s.work.d w) s) := by
  obtain ⟨hv, -, -, rfl⟩ := decodeDescriptor_eq_ok.mp hdec
  have hread (raw : Int) : readField (descField w) raw s = .goOn (pushField ⟨true, raw⟩ s) := if_pos hfit
  have hactive : ¬descValid w = false := by rw [hv]; decide
  rw [slotValue, if_neg hactive, fieldInstr]
  split
  case isTrue => exact congrArg Progress.outcome (hread _)
  case isFalse => exact congrArg Progress.outcome (hread _)

/-- What an evaluation that ends in `ACCEPT` has found, for the header and the payload in the buffer. -/
theorem passed_of_accept {s t : State} {c : Candidate} {h : Header} {payload : List Byte} (ha : AtClosing s c)
    (hh : s.fetchHeader = some h) (hp : s.fetchPayload h.n = some payload) (ht : exec .sync s = .next t)
    (hev : t.out.event = .accept) :
    h.ver = s.cfg.version ∧ h.cmd = s.cfg.command ∧ h.hck = lowByte (cksum h.covered) ∧ s.len = 9 + 6 * h.n.toNat ∧
      ∃ d, payloadDecode h.n.toNat payload = .ok d ∧ reqBytes s.cfg.ft ≤ d.length ∧
        t = takeAccept h d (s.cfg.ft.map (slotValue d)) s := by
  rw [exec_sync_eq_candidateOp ha] at ht
  rcases candidateOp_next ha.config ht with ⟨code, -, -, rfl⟩ | ⟨h', -, -, rfl⟩ | ⟨h', payload', diag, -, -, -, rfl⟩ |
    ⟨hd, h', payload', d, hhd, hv, hh', hc, hk, hl, hp', hd', hr, rfl⟩
  · rw [takeReject_out] at hev
    cases hev
  · rw [takeReject_out] at hev
    cases hev
  · rw [takeReject_out] at hev
    cases hev
  · obtain rfl := Option.some.inj (hh.symm.trans hh')
    obtain rfl := Option.some.inj (hp.symm.trans hp')
    have hver : h.ver = s.cfg.version := by
      obtain ⟨bytes, hbytes, hparse⟩ := fetchHeader_eq_some.mp hh
      obtain rfl := parseHeader_eq_ok.mp hparse
      obtain rfl := Option.some.inj (hhd.symm.trans (fetch_of_headerBytes hbytes).1)
      exact hv
    exact ⟨hver, hc, hk, hl, d, hd', hr, rfl⟩

/-- A payload that decodes has every byte below 0x80 (spec/43_payload_decoder.md R141). -/
theorem low_of_payloadDecode {n : Nat} {payload d : List Byte} (h : payloadDecode n payload = .ok d) :
    ∀ b ∈ payload, b.toNat < 0x80 := by
  unfold payloadDecode at h
  split at h
  case isTrue => cases h
  case isFalse hany => simpa using hany

/-- Settles O36: an accepted record has passed every check, its payload is wire frames with right checksums, and each
operation of its run completes. -/
theorem acceptedRecordIsTheRunOfItsOperations : Obligations.AcceptedRecordIsTheRunOfItsOperations := by
  intro s t c h payload ha hh hp ht hev
  obtain ⟨hv, hc, hk, hl, d, hd, hr, rfl⟩ := passed_of_accept ha hh hp ht hev
  have hlow := low_of_payloadDecode hd
  obtain ⟨frames, hn, rfl⟩ := exists_frames (fetchPayload_length hp) hlow
  have hdlen := payloadDecode_length _ _ _ hd
  obtain ⟨hf, rfl⟩ := payloadDecode_frames.mp (hn ▸ hd)
  obtain ⟨ck, hrun⟩ := runOps_frames hf (cksumOp h.covered { s with work := {} })
  refine ⟨frames, _, hn, fun i w hw => parseFrame_eq_ok.mpr (wireFrame_flatMap_bytes hw).symm,
    (runOps_append (runOps_headerChecks (s := { s with work := {} }) hv hc hk hl hlow)).trans hrun, ?_, fun i hi => ?_,
    fun k w i hw hdec => ?_⟩
  · exact (takeAccept_resDbLen_toNat h _ _ s).trans hdlen.symm
  · exact read_takeAccept_resDb h _ s hi
  · obtain ⟨hactive, -⟩ := decodeDescriptor_eq_ok.mp hdec
    have hfit := reqBytes_le_iff.mp hr w (List.mem_of_getElem? hw) hactive
    refine ⟨slotValue (frames.flatMap unpackBytes) w, ?_, exec_field hdec hfit⟩
    rw [takeAccept_fv, List.getElem?_map, hw]
    rfl

/-! ### The pseudo-operations of the test bench (R82) -/

/-- A byte is its septet with its own bit 7. -/
theorem restoreByte_septetOf (b : Byte) : restoreByte (septetOf b) (b.getLsbD 7) = b := by
  have hb := b.isLt
  apply BitVec.eq_of_toNat_eq
  rw [restoreByte_toNat, septetOf_toNat]
  cases h7 : b.getLsbD 7 with
  | true =>
    have := (bit7_iff b).mp h7
    rw [Bool.toNat_true]
    omega
  | false =>
    have : ¬0x80 ≤ b.toNat := mt (bit7_iff b).mpr (Bool.eq_false_iff.mp h7)
    rw [Bool.toNat_false]
    omega

/-- Four bits in a row are each at their index. -/
theorem getLsbD_fourBits (b0 b1 b2 b3 : Bool) :
    let mask : BitVec 4 := BitVec.ofBool b3 ++ BitVec.ofBool b2 ++ BitVec.ofBool b1 ++ BitVec.ofBool b0
    mask.getLsbD 0 = b0 ∧ mask.getLsbD 1 = b1 ∧ mask.getLsbD 2 = b2 ∧ mask.getLsbD 3 = b3 := by
  revert b0 b1 b2 b3
  decide

/-- `UNPACK` gives back the four bytes that `ENC4` packed (spec/43_payload_decoder.md R146). -/
theorem unpackBytes_encodeFrame (d0 d1 d2 d3 : Byte) : unpackBytes (encodeFrame d0 d1 d2 d3) = [d0, d1, d2, d3] := by
  obtain ⟨h0, h1, h2, h3⟩ := getLsbD_fourBits (d0.getLsbD 7) (d1.getLsbD 7) (d2.getLsbD 7) (d3.getLsbD 7)
  simp only [unpackBytes, encodeFrame, h0, h1, h2, h3, restoreByte_septetOf]

/-- The checksum that `ENC4` stores is right. -/
theorem encodeFrame_fck (d0 d1 d2 d3 : Byte) :
    (encodeFrame d0 d1 d2 d3).fck = cksum (encodeFrame d0 d1 d2 d3).covered := rfl

/-- `ENC4` of each four data bytes makes wire frames with right checksums that unpack to the data. -/
theorem encodePayload_frames {n : Nat} {data : List Byte} (hl : data.length = 4 * n) :
    ∃ frames : List Frame, frames.length = n ∧ encodePayload data = frames.flatMap Frame.bytes ∧
      (∀ w ∈ frames, w.fck = cksum w.covered) ∧ frames.flatMap unpackBytes = data := by
  induction n generalizing data with
  | zero =>
    obtain rfl := List.length_eq_zero_iff.mp hl
    exact ⟨[], rfl, rfl, List.forall_mem_nil _, rfl⟩
  | succ n ih =>
    match data, hl with
    | d0 :: d1 :: d2 :: d3 :: rest, hl =>
      obtain ⟨frames, hn, henc, hf, hu⟩ := ih (data := rest) (by simpa [Nat.mul_succ] using hl)
      refine ⟨encodeFrame d0 d1 d2 d3 :: frames, congrArg Nat.succ hn, ?_,
        List.forall_mem_cons.mpr ⟨encodeFrame_fck d0 d1 d2 d3, hf⟩, ?_⟩
      · rw [encodePayload, henc, List.flatMap_cons]
        rfl
      · rw [List.flatMap_cons, unpackBytes_encodeFrame, hu]
        rfl

/-- The operands that an evaluation finds in a buffer that holds a header and wire frames. -/
theorem fetch_of_recordBytes {s : State} {h : Header} {frames : List Frame} {len : Nat} (hn : frames.length = h.n.toNat)
    (ha : AtClosing s ⟨len, h.bytes ++ frames.flatMap Frame.bytes⟩) :
    s.rbRange 0 hdrLen = some h.bytes ∧ s.fetchPayload h.n = some (frames.flatMap Frame.bytes) := by
  have hhdr : h.bytes.length = hdrLen := rfl
  have hplen : (frames.flatMap Frame.bytes).length = frameLen * h.n.toNat :=
    hn ▸ length_flatMap_of_length frameBytes_length _
  have hvalid : hdrLen + frameLen * h.n.toNat = s.validLen := by
    rw [← (candidate_read ha.candidate).1, List.length_append, hplen, hhdr]
  constructor
  · rw [candidate_rbRange ha.candidate _ _ (by omega), List.drop_zero, List.take_left' hhdr]
  · rw [State.fetchPayload, candidate_rbRange ha.candidate _ _ hvalid.le, List.drop_left' hhdr, ← hplen,
      List.take_length]

/-- The closing delimiter of a right header with right wire frames behind it, long enough for every active field,
latches the header and what the frames unpack to. -/
theorem exec_sync_record {s : State} {h : Header} {frames : List Frame} (hv : h.ver = s.cfg.version)
    (hc : h.cmd = s.cfg.command) (hk : h.hck = lowByte (cksum h.covered)) (hn : frames.length = h.n.toNat)
    (hf : ∀ w ∈ frames, w.fck = cksum w.covered) (hr : reqBytes s.cfg.ft ≤ 4 * h.n.toNat)
    (ha : AtClosing s ⟨9 + 6 * h.n.toNat, h.bytes ++ frames.flatMap Frame.bytes⟩) :
    exec .sync s =
      .next (takeAccept h (frames.flatMap unpackBytes) (s.cfg.ft.map (slotValue (frames.flatMap unpackBytes))) s) := by
  obtain ⟨hheader, hpayload⟩ := fetch_of_recordBytes hn ha
  obtain ⟨hhd, hh, h9⟩ := fetch_of_headerBytes hheader
  have hl : s.len = 9 + 6 * h.n.toNat := (candidate_bytes ha.candidate).1.symm
  rw [exec_sync_eq_candidateOp ha, candidateOp_eq_headerOp hhd hv h9 hh,
    headerOp_outcome_frames ha.config hc hk hl hpayload hn hf hr]

/-- Settles O37: `HDR` makes a right header and `ENC4` right wire frames that unpack to the data. -/
theorem encodedRecordDecodesToItsData : Obligations.EncodedRecordDecodesToItsData := by
  intro s dst src data n hlen hn ha hreq
  obtain ⟨frames, hframes, henc, hf, rfl⟩ := encodePayload_frames hlen
  have hcount : (BitVec.ofNat 8 ((frames.flatMap unpackBytes).length / 4)).toNat = n := by
    rw [BitVec.toNat_ofNat]
    omega
  rw [record, henc, ← hcount] at ha
  have hexec := exec_sync_record (s := s)
    (h := makeHeader dst src s.cfg.version s.cfg.command (BitVec.ofNat 8 _)) rfl rfl rfl (hframes.trans hcount.symm) hf
    (hreq.trans_eq (congrArg (4 * ·) hcount.symm)) ha
  refine ⟨_, hexec, rfl, rfl, rfl, rfl, rfl, rfl, hcount, ?_, fun i hi => ?_, rfl⟩
  · exact (takeAccept_resDbLen_toNat _ _ _ s).trans (congrArg (4 * ·) hcount)
  · exact read_takeAccept_resDb _ _ s (hlen ▸ hi)

end Sys2Proof.Proofs
end

section
/-!
PROOFS. spec/40_checksum.md: the closed form of the checksum and its consequences.
-/
namespace Sys2Proof.Proofs
open Sys2Proof.Machine

/-! ### Running subtraction is subtraction of the sum (R91) -/

/-- Reduction modulo 128 commutes with subtraction, so a fold whose step subtracts one byte modulo 128 subtracts the sum.
The accumulator is any type with a value, so that one induction serves the 8-bit register and every other width. -/
theorem foldl_subtract_eq {α : Type} {val : α → Nat} {f : α → Byte → α}
    (hf : ∀ acc b, (val (f acc b) : Int) = (val acc - b.toNat) % 128) (bytes : List Byte) {acc : α} (hacc : val acc < 128) :
    (val (bytes.foldl f acc) : Int) = (val acc - ((bytes.map (·.toNat)).sum : Nat)) % 128 := by
  induction bytes generalizing acc with
  | nil =>
    rw [List.foldl_nil, List.map_nil, List.sum_nil]
    omega
  | cons b bytes ih =>
    have hstep := hf acc b
    have hrest := ih (acc := f acc b) (by omega)
    rw [List.foldl_cons, hrest, List.map_cons, List.sum_cons]
    omega

/-- The 8-bit accumulator of R90 subtracts modulo 128, because 128 divides 256. -/
theorem cksumStep_toNat_int (acc b : Byte) : ((cksumStep acc b).toNat : Int) = (acc.toNat - b.toNat) % 128 := by
  have hb := b.isLt
  rw [cksumStep_toNat]
  omega

/-- So does an accumulator of any other modulus that 128 divides. -/
theorem wrapped_subtract_mod {m : Nat} (hpos : 0 < m) (hm : 128 ∣ m) (acc b : Nat) :
    (((acc + m - b % m) % m % 128 : Nat) : Int) = (acc - b) % 128 := by
  have hlt : b % m < m := Nat.mod_lt b hpos
  have hb : b % m % 128 = b % 128 := Nat.mod_mod_of_dvd b hm
  rw [Nat.mod_mod_of_dvd _ hm]
  omega

/-- The closed form of the checksum (R91). -/
theorem cksum_toNat (bytes : List Byte) :
    ((cksum bytes).toNat : Int) = (127 - ((bytes.map (·.toNat)).sum : Nat)) % 128 := by
  have hfold := foldl_subtract_eq cksumStep_toNat_int bytes (acc := ckInit) (by decide)
  have hinit : ckInit.toNat = 127 := rfl
  rw [cksum, septetOf_toNat]
  omega

/-! ### The consequences of the closed form (R91) -/

/-- Consequence (a): only the sum modulo 128 matters. -/
theorem cksum_eq_of_sum_mod_eq {xs ys : List Byte}
    (h : (xs.map (·.toNat)).sum % 128 = (ys.map (·.toNat)).sum % 128) : cksum xs = cksum ys := by
  have hx := cksum_toNat xs
  have hy := cksum_toNat ys
  apply BitVec.eq_of_toNat_eq
  omega

/-- Consequence (a) for a permutation, which keeps the sum itself. -/
theorem cksum_perm {xs ys : List Byte} (h : xs.Perm ys) : cksum xs = cksum ys :=
  cksum_eq_of_sum_mod_eq (congrArg (· % 128) (h.map _).sum_eq)

/-- Setting bit 7 of a byte adds 128 or nothing. -/
theorem toNat_or_bit7_mod (b : Byte) : (b ||| 0x80#8).toNat % 128 = b.toNat % 128 := by
  rw [BitVec.toNat_or]
  exact (Nat.or_mod_two_pow (n := 7)).trans (Nat.or_zero _)

/-- Consequence (b): bit 7 of a covered byte is not protected. -/
theorem cksum_or_bit7 (front back : List Byte) (b : Byte) :
    cksum (front ++ (b ||| 0x80#8) :: back) = cksum (front ++ b :: back) := by
  apply cksum_eq_of_sum_mod_eq
  have hb := toNat_or_bit7_mod b
  simp only [List.map_append, List.map_cons, List.sum_append, List.sum_cons]
  omega

/-- Consequence (c): the checksum completes the sum to 127 modulo 128. -/
theorem cksum_add_sum_mod (bytes : List Byte) : ((cksum bytes).toNat + (bytes.map (·.toNat)).sum) % 128 = 127 := by
  have := cksum_toNat bytes
  omega

/-- Consequence (d): the appended checksum completes the sum to 127 modulo 128, which leaves 0. -/
theorem cksum_append_cksum (bytes : List Byte) : cksum (bytes ++ [(cksum bytes).setWidth 8]) = 0#7 := by
  have hall := cksum_toNat (bytes ++ [(cksum bytes).setWidth 8])
  have hsum := cksum_add_sum_mod bytes
  have hbyte : ((cksum bytes).setWidth 8).toNat = (cksum bytes).toNat :=
    BitVec.toNat_setWidth_of_le (by decide)
  rw [List.map_append, List.sum_append, List.map_singleton, List.sum_singleton, hbyte] at hall
  apply BitVec.eq_of_toNat_eq
  rw [BitVec.toNat_ofNat]
  omega

/-- The accumulator's width is immaterial from 7 bits on, because 128 divides its modulus. -/
theorem foldl_width_eq_cksum (bytes : List Byte) {width : Nat} (h : 7 ≤ width) :
    bytes.foldl (fun acc b => (acc + 2 ^ width - b.toNat % 2 ^ width) % 2 ^ width % 128) 127 = (cksum bytes).toNat := by
  have hfold := foldl_subtract_eq (val := id)
    (fun acc b => wrapped_subtract_mod (Nat.two_pow_pos width) (pow_dvd_pow 2 h) acc b.toNat) bytes (acc := 127) (by decide)
  exact Int.ofNat_inj.mp (hfold.trans (cksum_toNat bytes).symm)

/-- Settles O15: the closed form, and each consequence read off it. -/
theorem checksumClosedFormAndConsequences : Obligations.ChecksumClosedFormAndConsequences := by
  intro bytes
  refine ⟨cksum_toNat bytes, fun _ => cksum_eq_of_sum_mod_eq, fun _ => cksum_perm, ?_, cksum_add_sum_mod bytes,
    cksum_append_cksum bytes, fun _ => foldl_width_eq_cksum bytes⟩
  rintro front back b rfl
  exact cksum_or_bit7 front back b

/-! ### The operation `CKSUM` (R90) -/

/-- Settles O14: the operation writes the checksum and nothing else, and the checksum has the closed form. -/
theorem checksumIsTheSumModulo128 : Obligations.ChecksumIsTheSumModulo128 :=
  fun bytes s => ⟨cksumOp bytes s, rfl, rfl, cksum_toNat bytes⟩

end Sys2Proof.Proofs
end

section
/-!
PROOFS. spec/41_frame_sync.md: what the synchronizer does with each byte, the closing delimiter of a candidate against
`DecodeCandidate`, the over-long segment, and the events of a whole stream.
-/
namespace Sys2Proof.Proofs
open Sys2Proof.Machine

/-! ### A byte that is no delimiter (R102, R104) -/

/-- In `HUNT` a data byte is discarded (R102). -/
theorem dataByte_hunt {s : State} (hs : s.syncState = .hunt) (b : Byte) : dataByte b s = endStep silent s := by
  simp only [dataByte, hs]

/-- In `COLLECT` a data byte is appended (R104). -/
theorem dataByte_collect {s : State} (hs : s.syncState = .collect) (b : Byte) :
    dataByte b s = endStep silent (appendByte b s) := by
  simp only [dataByte, hs]

/-- A data byte does not move the synchronizer (R112). -/
theorem dataByte_syncState (b : Byte) (s : State) : (dataByte b s).syncState = s.syncState := by
  unfold dataByte
  split <;> rfl

/-- The end of a step with no event moves nothing but the ports and the model's own fields. -/
theorem silentEnd_endStep (s : State) : SilentEnd s (endStep silent s) := rfl

/-- An appended byte stands at `RB[LEN]` when there is room (R104). -/
theorem read_appendByte_same {s : State} (hl : s.len < s.params.rbCap) (b : Byte) :
    Memory.read (appendByte b s).rb s.len = some b := by
  rw [appendByte_rb, if_pos hl, Memory.read_write_same]

/-- Every other byte stays as it was, and in a full buffer every byte does (R104). -/
theorem read_appendByte_other {s : State} {a : Nat} (ha : a ≠ s.len ∨ s.params.rbCap ≤ s.len) (b : Byte) :
    Memory.read (appendByte b s).rb a = Memory.read s.rb a := by
  rw [appendByte_rb]
  split
  case isTrue hl => exact Memory.read_write_other _ _ (ha.resolve_right (Nat.not_le.mpr hl))
  case isFalse => rfl

/-- A data byte in `COLLECT` leaves what R104 says. -/
theorem appended_dataByte {s : State} (hs : s.syncState = .collect) (b : Byte) : Appended b s (dataByte b s) := by
  rw [dataByte_collect hs]
  exact ⟨rfl, rfl, fun hl => read_appendByte_same hl b, fun _ ha => read_appendByte_other ha b⟩

/-- Settles O5: both operations are the data byte, which `HUNT` discards. -/
theorem dataByteInHuntIsDiscarded : Obligations.DataByteInHuntIsDiscarded := by
  intro s hs
  have hdata : ∀ b, SilentEnd s (dataByte b s) := fun b => by
    rw [dataByte_hunt hs]
    exact silentEnd_endStep s
  exact ⟨fun d => ⟨_, rfl, hdata (lowByte d)⟩, fun x => ⟨_, rfl, hdata (highByte x)⟩⟩

/-- Settles O6: the byte of `SEPTET` is the septet, that of `HIGH` the septet with bit 7 set, and each is appended. -/
theorem dataByteInCollectIsAppended : Obligations.DataByteInCollectIsAppended := fun _ hs =>
  ⟨fun d => ⟨lowByte d, lowByte_toNat d, _, rfl, appended_dataByte hs _⟩,
    fun x => ⟨highByte x, highByte_toNat x, _, rfl, appended_dataByte hs _⟩⟩

/-! ### The delimiter that closes no candidate (R103, R105) -/

/-- The first delimiter opens the first segment (R103). -/
theorem execSync_hunt {s : State} (hs : s.syncState = .hunt) :
    execSync s = .next (endStep silent { s with syncState := .collect, len := 0 }) := by
  simp only [execSync, hs]

/-- A delimiter drops a segment of fewer than 5 bytes (R105). -/
theorem execSync_short {s : State} (hs : s.syncState = .collect) (hl : s.len < 5) :
    execSync s = .next (endStep silent { s with len := 0 }) := by
  have h5 : s.len < minSeg := hl
  simp only [execSync, hs, if_pos h5]

/-- Every delimiter leaves the block in `COLLECT` (R112). -/
theorem execSync_syncState {s t : State} (h : execSync s = .next t) : t.syncState = .collect := by
  rcases execSync_next h with ⟨-, rfl⟩ | ⟨hs, -, rfl⟩ | ⟨hs, -, ⟨code, diag, -, rfl⟩ | ⟨hdr, d, fv, rfl⟩⟩
  · rfl
  · exact hs
  · rw [takeReject_syncState, hs]
  · exact hs

/-- Settles O7: by what `SYNC` does in `HUNT`. -/
theorem firstDelimiterOpensASegment : Obligations.FirstDelimiterOpensASegment :=
  fun _ hs => ⟨_, execSync_hunt hs, silentEnd_endStep _⟩

/-- Settles O8: by what `SYNC` does with a short segment. -/
theorem shortSegmentIsDroppedSilently : Obligations.ShortSegmentIsDroppedSilently :=
  fun _ hs hl => ⟨_, execSync_short hs hl, silentEnd_endStep _⟩

/-- A step out of reset that takes a delimiter ends in `COLLECT`; every other one leaves the synchronizer where it was
(R112). -/
theorem step_syncState {s t : State} (h : step s = .next t) (hr : s.presented.rst = false) :
    ((s.presented.inValid = true ∧ s.presented.inByte = delim) ∧ t.syncState = .collect) ∨
    (¬(s.presented.inValid = true ∧ s.presented.inByte = delim) ∧ t.syncState = s.syncState) := by
  rcases step_next h with ⟨hr', -⟩ | ⟨-, -, -, ⟨hin, rfl⟩ | ⟨-, hb, rfl⟩ | ⟨hin, hb, hx⟩⟩
  · cases hr.symm.trans hr'
  · exact .inr ⟨fun hd => (by cases hin.symm.trans hd.1), rfl⟩
  · exact .inr ⟨fun hd => hb hd.2, dataByte_syncState _ s⟩
  · exact .inl ⟨⟨hin, hb⟩, execSync_syncState hx⟩

/-- Settles O10: the delimiter ends in `COLLECT`, and nothing else moves the synchronizer. -/
theorem onlyADelimiterLeavesHunt : Obligations.OnlyADelimiterLeavesHunt := by
  intro s t h hr
  rcases step_syncState h hr with ⟨hd, ht⟩ | ⟨hd, ht⟩
  · exact ⟨fun _ => ht, fun _ => ⟨fun _ => hd, fun _ => ht⟩⟩
  · refine ⟨fun hs => ht.trans hs, fun hs => ⟨fun hc => ?_, fun hd' => absurd hd' hd⟩⟩
    cases hs.symm.trans (ht.symm.trans hc)

/-! ### The delimiter that closes a candidate (R106, R107) -/

/-- Settles O9: the evaluation applies `DecodeCandidate`'s result, and each of the two entries makes its writes. -/
theorem closingDelimiterRefinesDecodeCandidate : Obligations.ClosingDelimiterRefinesDecodeCandidate := by
  intro s c ha
  refine ⟨_, exec_sync_closing ha, ?_⟩
  cases decodeCandidate s.cfg c with
  | error r => exact rejectWrites_takeReject r.code r.diag s
  | ok a => exact acceptWrites_takeAccept a.header a.d a.fv s

/-- A candidate longer than any record fails `HV5` at the latest, because `9 + 6*N` is at most 1539 for a byte `N`: its
payload is never looked at (R107; spec/42_header_validator.md R125). -/
theorem headerValidate_overlong (cfg : Config) {c : Candidate} (hl : 1539 < c.len) :
    headerValidate cfg c =
      if c.byte 4 ≠ cfg.version then .error ⟨.badVersion, none⟩
      else if joinBytes (c.byte 5) (c.byte 6) ≠ cfg.command then .error ⟨.badCommand, none⟩
      else if c.byte 8 ≠ lowByte (cksum (c.bytes.take 8)) then
        .error ⟨.hdrChecksum, some ⟨cksum (c.bytes.take 8), c.byte 8, .header, 0#8⟩⟩
      else .error ⟨.length, none⟩ := by
  have hn := (c.byte 7).isLt
  rw [headerValidate, if_neg (show ¬c.len < 9 by omega), if_pos (show c.len ≠ 9 + 6 * (c.byte 7).toNat by omega)]

/-- So it is rejected, with code 1, 3, 4 or 5 (R107). -/
theorem decodeCandidate_overlong (cfg : Config) {c : Candidate} (hl : 1539 < c.len) :
    ∃ r, decodeCandidate cfg c = .error r ∧
      (r.code = .badVersion ∨ r.code = .badCommand ∨ r.code = .hdrChecksum ∨ r.code = .length) := by
  have hval := headerValidate_overlong cfg hl
  split_ifs at hval
  · exact ⟨_, decodeCandidate_of_headerError hval, .inl rfl⟩
  · exact ⟨_, decodeCandidate_of_headerError hval, .inr (.inl rfl)⟩
  · exact ⟨_, decodeCandidate_of_headerError hval, .inr (.inr (.inl rfl))⟩
  · exact ⟨_, decodeCandidate_of_headerError hval, .inr (.inr (.inr rfl))⟩

/-- A kept byte is the segment's. -/
theorem byte_take {bytes : List Byte} {n i : Nat} (hi : i < n) (len len' : Nat) :
    (Candidate.mk len (bytes.take n)).byte i = (Candidate.mk len' bytes).byte i := by
  simp only [Candidate.byte, List.getD_eq_getElem?_getD, List.getElem?_take_of_lt hi]

/-- The first nine bytes decide about an over-long candidate, so what was kept of a segment gives its result (R107). -/
theorem decodeCandidate_kept_overlong (cfg : Config) {whole : List Byte} {len n : Nat} (hl : 1539 < len) (hn : 9 ≤ n)
    (hw : 1539 < whole.length) :
    decodeCandidate cfg ⟨len, whole.take n⟩ = decodeCandidate cfg ⟨whole.length, whole⟩ := by
  have hbyte : ∀ i, i < 9 → (Candidate.mk len (whole.take n)).byte i = (Candidate.mk whole.length whole).byte i :=
    fun i hi => byte_take (Nat.lt_of_lt_of_le hi hn) _ _
  have hval : headerValidate cfg ⟨len, whole.take n⟩ = headerValidate cfg ⟨whole.length, whole⟩ := by
    rw [headerValidate_overlong cfg hl, headerValidate_overlong cfg hw, hbyte 4 (by decide), hbyte 5 (by decide),
      hbyte 6 (by decide), hbyte 8 (by decide), List.take_take, Nat.min_eq_left (show 8 ≤ n by omega)]
  rcases decodeCandidate_cases cfg ⟨whole.length, whole⟩ with ⟨r, hr, e⟩ | ⟨payload, hok, -⟩
  · rw [e, decodeCandidate_of_headerError (hval.trans hr)]
  · rw [headerValidate_overlong cfg hw] at hok
    split_ifs at hok

/-- Settles O12: the whole segment is rejected, and the kept part gives the same rejection. -/
theorem overlongSegmentGetsTheUnboundedResult : Obligations.OverlongSegmentGetsTheUnboundedResult := by
  rintro s _ whole - ha hw rfl
  obtain ⟨r, hr, hcode⟩ := decodeCandidate_overlong s.cfg (c := ⟨whole.length, whole⟩) hw
  have hkept : decodeCandidate s.cfg ⟨1540, whole.take 1539⟩ = .error r :=
    (decodeCandidate_kept_overlong s.cfg (by decide) (by decide) hw).trans hr
  refine ⟨_, r, exec_sync_closing ha, hr, hcode, ?_⟩
  rw [hkept]
  exact rejectWrites_takeReject r.code r.diag s

/-- With `MAX_N = 255` a segment that fits the buffer is kept whole, and an over-long one is evaluated as if it were
(R107). -/
theorem decodeCandidate_keptCandidate {p : Params} (hp : p.maxN = 255) (cfg : Config) (piece : List Byte) :
    decodeCandidate cfg (keptCandidate p piece) = decodeCandidate cfg ⟨piece.length, piece⟩ := by
  have hcap : p.rbCap = 1539 := by rw [Params.rbCap, hp, hdrLen, frameLen]
  rw [keptCandidate, hcap]
  by_cases hl : piece.length ≤ 1539
  · rw [Nat.min_eq_left (by omega), List.take_of_length_le hl]
  · exact decodeCandidate_kept_overlong cfg (by omega) (by decide) (by omega)

/-! ### The result of an evaluation at the ports -/

/-- The event of an evaluation is that of its result (R106). -/
theorem applyResult_event (r : Except Rejection Acceptance) (s : State) :
    (applyResult r s).out.event = eventOf r := by
  cases r with
  | error r => rw [applyResult, takeReject_out, eventOf]
  | ok a => rfl

/-- The result of an evaluation is an event other than `NONE` (R106). -/
theorem eventOf_ne_none (r : Except Rejection Acceptance) : eventOf r ≠ .none := by
  cases r <;> exact Event.noConfusion

/-- Whatever its result, an evaluation leaves the parameters, the configuration and the synchronizer, empties the segment
and takes the sample (spec/60_exceptions.md R190, R191). -/
theorem applyResult_unchanged (r : Except Rejection Acceptance) (s : State) :
    (applyResult r s).params = s.params ∧ (applyResult r s).cfg = s.cfg ∧
      (applyResult r s).syncState = s.syncState ∧ (applyResult r s).len = 0 ∧
      (applyResult r s).input = s.input.tail := by
  cases r with
  | error r =>
    simp only [applyResult, takeReject_params, takeReject_cfg, takeReject_syncState, takeReject_len, takeReject_input,
      and_self]
  | ok a => exact ⟨rfl, rfl, rfl, rfl, rfl⟩

/-! ### A stream cut at the delimiters (R108) -/

/-- The pieces of a stream that follows the bytes `segment` of a segment already begun. -/
def piecesFrom (segment bytes : List Byte) : List (List Byte) := (bytes.splitOn delim).modifyHead (segment ++ ·)

/-- At the start of a segment these are the pieces of the stream. -/
theorem piecesFrom_empty (bytes : List Byte) : piecesFrom [] bytes = bytes.splitOn delim :=
  congrFun List.modifyHead_id _

theorem piecesFrom_nil (segment : List Byte) : piecesFrom segment [] = [segment] := by
  rw [piecesFrom, List.splitOn_nil, List.modifyHead_cons, List.append_nil]

/-- A delimiter ends the piece. -/
theorem piecesFrom_delim (segment rest : List Byte) :
    piecesFrom segment (delim :: rest) = segment :: piecesFrom [] rest := by
  rw [piecesFrom_empty, piecesFrom, List.splitOn_cons_eq_if_modifyHead, if_pos (beq_self_eq_true _),
    List.modifyHead_cons, List.append_nil]

/-- Any other byte belongs to it. -/
theorem piecesFrom_data {b : Byte} (hb : b ≠ delim) (segment rest : List Byte) :
    piecesFrom segment (b :: rest) = piecesFrom (segment ++ [b]) rest := by
  rw [piecesFrom, List.splitOn_cons_eq_if_modifyHead, if_neg (by simpa using hb), List.modifyHead_modifyHead, piecesFrom]
  congr 1
  exact funext fun piece => List.append_cons segment b piece

theorem piecesFrom_ne_nil (segment bytes : List Byte) : piecesFrom segment bytes ≠ [] :=
  mt List.modifyHead_eq_nil_iff.mp (List.splitOn_ne_nil _ _)

/-- The results of `DecodeCandidate` on the pieces of 5 bytes or more, each as the buffer keeps it (R108). -/
def resultsOf (p : Params) (c : Config) (pieces : List (List Byte)) : List Event :=
  (pieces.filter fun piece => decide (5 ≤ piece.length)).map fun piece =>
    eventOf (decodeCandidate c (keptCandidate p piece))

/-- A piece of 5 bytes or more has one result. -/
theorem resultsOf_long {p : Params} {c : Config} {piece : List Byte} (hl : 5 ≤ piece.length) :
    resultsOf p c [piece] = [eventOf (decodeCandidate c (keptCandidate p piece))] := by
  rw [resultsOf, List.filter_singleton, decide_eq_true hl, cond_true, List.map_singleton]

/-- A shorter piece has none. -/
theorem resultsOf_short {p : Params} {c : Config} {piece : List Byte} (hl : ¬5 ≤ piece.length) :
    resultsOf p c [piece] = [] := by
  rw [resultsOf, List.filter_singleton, decide_eq_false hl, cond_false, List.map_nil]

theorem resultsOf_cons (p : Params) (c : Config) (piece : List Byte) (pieces : List (List Byte)) :
    resultsOf p c (piece :: pieces) = resultsOf p c [piece] ++ resultsOf p c pieces := by
  rw [resultsOf, resultsOf, resultsOf, ← List.map_append, ← List.filter_append, List.singleton_append]

/-- The events of a run that are not `NONE`. -/
def shownEvents (events : List Event) : List Event := events.filter fun e => decide (e ≠ .none)

theorem shownEvents_singleton {e : Event} (he : e ≠ .none) : shownEvents [e] = [e] := by
  rw [shownEvents, List.filter_singleton, decide_eq_true he, cond_true]

theorem shownEvents_cons (e : Event) (events : List Event) :
    shownEvents (e :: events) = shownEvents [e] ++ shownEvents events := by
  rw [shownEvents, shownEvents, shownEvents, ← List.filter_append, List.singleton_append]

theorem shownEvents_append (front back : List Event) :
    shownEvents (front ++ back) = shownEvents front ++ shownEvents back := List.filter_append _ _

/-- Steps with no event show nothing. -/
theorem shownEvents_replicate_none (n : Nat) : shownEvents (List.replicate n .none) = [] :=
  List.filter_replicate_of_neg (by decide)

/-! ### Runs -/

/-- A run that begins with a step. -/
theorem eventsOf_succ {n : Nat} {s t u : State} {events : List Event} (h : step s = .next t)
    (hrun : eventsOf n t = some (events, u)) : eventsOf (n + 1) s = some (t.out.event :: events, u) := by
  simp only [eventsOf, h, hrun]

/-- One run after another. -/
theorem eventsOf_add {m n : Nat} {s t u : State} {front back : List Event} (hm : eventsOf m s = some (front, t))
    (hn : eventsOf n t = some (back, u)) : eventsOf (m + n) s = some (front ++ back, u) := by
  induction m generalizing s front with
  | zero =>
    cases hm
    rwa [Nat.zero_add]
  | succ m ih =>
    rw [eventsOf] at hm
    split at hm
    case h_1 v hstep =>
      split at hm
      case h_1 events w hrun =>
        cases hm
        rw [Nat.succ_add]
        exact eventsOf_succ hstep (ih hrun)
      case h_2 => cases hm
    case h_2 => cases hm
    case h_3 => cases hm

/-- A byte at the port of a well-configured block runs its operation (spec/10_state.md R11). -/
theorem step_byte {s : State} {b : Byte} {more : List Sample} (hin : s.input = Sample.byte b :: more)
    (hc : configWf s.params s.cfg = true) : step s = exec (decodeByte b) s := by
  have hp : s.presented = Sample.byte b := by rw [State.presented, hin, List.headD_cons]
  rw [step_eq_of_lawful (by rw [hp]; rfl) (by rw [hp]; rfl) hc, hp]
  rfl

/-! ### The block between two bytes of a stream -/

/-- No delimiter has come since reset (R102). -/
structure Hunting (p : Params) (c : Config) (s : State) : Prop where
  params : s.params = p
  cfg : s.cfg = c
  hunting : s.syncState = .hunt
  empty : s.len = 0

/-- Since the latest delimiter the bytes `segment` have come: `LEN` is their saturated count, and the valid part of the
buffer holds the first of them (R104). -/
structure Collecting (p : Params) (c : Config) (segment : List Byte) (s : State) : Prop where
  params : s.params = p
  cfg : s.cfg = c
  collecting : s.syncState = .collect
  len : s.len = min segment.length (p.rbCap + 1)
  kept : ∀ i, i < s.validLen → Memory.read s.rb i = segment[i]?

section
variable {p : Params} {c : Config} {segment : List Byte} {s : State}

/-- The block fresh from reset hunts (spec/10_state.md R34). -/
theorem hunting_freshStream (p : Params) (c : Config) (bytes : List Byte) : Hunting p c (freshStream p c bytes) :=
  ⟨rfl, rfl, rfl, rfl⟩

/-- With `LEN = 0` in `COLLECT` a segment begins. -/
theorem collecting_nil (hp : s.params = p) (hc : s.cfg = c) (hs : s.syncState = .collect) (hl : s.len = 0) :
    Collecting p c [] s where
  params := hp
  cfg := hc
  collecting := hs
  len := by rw [hl, List.length_nil, Nat.zero_min]
  kept := fun i hi => by
    rw [State.validLen, hl, Nat.zero_min] at hi
    exact absurd hi (Nat.not_lt_zero i)

/-- The valid part is as long as what is kept of the segment (spec/20_memory.md R41). -/
theorem Collecting.validLen_eq (h : Collecting p c segment s) : s.validLen = min segment.length p.rbCap := by
  rw [State.validLen, h.len, h.params]
  omega

/-- A data byte joins the segment (R104). -/
theorem Collecting.dataByte (h : Collecting p c segment s) (b : Byte) :
    Collecting p c (segment ++ [b]) (dataByte b s) := by
  rw [dataByte_collect h.collecting]
  have hlen : (appendByte b s).len = min (segment ++ [b]).length (p.rbCap + 1) := by
    have hl := h.len
    have hbound : s.len ≤ s.params.rbCap + 1 := by rw [hl, h.params]; exact Nat.min_le_right _ _
    rw [appendByte_len_eq_min hbound, hl, h.params, List.length_append, List.length_singleton]
    omega
  refine ⟨h.params, h.cfg, h.collecting, hlen, fun i hi => ?_⟩
  have hi' : i < min (segment ++ [b]).length p.rbCap := by
    rw [State.validLen, endStep_len, hlen, endStep_params, appendByte_params, h.params] at hi
    omega
  rw [List.length_append, List.length_singleton] at hi'
  have hl := h.len
  rw [endStep_rb]
  by_cases hnew : i = segment.length
  · have heq : i = s.len := by omega
    rw [hnew, List.getElem?_concat_length, ← hnew, heq]
    exact read_appendByte_same (by rw [h.params]; omega) b
  · rw [List.getElem?_append_left (by omega), ← h.kept i (by rw [h.validLen_eq]; omega)]
    refine read_appendByte_other ?_ b
    rw [h.params]
    omega

/-- A segment of 5 bytes or more is the candidate that the next delimiter evaluates (R106). -/
theorem Collecting.atClosing (h : Collecting p c segment s) (hwf : configWf p c = true) (hl : 5 ≤ segment.length) :
    AtClosing s (keptCandidate p segment) where
  config := by rw [h.params, h.cfg, hwf]
  collecting := h.collecting
  long := by
    have := nine_le_rbCap p
    rw [h.len]
    omega
  bound := by
    rw [h.len, h.params]
    exact Nat.min_le_right _ _
  candidate := by
    have hread : s.rbRange 0 s.validLen = some (segment.take p.rbCap) := by
      refine State.rbRange_eq_some.mpr ⟨Nat.le_of_eq (Nat.zero_add _), Memory.readRange_eq_some.mpr ⟨?_, fun i hi => ?_⟩⟩
      · rw [List.length_take, h.validLen_eq, Nat.min_comm]
      · rw [Nat.zero_add, h.kept i hi]
        rw [h.validLen_eq] at hi
        rw [List.getElem?_take_of_lt (by omega)]
    rw [State.candidate, hread, h.len, keptCandidate]

/-- A delimiter ends the segment: it shows the result of the candidate, or nothing for a short segment, and a new segment
begins (R105, R106). -/
theorem Collecting.execSync (h : Collecting p c segment s) (hwf : configWf p c = true) :
    ∃ t, execSync s = .next t ∧ Collecting p c [] t ∧ t.input = s.input.tail ∧
      shownEvents [t.out.event] = resultsOf p c [segment] := by
  by_cases hl : 5 ≤ segment.length
  · have hrun := exec_sync_closing (h.atClosing hwf hl)
    obtain ⟨hp, hc, hs, hlen, hin⟩ := applyResult_unchanged (decodeCandidate s.cfg (keptCandidate p segment)) s
    refine ⟨_, hrun, collecting_nil (hp.trans h.params) (hc.trans h.cfg) (hs.trans h.collecting) hlen, hin, ?_⟩
    rw [applyResult_event, h.cfg, shownEvents_singleton (eventOf_ne_none _), resultsOf_long hl]
  · have hshort : s.len < 5 := by
      rw [h.len]
      omega
    refine ⟨_, execSync_short h.collecting hshort, collecting_nil h.params h.cfg h.collecting rfl, rfl, ?_⟩
    exact (resultsOf_short hl).symm

/-- A stream that arrives in `COLLECT`: the results of the pieces that a delimiter ends are shown in order, and the last
piece is the segment that remains (R108). -/
theorem Collecting.run {bytes : List Byte} (h : Collecting p c segment s) (hwf : configWf p c = true)
    (hin : s.input = bytes.map Sample.byte) :
    ∃ events t tail, eventsOf bytes.length s = some (events, t) ∧
      shownEvents events = resultsOf p c (piecesFrom segment bytes).dropLast ∧
      (piecesFrom segment bytes).getLast? = some tail ∧ Collecting p c tail t := by
  induction bytes generalizing segment s with
  | nil =>
    rw [piecesFrom_nil]
    exact ⟨[], s, segment, rfl, rfl, rfl, h⟩
  | cons b rest ih =>
    have hstep : step s = exec (decodeByte b) s := step_byte hin (by rw [h.params, h.cfg, hwf])
    have htail : s.input.tail = rest.map Sample.byte := by rw [hin, List.map_cons, List.tail_cons]
    by_cases hb : b = delim
    · subst hb
      rw [exec_decodeByte_delim] at hstep
      obtain ⟨t, ht, hcol, hint, hshow⟩ := h.execSync hwf
      obtain ⟨events, u, tail, hrun, hevents, hlast, hu⟩ := ih hcol (hint.trans htail)
      refine ⟨_, u, tail, eventsOf_succ (hstep.trans ht) hrun, ?_, ?_, hu⟩
      · rw [shownEvents_cons, hshow, hevents, piecesFrom_delim,
          List.dropLast_cons_of_ne_nil (piecesFrom_ne_nil _ _), ← resultsOf_cons]
      · rw [piecesFrom_delim, List.getLast?_cons_of_ne_nil (piecesFrom_ne_nil _ _), hlast]
    · rw [exec_decodeByte_data hb] at hstep
      have hdata := dataByte_collect h.collecting b
      obtain ⟨events, u, tail, hrun, hevents, hlast, hu⟩ := ih (h.dataByte b) (by rw [hdata]; exact htail)
      refine ⟨_, u, tail, eventsOf_succ hstep hrun, ?_, ?_, hu⟩
      · rw [shownEvents_cons, hdata, hevents, piecesFrom_data hb]
        rfl
      · rw [piecesFrom_data hb, hlast]

/-- Bytes that are no delimiter leave the block hunting, without an event (R102). -/
theorem Hunting.run {bytes : List Byte} {more : List Sample} (h : Hunting p c s) (hwf : configWf p c = true)
    (hin : s.input = bytes.map Sample.byte ++ more) (hb : delim ∉ bytes) :
    ∃ t, eventsOf bytes.length s = some (List.replicate bytes.length .none, t) ∧ Hunting p c t ∧ t.input = more := by
  induction bytes generalizing s with
  | nil => exact ⟨s, rfl, h, hin⟩
  | cons b rest ih =>
    obtain ⟨hne, hrest⟩ := not_or.mp (mt List.mem_cons.mpr hb)
    have hstep : step s = .next (endStep silent s) := by
      rw [step_byte hin (by rw [h.params, h.cfg, hwf]), exec_decodeByte_data (Ne.symm hne), dataByte_hunt h.hunting]
    have hnext : Hunting p c (endStep silent s) := ⟨h.params, h.cfg, h.hunting, h.empty⟩
    obtain ⟨t, hrun, ht, hmore⟩ := ih hnext (by rw [endStep_input, hin]; rfl) hrest
    exact ⟨t, eventsOf_succ hstep hrun, ht, hmore⟩

/-- The first delimiter begins the first segment, without an event (R103). -/
theorem Hunting.step_delim {more : List Sample} (h : Hunting p c s) (hwf : configWf p c = true)
    (hin : s.input = Sample.byte delim :: more) :
    ∃ t, step s = .next t ∧ Collecting p c [] t ∧ t.input = more ∧ t.out.event = .none := by
  refine ⟨endStep silent { s with syncState := .collect, len := 0 }, ?_, collecting_nil h.params h.cfg rfl rfl, ?_, rfl⟩
  · rw [step_byte hin (by rw [h.params, h.cfg, hwf]), exec_decodeByte_delim, execSync_hunt h.hunting]
  · rw [endStep_input, hin, List.tail_cons]

/-- A stream with a first delimiter after `front`: what `front` held is not evaluated, and from there on the block
collects (R103, R108). -/
theorem Hunting.run_delim {front back : List Byte} (h : Hunting p c s) (hwf : configWf p c = true)
    (hin : s.input = (front ++ delim :: back).map Sample.byte) (hfront : delim ∉ front) :
    ∃ events t tail, eventsOf (front ++ delim :: back).length s = some (events, t) ∧
      shownEvents events = resultsOf p c ((front ++ delim :: back).splitOn delim).tail.dropLast ∧
      ((front ++ delim :: back).splitOn delim).getLast? = some tail ∧ Collecting p c tail t := by
  obtain ⟨t, hrun, ht, hint⟩ := h.run (more := Sample.byte delim :: back.map Sample.byte) hwf (by simp [hin]) hfront
  obtain ⟨u, hstep, hu, hinu, hev⟩ := ht.step_delim hwf hint
  obtain ⟨events, v, tail, hrun', hevents, hlast, hv⟩ := hu.run hwf hinu
  rw [piecesFrom_empty] at hevents hlast
  have hcut := List.splitOn_append_cons_self_of_not_mem hfront back
  have hlen : (front ++ delim :: back).length = front.length + (back.length + 1) := by
    rw [List.length_append, List.length_cons]
  refine ⟨_, v, tail, hlen ▸ eventsOf_add hrun (eventsOf_succ hstep hrun'), ?_, ?_, hv⟩
  · rw [shownEvents_append, shownEvents_replicate_none, shownEvents_cons, hev, hevents, hcut, List.tail_cons]
    rfl
  · rw [hcut, List.getLast?_cons_of_ne_nil (List.splitOn_ne_nil _ _), hlast]

end

/-- Settles O13: without a delimiter the block hunts to the end; otherwise the stream is cut at its first delimiter, and
the block collects what follows. -/
theorem eventsAreThoseOfSplittingTheStream : Obligations.EventsAreThoseOfSplittingTheStream := by
  intro p c _ hwf
  refine ⟨fun bytes => ?_, fun hp piece _ => by rw [decodeCandidate_keptCandidate hp]⟩
  have hfresh := hunting_freshStream p c bytes
  by_cases hd : delim ∈ bytes
  · obtain ⟨front, back, rfl, hfront⟩ := List.eq_append_cons_of_mem hd
    obtain ⟨events, t, tail, hrun, hevents, hlast, ht⟩ := hfresh.run_delim hwf rfl hfront
    refine ⟨events, t, hrun, hevents, fun hn => absurd hd hn, fun _ => ⟨ht.collecting, fun tail' hlast' => ?_⟩⟩
    obtain rfl := Option.some.inj (hlast.symm.trans hlast')
    exact ⟨ht.len, ht.kept⟩
  · obtain ⟨t, hrun, ht, -⟩ := hfresh.run (more := []) hwf (List.append_nil _).symm hd
    refine ⟨_, t, hrun, ?_, fun _ => ⟨ht.hunting, ht.empty⟩, fun hmem => absurd hmem hd⟩
    rw [List.splitOn_eq_singleton hd]
    exact shownEvents_replicate_none _

end Sys2Proof.Proofs
end

section
/-!
PROOFS. spec/42_header_validator.md: each of the five checks run by itself, on the candidates it passes and on those it
rejects.
-/
namespace Sys2Proof.Proofs
open Sys2Proof.Machine

/-! ### A check run by itself -/

/-- A check that goes on when `P` holds and rejects when it does not, as each `…Op_cases` lemma says of its operation, passes
exactly on `P` when it is run by itself: its pass leaves the state with the intermediate values `w`, its rejection makes the
writes of R190 on `s`, because the end of the step clears them. -/
theorem outcome_of_check {P : Prop} {p : Progress} {code : RejectCode} {diag : Option Diag} {w : Work} {s : State}
    (hcases : (P ∧ p = .goOn { s with work := w }) ∨ (¬P ∧ p = raiseReject code diag { s with work := w })) :
    (P → p.outcome = .next { s with work := w }) ∧
    (¬P → ∃ t, p.outcome = .next t ∧ RejectWrites code diag s t) := by
  rcases hcases with ⟨hpass, rfl⟩ | ⟨hfail, rfl⟩
  · exact ⟨fun _ => rfl, fun hn => absurd hpass hn⟩
  · exact ⟨fun hp => absurd hp hfail, fun _ =>
      ⟨_, outcome_raiseReject_of_work code diag w s, rejectWrites_takeReject code diag s⟩⟩

/-! ### The header checksum (R124) -/

/-- The low byte of a half-word is its truncation. -/
theorem loByte_eq_setWidth (x : Half) : loByte x = x.setWidth 8 :=
  (BitVec.setWidth_eq_extractLsb' (by decide)).symm

/-- The high byte of a half-word is the truncation of the half-word shifted down. -/
theorem hiByte_eq_setWidth (x : Half) : hiByte x = (x >>> 8).setWidth 8 := by
  rw [hiByte, BitVec.setWidth_ushiftRight_eq_extractLsb]

/-- The bytes in front of the checksum, each written out of its field: `dst`, `src` and `cmd` low byte first (R63). -/
theorem header_covered_eq (h : Header) : h.covered =
    [h.dst.setWidth 8, (h.dst >>> 8).setWidth 8, h.src.setWidth 8, (h.src >>> 8).setWidth 8, h.ver,
      h.cmd.setWidth 8, (h.cmd >>> 8).setWidth 8, h.n] := by
  simp only [Header.covered, loByte_eq_setWidth, hiByte_eq_setWidth]

/-- A stored byte with bit 7 set is no checksum: the comparison takes the whole byte, and a checksum is below 128
(spec/40_checksum.md R93). -/
theorem ne_cksum_of_high {b : Byte} (hb : 0x80 ≤ b.toNat) (bytes : List Byte) : b.toNat ≠ (cksum bytes).toNat :=
  (Nat.lt_of_lt_of_le (septet_lt (cksum bytes)) hb).ne'

/-- Settles O19: the comparison of bytes is one of integers, and the rejection clears the checksum result that `HV4` left. -/
theorem hv4ChecksTheHeaderChecksum : Obligations.Hv4ChecksTheHeaderChecksum := by
  rintro h s _ rfl
  rw [← header_covered_eq]
  have hcases := hv4Op_cases h s
  simp only [ne_eq, eq_lowByte_iff] at hcases
  obtain ⟨hpass, hfail⟩ := outcome_of_check (w := (cksumOp h.covered s).work) (s := s) hcases
  exact ⟨hpass, hfail, fun hb => ne_cksum_of_high hb _⟩

/-! ### The checks that compute nothing (R121, R122, R123, R125) -/

/-- Settles O16: byte 4 is compared as a whole. -/
theorem hv1ChecksTheVersion : Obligations.Hv1ChecksTheVersion := fun h s => outcome_of_check (hv1Op_cases h s)

/-- Settles O17: fewer than 9 bytes is the failure of `9 ≤ LEN`. -/
theorem hv2ChecksTheMinimumLength : Obligations.Hv2ChecksTheMinimumLength := by
  intro h s
  have hcases := hv2Op_cases h s
  rw [← Nat.not_le] at hcases ⊢
  exact outcome_of_check hcases

/-- Settles O18: the command code is compared as a whole. -/
theorem hv3ChecksTheCommand : Obligations.Hv3ChecksTheCommand := fun h s => outcome_of_check (hv3Op_cases h s)

/-- Settles O20: a shorter and a longer candidate both miss the one length that the frame count gives. -/
theorem hv5ChecksTheFrameCount : Obligations.Hv5ChecksTheFrameCount := fun h s => outcome_of_check (hv5Op_cases h s)

end Sys2Proof.Proofs
end

section
/-!
PROOFS. spec/43_payload_decoder.md: the operations of the payload decoder run by themselves, the pseudo-operation `ENC4` as
their inverse, and the record that has no payload.
-/
namespace Sys2Proof.Proofs
open Sys2Proof.Machine

/-! ### The scan of the payload (R141) -/

/-- Bit 7 of a byte is clear exactly when the byte is below 0x80 (spec/00_scope.md R7). -/
theorem bit7_clear_iff (b : Byte) : b.getLsbD 7 = false ↔ b.toNat < 0x80 := by
  rw [← Bool.not_eq_true, bit7_iff, Nat.not_le]

/-- Settles O23: the rejection's condition is the negation of the pass's. -/
theorem highscanRejectsAnyByteWithBit7 : Obligations.HighscanRejectsAnyByteWithBit7 := by
  intro payload s
  have hcases := highscanOp_cases payload s
  have hnot : (∃ b ∈ payload, 0x80 ≤ b.toNat) ↔ ¬∀ b ∈ payload, b.toNat < 0x80 := by
    simp only [not_forall, Nat.not_lt, exists_prop]
  simp only [bit7_clear_iff, bit7_iff, hnot] at hcases
  rw [hnot]
  exact outcome_of_check hcases

/-! ### The frame checksum (R142) -/

/-- The bytes in front of a frame's checksum, each written out of its field: the mask byte holds mask bits 4..6 too (R66). -/
theorem frame_covered_eq (w : Frame) : w.covered =
    [w.d0.setWidth 8, w.d1.setWidth 8, w.d2.setWidth 8, w.d3.setWidth 8,
      BitVec.ofNat 8 (w.mask.toNat + 16 * w.spare.toNat)] := by
  have hmask : lowByte (w.spare ++ w.mask) = BitVec.ofNat 8 (w.mask.toNat + 16 * w.spare.toNat) := by
    rw [← maskByte_toNat, BitVec.ofNat_toNat, BitVec.setWidth_eq]
  rw [Frame.covered, hmask]
  simp only [lowByte_eq_setWidth]

/-- Settles O24: the frame's index is a quarter of the decoded bytes, and the rejection clears the checksum result that
`FRAMECK` left. -/
theorem frameckChecksTheFrameChecksum : Obligations.FrameckChecksTheFrameChecksum := by
  rintro w s _ i rfl hd
  rw [← frame_covered_eq]
  have hcases := frameckOp_cases w s
  rw [hd, Nat.mul_div_cancel_left i four_pos, lowByte_eq_setWidth w.fck] at hcases
  exact outcome_of_check (w := (cksumOp w.covered s).work) hcases

/-! ### The septet reversal (R143) -/

/-- `UNPACK` run by itself. -/
theorem exec_unpack (w : Frame) (s : State) :
    exec (.unpack w) s = .next { s with work := { s.work with d := s.work.d ++ unpackBytes w } } := rfl

/-- What `UNPACK` recovers depends on neither mask bits 4..6 nor the checksum (R67). -/
theorem unpackBytes_ignores_spare_fck (w : Frame) (spare : BitVec 3) (fck : Septet) :
    unpackBytes { w with spare := spare, fck := fck } = unpackBytes w := rfl

/-- Settles O25: each lane adds 128 for its mask bit. -/
theorem unpackRestoresBit7FromTheMask : Obligations.UnpackRestoresBit7FromTheMask := by
  intro w s
  refine ⟨⟨_, _, _, _, exec_unpack w s, restoreByte_toNat _ _, restoreByte_toNat _ _, restoreByte_toNat _ _,
    restoreByte_toNat _ _⟩, fun spare fck => ?_⟩
  rw [exec_unpack, exec_unpack, unpackBytes_ignores_spare_fck]

/-! ### `ENC4` and `UNPACK` (R146) -/

/-- A restored byte has its septet below bit 7. -/
theorem septetOf_restoreByte (d : Septet) (bit7 : Bool) : septetOf (restoreByte d bit7) = d := by
  apply BitVec.eq_of_toNat_eq
  rw [septetOf_toNat, restoreByte_toNat, Nat.add_mul_mod_self_left, Nat.mod_eq_of_lt (septet_lt d)]

/-- A restored byte has its mask bit at bit 7. -/
theorem bit7_restoreByte (d : Septet) (bit7 : Bool) : (restoreByte d bit7).getLsbD 7 = bit7 := by
  rw [restoreByte, BitVec.getLsbD_append, if_neg (lt_irrefl 7), Nat.sub_self, BitVec.getLsbD_ofBool, decide_eq_true rfl,
    Bool.true_and]

/-- The four bits of a mask, joined again. -/
theorem fourBits_getLsbD (mask : BitVec 4) :
    BitVec.ofBool (mask.getLsbD 3) ++ BitVec.ofBool (mask.getLsbD 2) ++ BitVec.ofBool (mask.getLsbD 1)
      ++ BitVec.ofBool (mask.getLsbD 0) = mask := by
  revert mask
  decide

/-- `ENC4` of what a wire frame unpacks to has the frame's data septets and mask, and clear mask bits 4..6. -/
theorem encodeFrame_of_unpackBytes {w : Frame} {r0 r1 r2 r3 : Byte} (h : unpackBytes w = [r0, r1, r2, r3]) :
    encodeFrame r0 r1 r2 r3 = { w with spare := 0#3, fck := (encodeFrame r0 r1 r2 r3).fck } := by
  simp only [unpackBytes, List.cons.injEq, and_true] at h
  obtain ⟨rfl, rfl, rfl, rfl⟩ := h
  simp only [encodeFrame, septetOf_restoreByte, bit7_restoreByte, fourBits_getLsbD]

/-- `HIGHSCAN` passes the bytes of a wire frame. -/
theorem exec_highscan_frameBytes (w : Frame) (s : State) : exec (.highscan w.bytes) s = .next s :=
  (highscanRejectsAnyByteWithBit7 w.bytes s).1 fun _ => frameBytes_low

/-- `FRAMECK` passes a wire frame whose checksum is right, and leaves the checksum as its result (log 10). -/
theorem exec_frameck_right {w : Frame} (hw : w.fck = cksum w.covered) (s : State) :
    exec (.frameck w) s = .next (cksumOp w.covered s) :=
  congrArg Progress.outcome (if_pos hw)

/-- Settles O26: `ENC4` makes the bytes of a wire frame with a right checksum, and its septets and mask are the four bytes
taken apart. -/
theorem septetRoundTrip : Obligations.SeptetRoundTrip := by
  refine ⟨fun d0 d1 d2 d3 s => ⟨parseFrame_eq_ok.mpr rfl, exec_highscan_frameBytes _ s,
    ⟨_, exec_frameck_right (encodeFrame_fck d0 d1 d2 d3) s⟩, ?_⟩, fun w s t r0 r1 r2 r3 ht hd => ⟨?_, ?_⟩⟩
  · rw [exec_unpack, unpackBytes_encodeFrame]
  · rw [exec_unpack] at ht
    obtain rfl := Host.Outcome.next.inj ht
    exact encodeFrame_of_unpackBytes (List.append_cancel_left hd)
  · exact encodeFrame_fck r0 r1 r2 r3

/-! ### A record without frames (R145) -/

/-- The payload that the header validator gives is the one its frame count says (spec/42_header_validator.md R126). -/
theorem headerValidate_ok {cfg : Config} {c : Candidate} {payload : List Byte} (h : headerValidate cfg c = .ok payload) :
    payload = (c.bytes.drop 9).take (6 * (c.byte 7).toNat) := by
  unfold headerValidate at h
  split at h
  · cases h
  split at h
  · cases h
  split at h
  · cases h
  split at h
  · cases h
  split at h
  · cases h
  · exact (Except.ok.inj h).symm

/-- A candidate that passes `HeaderOk` has a payload (spec/42_header_validator.md R127). -/
theorem headerValidate_of_headerOk {cfg : Config} {c : Candidate} (h : headerOk cfg c = true) :
    headerValidate cfg c = .ok ((c.bytes.drop 9).take (6 * (c.byte 7).toNat)) := by
  rw [headerOk, Bool.and_eq_true] at h
  cases hval : headerValidate cfg c with
  | error r =>
    rw [hval] at h
    cases h.2
  | ok payload => rw [headerValidate_ok hval]

/-- An empty payload passes the payload decoder with no decoded byte. -/
theorem payloadDecode_empty : payloadDecode 0 [] = .ok [] := rfl

/-- A record without frames is left to the range check. -/
theorem decodeCandidate_empty {cfg : Config} {c : Candidate} (h : headerOk cfg c = true) (h0 : c.byte 7 = 0#8) :
    decodeCandidate cfg c =
      if 0 < reqBytes cfg.ft then .error ⟨.fieldRange, none⟩ else .ok ⟨c.header, [], cfg.ft.map (slotValue [])⟩ := by
  have hn : (c.byte 7).toNat = 0 := congrArg BitVec.toNat h0
  have hval := headerValidate_of_headerOk h
  rw [hn, Nat.mul_zero, List.take_zero] at hval
  simp only [decodeCandidate, hval, hn, payloadDecode_empty, List.length_nil]

/-- A legal active descriptor has a field of one byte or more (spec/30_encoding.md R80). -/
theorem fieldEnd_pos {p : Params} {w : DescWord} (hw : descriptorWf p w = true) (hv : descValid w = true) :
    0 < fieldEnd (descField w) := by
  simp only [descriptorWf, hv, Bool.not_true, Bool.false_or, Bool.and_eq_true, decide_eq_true_eq] at hw
  obtain ⟨⟨⟨-, hpos⟩, -⟩, -⟩ := hw
  exact Nat.add_pos_right _ hpos

/-- The active fields of a legal field table reach beyond nothing exactly when there is one
(spec/44_field_mapper.md R163). -/
theorem reqBytes_pos_iff {p : Params} {ft : List DescWord} (hwf : ∀ w ∈ ft, descriptorWf p w = true) :
    0 < reqBytes ft ↔ ∃ w ∈ ft, descValid w = true := by
  rw [← Nat.not_le, reqBytes_le_iff, not_forall]
  refine exists_congr fun w => ⟨fun h => ?_, fun ⟨hw, hv⟩ hle => ?_⟩
  · obtain ⟨hw, hne⟩ := Classical.not_imp.mp h
    exact ⟨hw, (Classical.not_imp.mp hne).1⟩
  · exact (fieldEnd_pos (hwf w hw) hv).not_ge (hle hw hv)

/-- Slots that are all inactive have absent values (spec/44_field_mapper.md R161). -/
theorem map_slotValue_inactive {ft : List DescWord} (h : ∀ w ∈ ft, descValid w = false) (d : List Byte) :
    ft.map (slotValue d) = List.replicate ft.length .absent :=
  List.map_eq_replicate_iff.mpr fun w hw => if_pos (h w hw)

/-- Settles O31: of the checks behind the header only the range check can fail, and it fails exactly when a field is
active. -/
theorem emptyRecordIsAcceptedUnlessAFieldIsActive : Obligations.EmptyRecordIsAcceptedUnlessAFieldIsActive := by
  intro s c ha hok h0
  have hpos := reqBytes_pos_iff (descriptorWf_of_mem (s := s) ha.config)
  refine ⟨_, exec_sync_closing ha, fun hinactive => ?_, fun hactive => ?_⟩
  · have hnone : ¬∃ w ∈ s.cfg.ft, descValid w = true := fun ⟨w, hw, hv⟩ =>
      Bool.false_ne_true ((hinactive w hw).symm.trans hv)
    rw [decodeCandidate_empty hok h0, if_neg (mt hpos.mp hnone), map_slotValue_inactive hinactive]
    exact acceptWrites_takeAccept c.header [] _ s
  · rw [decodeCandidate_empty hok h0, if_pos (hpos.mpr hactive)]
    exact rejectWrites_takeReject .fieldRange none s

end Sys2Proof.Proofs
end

section
/-!
PROOFS. spec/44_field_mapper.md: the two field operations run by themselves, the range check of a candidate whose header and
payload pass, and the final value that the reader forms.
-/
namespace Sys2Proof.Proofs
open Sys2Proof.Machine

/-! ### The integer of a field (R162, R164; spec/20_memory.md R45) -/

/-- The little-endian value of the first `n` bytes of a sequence, byte `j` with weight `256^j`. -/
theorem leValue_take_eq_sum (bytes : List Byte) (n : Nat) :
    leValue (bytes.take n) = ∑ j ∈ Finset.range n, (bytes.getD j 0#8).toNat * 256 ^ j := by
  induction bytes generalizing n with
  | nil => simp [leValue]
  | cons b rest ih =>
    cases n with
    | zero => rfl
    | succ n =>
      have hshift : ∑ j ∈ Finset.range n, ((b :: rest).getD (j + 1) 0#8).toNat * 256 ^ (j + 1) =
          256 * leValue (rest.take n) := by
        rw [ih, Finset.mul_sum]
        exact Finset.sum_congr rfl fun j _ => by rw [List.getD_cons_succ, pow_succ']; ring
      rw [List.take_succ_cons, leValue, Finset.sum_range_succ', hshift, List.getD_cons_zero, pow_zero, mul_one,
        Nat.add_comm]

/-- The bits of a field as the sum of its decoded bytes (R162). -/
theorem fieldBits_eq_sum (f : Field) (d : List Byte) :
    fieldBits f d = ∑ j ∈ Finset.range f.length.toNat, (d.getD (f.offset.toNat + j) 0#8).toNat * 256 ^ j := by
  rw [fieldBits, leValue_take_eq_sum]
  simp only [List.getD_eq_getElem?_getD, List.getElem?_drop]

/-- Two's complement takes a pattern of `N` bits to a number that agrees with it modulo `2 ^ N` (R164). -/
theorem signExtend_emod {bits v : Nat} (hv : v < 2 ^ bits) : signExtend bits v % 2 ^ bits = v := by
  have hv' : (v : Int) < 2 ^ bits := by exact_mod_cast hv
  have hmod : (v : Int) % 2 ^ bits = v := Int.emod_eq_of_lt (Int.natCast_nonneg v) hv'
  unfold signExtend
  split
  case isTrue => rw [Int.sub_emod_right, hmod]
  case isFalse => exact hmod

/-! ### A field operation run by itself -/

/-- A field operation gives its slot a value exactly when the field ends within the decoded bytes, and otherwise makes the
writes of a rejection with code 8 (spec/20_memory.md R48, log 14). -/
theorem readField_outcome (f : Field) (raw : Int) (s : State) :
    (fieldEnd f ≤ s.work.d.length → (readField f raw s).outcome = .next (pushField ⟨true, raw⟩ s)) ∧
    (s.work.d.length < fieldEnd f →
      ∃ t, (readField f raw s).outcome = .next t ∧ RejectWrites .fieldRange none s t) := by
  rcases readField_cases f raw s with ⟨hfits, hop⟩ | ⟨hbeyond, hop⟩
  · rw [hop]
    exact ⟨fun _ => rfl, fun h => absurd hfits (Nat.not_le.mpr h)⟩
  · rw [hop]
    exact ⟨fun h => absurd hbeyond (Nat.not_lt.mpr h), fun _ => ⟨_, rfl, rejectWrites_takeReject .fieldRange none s⟩⟩

/-- Settles O27: the bits of the field are the sum of its bytes. -/
theorem fieldUReadsAnUnsignedInteger : Obligations.FieldUReadsAnUnsignedInteger := by
  intro f s
  obtain ⟨hvalue, hreject⟩ := readField_outcome f (fieldBits f s.work.d) s
  have hlt : fieldBits f s.work.d < 256 ^ f.length.toNat := (fieldBits_lt f _).trans_eq (pow_mul 2 8 _)
  exact ⟨fun hfits => ⟨_, hvalue hfits, fieldBits_eq_sum f _, hlt⟩, hreject⟩

/-- Settles O28: two's complement keeps the bits of the field modulo `2^(8*LENGTH)` and puts them in its range. -/
theorem fieldSReadsATwosComplementInteger : Obligations.FieldSReadsATwosComplementInteger := by
  intro f s hpos
  obtain ⟨hvalue, hreject⟩ := readField_outcome f (signExtend (8 * f.length.toNat) (fieldBits f s.work.d)) s
  have hbits := fieldBits_lt f s.work.d
  obtain ⟨hlo, hhi⟩ := signExtend_bounds (by omega) hbits
  refine ⟨fun hfits => ⟨_, hvalue hfits, hlo, hhi, ?_⟩, hreject⟩
  rw [signExtend_emod hbits, fieldBits_eq_sum]
  push_cast
  rfl

/-! ### The range check (R163) -/

/-- A candidate whose header and payload pass is left to the range check over its `4N` decoded bytes. -/
theorem decodeCandidate_of_decoded {cfg : Config} {c : Candidate} {payload d : List Byte}
    (hval : headerValidate cfg c = .ok payload) (hdec : payloadDecode (c.byte 7).toNat payload = .ok d) :
    decodeCandidate cfg c =
      if 4 * (c.byte 7).toNat < reqBytes cfg.ft then .error ⟨.fieldRange, none⟩
      else .ok ⟨c.header, d, cfg.ft.map (slotValue d)⟩ := by
  simp only [decodeCandidate, hval, hdec, payloadDecode_length _ _ _ hdec]

/-- The active fields reach beyond `n` bytes when one of them does. -/
theorem lt_reqBytes_iff {ft : List DescWord} {n : Nat} :
    n < reqBytes ft ↔ ∃ w ∈ ft, descValid w = true ∧ n < fieldEnd (descField w) := by
  rw [← Nat.not_le, reqBytes_le_iff]
  simp only [not_forall, exists_prop, Nat.not_le]

/-- Settles O29: how far the active fields reach is compared with `4N`, the number of decoded bytes. -/
theorem rangeCheckCoversEveryActiveField : Obligations.RangeCheckCoversEveryActiveField := by
  intro s c payload d ha hval hdec
  refine ⟨_, exec_sync_closing ha, fun hbeyond => ?_, fun hfits => ?_⟩
  · rw [decodeCandidate_of_decoded hval hdec, if_pos (lt_reqBytes_iff.mpr hbeyond)]
    exact rejectWrites_takeReject .fieldRange none s
  · rw [decodeCandidate_of_decoded hval hdec, if_neg (Nat.not_lt.mpr (reqBytes_le_iff.mpr hfits))]
    exact acceptWrites_takeAccept c.header d _ s

/-! ### The final value (R165) -/

/-- The final value that the reader forms for a present field is its integer under the descriptor's scale factor. -/
theorem fieldValue_of_present {s : State} {k : Nat} {v : FieldVal} {w : DescWord} (hv : s.fv[k]? = some v)
    (hw : s.cfg.ft[k]? = some w) (hp : v.present = true) : s.fieldValue k = some (scaledValue v.raw w) := by
  simp only [State.fieldValue, hv, hw, hp, if_true]

/-- Settles O30: the numerator and the denominator of the scale factor stand at bits 31..16 and 47..32. -/
theorem finalValueIsTheExactProduct : Obligations.FinalValueIsTheExactProduct := by
  intro s k v w hv hw hp
  refine ⟨_, fieldValue_of_present hv hw hp, ?_⟩
  rw [scaledValue, Rat.mkRat_eq_div, descFnum_toNat, descFden_toNat, Int.cast_mul, Int.cast_natCast]

end Sys2Proof.Proofs
end

section
/-!
PROOFS. spec/60_exceptions.md: no stop under a lawful host (R194), and the first check that a candidate fails is the one
that it is rejected for (R192).
-/
namespace Sys2Proof.Proofs
open Sys2Proof.Machine

/-! ### What a lawful host presents (spec/70_reset_and_hazards.md R215) -/

/-- A configuration at the ports comes with reset and is well-formed; with no sample left the ports show none. -/
theorem hostInv_presented {s : State} (host : HostInv s) {c : Config} (hc : s.presented.cfg = some c) :
    s.presented.rst = true ∧ configWf s.params c = true := by
  cases hin : s.input with
  | nil =>
    rw [State.presented, hin] at hc
    cases hc
  | cons p rest =>
    rw [State.presented, hin, List.headD_cons] at hc ⊢
    exact host.later p (hin ▸ List.mem_cons_self) c hc

/-- The configuration in the step of a sample is well-formed. -/
theorem configWf_presented {s : State} (host : HostInv s) : configWf s.params (s.presented.config s.cfg) = true := by
  rw [Sample.config]
  cases hc : s.presented.cfg with
  | none => exact host.now
  | some c => exact (hostInv_presented host hc).2

/-- Out of reset it is the one in force. -/
theorem config_presented_eq {s : State} (host : HostInv s) (hr : s.presented.rst = false) :
    s.presented.config s.cfg = s.cfg := by
  rw [Sample.config]
  cases hc : s.presented.cfg with
  | none => rfl
  | some c => cases hr.symm.trans (hostInv_presented host hc).1

/-- A host stays lawful when one sample is taken under a well-formed configuration. -/
theorem hostInv_of_tail {s t : State} (host : HostInv s) (hp : t.params = s.params) (hc : configWf s.params t.cfg = true)
    (hin : t.input = s.input.tail) : HostInv t where
  now := by rw [hp, hc]
  later := fun p hmem c hcfg => by
    rw [hin] at hmem
    rw [hp]
    exact host.later p (List.mem_of_mem_tail hmem) c hcfg

/-- Every step of a lawful host leaves it lawful. -/
theorem hostInv_step {s t : State} (host : HostInv s) (h : step s = .next t) : HostInv t := by
  cases hr : s.presented.rst with
  | true =>
    obtain rfl := step_reset h hr
    exact hostInv_of_tail host rfl (configWf_presented host) rfl
  | false =>
    obtain ⟨hcfg, hparams⟩ := configurationIsNeverWritten.2 s t h hr
    exact hostInv_of_tail host hparams (hcfg ▸ host.now) (step_takes_sample h hr)

/-! ### No stop from a good state (R194; spec/93_implementation_defined.md section 1) -/

/-- The valid part of the buffer has been written, so a candidate is there to read (spec/20_memory.md R41, R55). -/
theorem exists_candidate {s : State} (inv : BufferInv s) : ∃ c, s.candidate = some c := by
  have hwritten : ∀ i, i < s.validLen → (Memory.read s.rb (0 + i)).isSome := fun i hi => by
    obtain ⟨b, hb, -⟩ := inv.written i hi
    rw [Nat.zero_add, hb]
    rfl
  obtain ⟨bytes, hbytes⟩ := Option.isSome_iff_exists.mp (Memory.readRange_isSome hwritten)
  have hrange : s.rbRange 0 s.validLen = some bytes := State.rbRange_eq_some.mpr ⟨(Nat.zero_add _).le, hbytes⟩
  exact ⟨⟨s.len, bytes⟩, by rw [State.candidate, hrange]⟩

/-- So a delimiter never stops the block: it opens a segment, drops a short one, or evaluates that candidate
(spec/41_frame_sync.md R103, R105, R106). -/
theorem execSync_completes {s : State} (inv : BufferInv s) (hc : configWf s.params s.cfg = true) :
    ∃ t, execSync s = .next t := by
  cases hs : s.syncState with
  | hunt => exact ⟨_, execSync_hunt hs⟩
  | collect =>
    by_cases hl : s.len < 5
    · exact ⟨_, execSync_short hs hl⟩
    · obtain ⟨c, hcand⟩ := exists_candidate inv
      exact ⟨_, exec_sync_closing ⟨hc, hs, Nat.not_lt.mp hl, inv.lenBound, hcand⟩⟩

/-- From a good state, with a lawful host, the block takes its step. -/
theorem step_completes {s : State} (inv : BufferInv s) (host : HostInv s) : ∃ t, step s = .next t := by
  cases hr : s.presented.rst with
  | true => exact ⟨_, if_pos hr⟩
  | false =>
    rw [step_eq_of_lawful hr (config_presented_eq host hr) host.now]
    split
    case isTrue =>
      by_cases hb : s.presented.inByte = delim
      · rw [hb, exec_decodeByte_delim]
        exact execSync_completes inv host.now
      · exact ⟨_, exec_decodeByte_data hb s⟩
    case isFalse => exact ⟨_, rfl⟩

/-- Settles O47: a lawful host is never refused, the buffer invariant excludes the fault, and each invariant is kept by the
step. -/
theorem lawfulHostNeverStopsTheBlock : Obligations.LawfulHostNeverStopsTheBlock := by
  intro s inv host
  obtain ⟨t, ht⟩ := step_completes inv host
  exact ⟨t, ht, everyStepKeepsTheBufferInvariant s t inv ht, hostInv_step host ht⟩

/-! ### The bytes that the checks look at -/

/-- A range inside a sequence, byte by byte. -/
theorem take_drop_eq_map_getD {l : List Byte} {a n : Nat} (h : a + n ≤ l.length) :
    (l.drop a).take n = (List.range n).map fun k => l.getD (a + k) 0#8 := by
  refine List.ext_getElem (by simp; omega) fun k hk _ => ?_
  rw [List.length_take] at hk
  simp only [List.getElem_take, List.getElem_drop, List.getElem_map, List.getElem_range]
  exact (List.getD_eq_getElem _ _ _).symm

/-- A byte of a range inside a sequence is the sequence's. -/
theorem getD_take_drop {l : List Byte} {a n k : Nat} (hk : k < n) :
    ((l.drop a).take n).getD k 0#8 = l.getD (a + k) 0#8 := by
  simp only [List.getD_eq_getElem?_getD, List.getElem?_take_of_lt hk, List.getElem?_drop]

/-- The payload of a candidate with `n` wire frames. -/
def payloadOf (c : Candidate) (n : Nat) : List Byte := (c.bytes.drop 9).take (6 * n)

section
variable {c : Candidate} {n : Nat}

/-- A payload byte is the candidate's, nine bytes further on. -/
theorem payloadOf_getD {k : Nat} (hk : k < 6 * n) : (payloadOf c n).getD k 0#8 = c.byte (9 + k) := getD_take_drop hk

/-- The whole payload of a candidate that is long enough. -/
theorem payloadOf_length (h : 9 + 6 * n ≤ c.bytes.length) : (payloadOf c n).length = 6 * n := by
  rw [payloadOf, List.length_take, List.length_drop]
  omega

/-- The scan for bit 7, said from the candidate's bytes (spec/43_payload_decoder.md R141). -/
theorem any_high_eq_payloadOf (h : 9 + 6 * n ≤ c.bytes.length) :
    (List.range (6 * n)).any (fun k => decide (0x80 ≤ (c.byte (9 + k)).toNat)) =
      (payloadOf c n).any (fun b => decide (0x80 ≤ b.toNat)) := by
  rw [payloadOf, take_drop_eq_map_getD h, List.any_map]
  rfl

/-- A wire frame's checksum, said from the candidate's bytes (spec/43_payload_decoder.md R142). -/
theorem frameBad_eq {i : Nat} (h : 9 + 6 * n ≤ c.bytes.length) (hi : i < n) :
    frameBad c i = !frameOk (wireFrame (payloadOf c n) i) := by
  have hcovered : ((payloadOf c n).drop (6 * i)).take 5 = (List.range 5).map fun j => c.byte (9 + 6 * i + j) := by
    rw [take_drop_eq_map_getD (by rw [payloadOf_length h]; omega)]
    refine List.map_congr_left fun j hj => ?_
    have hj' := List.mem_range.mp hj
    rw [payloadOf_getD (by omega), Nat.add_assoc 9]
  have hstored : (payloadOf c n).getD (6 * i + 5) 0#8 = c.byte (9 + 6 * i + 5) := payloadOf_getD (by omega)
  rw [Bool.eq_iff_iff, Bool.not_eq_true', ← Bool.not_eq_true, ← frameRight_iff, FrameRight, hcovered, hstored, frameBad,
    decide_eq_true_iff]

end

/-! ### The checks in their order (R192): those of the header (codes 1 to 5) -/

/-- The checks behind the header, in their order: codes 6 to 8. -/
def bodyFailure (cfg : Config) (c : Candidate) : Option RejectCode :=
  if (List.range (6 * (c.byte 7).toNat)).any (fun k => decide (0x80 ≤ (c.byte (9 + k)).toNat)) then some .highBit
  else if (List.range (c.byte 7).toNat).any (frameBad c) then some .frameChecksum
  else if cfg.ft.any (fun w => descValid w &&
      decide (4 * (c.byte 7).toNat < (descOffset w).toNat + (descLength w).toNat)) then some .fieldRange
  else none

/-- The header's checks compare integers in the statement and bytes in the validator; they are the same checks. -/
theorem firstFailure_eq (cfg : Config) {c : Candidate} (h9 : 9 ≤ c.len → 9 ≤ c.bytes.length) :
    firstFailure cfg c =
      if c.byte 4 ≠ cfg.version then some .badVersion
      else if c.len < 9 then some .incomplete
      else if joinBytes (c.byte 5) (c.byte 6) ≠ cfg.command then some .badCommand
      else if c.byte 8 ≠ lowByte (cksum (c.bytes.take 8)) then some .hdrChecksum
      else if c.len ≠ 9 + 6 * (c.byte 7).toNat then some .length
      else bodyFailure cfg c := by
  by_cases hl : c.len < 9
  · rw [firstFailure, if_pos hl, if_pos hl]
  · have hle := h9 (Nat.not_lt.mp hl)
    have hcovered : c.bytes.take 8 = (List.range 8).map c.byte := by
      refine (take_drop_eq_map_getD (a := 0) (by omega)).trans (List.map_congr_left fun k _ => ?_)
      rw [Nat.zero_add, Candidate.byte]
    rw [firstFailure, bodyFailure, hcovered]
    simp only [ne_eq, eq_lowByte_iff, ← BitVec.toNat_inj (x := joinBytes _ _), joinBytes_toNat]

/-- A candidate that the header validator rejects fails the check of that code first. -/
theorem firstFailure_of_headerError {cfg : Config} {c : Candidate} {r : Rejection}
    (h9 : 9 ≤ c.len → 9 ≤ c.bytes.length) (h : headerValidate cfg c = .error r) :
    firstFailure cfg c = some r.code := by
  rw [firstFailure_eq cfg h9]
  unfold headerValidate at h
  split_ifs at h ⊢ <;> cases h <;> rfl

/-- One that it passes has the length of its frame count, and is left to the checks behind the header. -/
theorem firstFailure_of_headerOk {cfg : Config} {c : Candidate} {payload : List Byte}
    (h9 : 9 ≤ c.len → 9 ≤ c.bytes.length) (h : headerValidate cfg c = .ok payload) :
    c.len = 9 + 6 * (c.byte 7).toNat ∧ firstFailure cfg c = bodyFailure cfg c := by
  rw [firstFailure_eq cfg h9]
  unfold headerValidate at h
  split_ifs at h ⊢ with _ _ _ _ hl
  exact ⟨not_not.mp hl, rfl⟩

/-! ### The checks behind the header (codes 6 to 8) -/

/-- What the payload decoder answers: a byte with bit 7 set comes before every frame, then the lowest frame whose checksum
is not right, and without either the decoded bytes (spec/43_payload_decoder.md R141, R142, R144). -/
theorem payloadDecode_cases (n : Nat) (payload : List Byte) :
    (payload.any (fun b => decide (0x80 ≤ b.toNat)) = true ∧ payloadDecode n payload = .error ⟨.highBit, none⟩) ∨
    (payload.any (fun b => decide (0x80 ≤ b.toNat)) = false ∧
      ((∃ i d, i < n ∧ frameOk (wireFrame payload i) = false ∧ (∀ j, j < i → frameOk (wireFrame payload j) = true) ∧
          payloadDecode n payload = .error ⟨.frameChecksum, some d⟩ ∧ d.idx = BitVec.ofNat 8 i) ∨
       ((∀ i, i < n → frameOk (wireFrame payload i) = true) ∧ ∃ d, payloadDecode n payload = .ok d))) := by
  cases hhigh : payload.any fun b => decide (0x80 ≤ b.toNat) with
  | true => exact .inl ⟨rfl, if_pos hhigh⟩
  | false =>
    refine .inr ⟨rfl, ?_⟩
    cases hfind : (List.range n).find? fun i => !frameOk (wireFrame payload i) with
    | some i =>
      obtain ⟨hbad, hi, hmin⟩ := List.find?_range_eq_some.mp hfind
      have hbad' : frameOk (wireFrame payload i) = false := by simpa using hbad
      have hmin' : ∀ j, j < i → frameOk (wireFrame payload j) = true := fun j hj => by simpa using hmin j hj
      have hi' := List.mem_range.mp hi
      have hlow : ∀ b ∈ payload, b.toNat < 0x80 := by simpa using hhigh
      exact .inl ⟨i, _, hi', hbad', hmin', payloadDecode_of_lowestBad hlow hi' hbad' hmin', rfl⟩
    | none =>
      refine .inr ⟨fun i hi => by simpa using List.find?_eq_none.mp hfind i (List.mem_range.mpr hi), ?_⟩
      rw [payloadDecode, hhigh, if_neg Bool.false_ne_true, hfind]
      exact ⟨_, rfl⟩

/-- Wire frame `i` is the lowest bad one of the candidate. -/
def IsLowestBad (c : Candidate) (i : Nat) : Prop :=
  i < (c.byte 7).toNat ∧ frameBad c i = true ∧ ∀ j, j < i → frameBad c j = false

/-- A wire frame that is the lowest bad one of the payload is that of the candidate. -/
theorem isLowestBad_of_payloadOf {c : Candidate} {i : Nat} (hlen : 9 + 6 * (c.byte 7).toNat ≤ c.bytes.length)
    (hi : i < (c.byte 7).toNat) (hbad : frameOk (wireFrame (payloadOf c (c.byte 7).toNat) i) = false)
    (hmin : ∀ j, j < i → frameOk (wireFrame (payloadOf c (c.byte 7).toNat) j) = true) : IsLowestBad c i := by
  refine ⟨hi, ?_, fun j hj => ?_⟩
  · rw [frameBad_eq hlen hi, hbad, Bool.not_false]
  · rw [frameBad_eq hlen (hj.trans hi), hmin j hj, Bool.not_true]

/-- A candidate with a lowest bad frame fails the check of the frame checksums. -/
theorem IsLowestBad.any_frameBad {c : Candidate} {i : Nat} (h : IsLowestBad c i) :
    (List.range (c.byte 7).toNat).any (frameBad c) = true := by
  obtain ⟨hi, hbad, -⟩ := h
  exact List.any_eq_true.mpr ⟨i, List.mem_range.mpr hi, hbad⟩

/-- A candidate whose wire frames are all right passes it. -/
theorem any_frameBad_eq_false {c : Candidate} (hlen : 9 + 6 * (c.byte 7).toNat ≤ c.bytes.length)
    (hok : ∀ i, i < (c.byte 7).toNat → frameOk (wireFrame (payloadOf c (c.byte 7).toNat) i) = true) :
    (List.range (c.byte 7).toNat).any (frameBad c) = false := by
  refine List.any_eq_false.mpr fun i hi => ?_
  have hi' := List.mem_range.mp hi
  rw [frameBad_eq hlen hi', hok i hi']
  decide

/-- A candidate is rejected for its first failing check, with the index of its lowest bad frame for code 7, or it fails no
check and is accepted. -/
def FirstFailureDecides (cfg : Config) (c : Candidate) : Prop :=
  (∃ r, decodeCandidate cfg c = .error r ∧ firstFailure cfg c = some r.code ∧
    (r.code = .frameChecksum → ∃ d, r.diag = some d ∧ IsLowestBad c d.idx.toNat)) ∨
  (∃ a, decodeCandidate cfg c = .ok a ∧ firstFailure cfg c = none)

/-- The check of the field ranges, said slot by slot (spec/44_field_mapper.md R163). -/
theorem any_range_iff {ft : List DescWord} {n : Nat} :
    (ft.any fun w => descValid w && decide (n < (descOffset w).toNat + (descLength w).toNat)) = true ↔
      n < reqBytes ft := by
  simp only [lt_reqBytes_iff, List.any_eq_true, Bool.and_eq_true, decide_eq_true_iff]
  rfl

/-- A rejection in the payload decoder is the candidate's. -/
theorem decodeCandidate_of_payloadError {cfg : Config} {c : Candidate} {payload : List Byte} {r : Rejection}
    (hval : headerValidate cfg c = .ok payload) (hdec : payloadDecode (c.byte 7).toNat payload = .error r) :
    decodeCandidate cfg c = .error r := by
  simp only [decodeCandidate, hval, hdec]

/-- Behind an accepted header the payload decoder and the range check make the checks in their order. -/
theorem firstFailureDecides_of_headerOk {cfg : Config} {c : Candidate}
    (hval : headerValidate cfg c = .ok (payloadOf c (c.byte 7).toNat))
    (hlen : 9 + 6 * (c.byte 7).toNat ≤ c.bytes.length) (hfirst : firstFailure cfg c = bodyFailure cfg c) :
    FirstFailureDecides cfg c := by
  rw [FirstFailureDecides, hfirst, bodyFailure, any_high_eq_payloadOf hlen]
  rcases payloadDecode_cases (c.byte 7).toNat (payloadOf c (c.byte 7).toNat) with
    ⟨hhigh, hdec⟩ | ⟨hlow, ⟨i, d, hi, hbad, hmin, hdec, hidx⟩ | ⟨hok, d, hdec⟩⟩
  · exact .inl ⟨_, decodeCandidate_of_payloadError hval hdec, if_pos hhigh, fun h => (by cases h)⟩
  · have hidx' : d.idx.toNat = i := by
      have hn := (c.byte 7).isLt
      rw [hidx, BitVec.toNat_ofNat, Nat.mod_eq_of_lt (by omega)]
    have hlowest : IsLowestBad c d.idx.toNat := hidx' ▸ isLowestBad_of_payloadOf hlen hi hbad hmin
    refine .inl ⟨_, decodeCandidate_of_payloadError hval hdec, ?_, fun _ => ⟨d, rfl, hlowest⟩⟩
    rw [hlow, if_neg Bool.false_ne_true, if_pos hlowest.any_frameBad]
  · rw [decodeCandidate_of_decoded hval hdec, hlow, any_frameBad_eq_false hlen hok, if_neg Bool.false_ne_true,
      if_neg Bool.false_ne_true]
    by_cases hr : 4 * (c.byte 7).toNat < reqBytes cfg.ft
    · exact .inl ⟨⟨.fieldRange, none⟩, if_pos hr, if_pos (any_range_iff.mpr hr), fun h => (by cases h)⟩
    · exact .inr ⟨_, if_neg hr, if_neg (mt any_range_iff.mp hr)⟩

/-- At a closing delimiter the first failing check decides: the buffer holds the header of a candidate of nine bytes or more,
and the whole of one whose length is that of its frame count. -/
theorem firstFailureDecides_closing {s : State} {c : Candidate} (ha : AtClosing s c) :
    FirstFailureDecides s.cfg c := by
  have hlen := (candidate_bytes ha.candidate).1
  have hbytes := (candidate_read ha.candidate).1
  have hbound := ha.bound
  simp only [State.validLen, Params.rbCap, hdrLen, frameLen] at hbytes hbound
  have h9 : 9 ≤ c.len → 9 ≤ c.bytes.length := by omega
  cases hval : headerValidate s.cfg c with
  | error r =>
    refine .inl ⟨r, decodeCandidate_of_headerError hval, firstFailure_of_headerError h9 hval, fun h7 => ?_⟩
    have hlow := (headerValidate_error hval).1
    rw [h7] at hlow
    cases hlow
  | ok payload =>
    obtain ⟨hl, hfirst⟩ := firstFailure_of_headerOk h9 hval
    obtain rfl := headerValidate_ok hval
    exact firstFailureDecides_of_headerOk hval (by omega) hfirst

/-- Settles O32: the evaluation makes the writes of `DecodeCandidate`'s result, which the first failing check decides. -/
theorem firstFailingCheckDecides : Obligations.FirstFailingCheckDecides := by
  intro s c ha
  refine ⟨_, exec_sync_closing ha, ?_⟩
  rcases firstFailureDecides_closing ha with ⟨r, hdec, hfirst, hframe⟩ | ⟨a, hdec, hfirst⟩
  · rw [hdec, hfirst, applyResult, takeReject_out, takeReject_lastCode, takeReject_diagIdx]
    refine ⟨fun code hcode => ?_, fun hcode => ?_, fun hcode => (by cases hcode)⟩
    · obtain rfl := Option.some.inj hcode
      exact ⟨rfl, rfl⟩
    · obtain ⟨d, hd, hlowest⟩ := hframe (Option.some.inj hcode)
      rw [hd]
      exact hlowest
  · rw [hdec, hfirst]
    exact ⟨fun _ h => (by cases h), fun h => (by cases h), fun _ => ⟨rfl, rfl⟩⟩

end Sys2Proof.Proofs
end

section
/-!
PROOFS. spec/70_reset_and_hazards.md: a step with `rst = 1` (R210).
-/
namespace Sys2Proof.Proofs
open Sys2Proof.Machine

/-- Reset wins over the configuration checks and over a byte at the port (spec/70_reset_and_hazards.md R210). -/
theorem step_eq_resetStep {s : State} (hr : s.presented.rst = true) : step s = .next (resetStep s.presented s) :=
  if_pos hr

/-- Reset reads the parameters, the configuration presented and the samples to come, and nothing else of the state. -/
theorem resetStep_congr {p p' : Sample} {s s' : State} (hparams : s.params = s'.params)
    (hcfg : p.config s.cfg = p'.config s'.cfg) (hinput : s.input.tail = s'.input.tail) :
    resetStep p s = resetStep p' s' := by
  rw [resetStep, resetStep, hparams, hcfg, hinput]

/-- The state after reset is a fixed point of reset under an idle sample, which presents no configuration (log 5). -/
theorem resetStep_reset : resetStep {} State.reset = State.reset := rfl

/-- Settles O1: the step is the reset of the block, which gives every register its reset value, reads only what the two
states agree on, and leaves the state after reset where it is. -/
theorem resetStepPutsEveryRegisterToItsResetValue : Obligations.ResetStepPutsEveryRegisterToItsResetValue := by
  refine ⟨fun s hr => ?_, fun s s' hr hr' hparams hcfg hinput => ?_, ?_⟩
  · exact ⟨_, step_eq_resetStep hr, resetValues_resetStep _ s, resetStep_params _ s, resetStep_cfg _ s,
      resetStep_input _ s⟩
  · rw [step_eq_resetStep hr, step_eq_resetStep hr', resetStep_congr hparams hcfg hinput]
  · exact resetStep_reset ▸ resetValues_resetStep {} State.reset

end Sys2Proof.Proofs
end
